-- ==== Sys2Proof/Word.lean ====
section
/-! DEFINITION. The word types of FanoDec (spec/00_scope.md R9, R12, R13): a 16-bit command word, 8-bit bytes
and symbols, and bit sequences with the first bit at the head of the list. -/

namespace Sys2Proof

/-- One command word: `CMD_W = 16` bits, bit 0 least significant (R9, R12, R71). -/
abbrev Word := BitVec 16

/-- A body byte or a command's operand, 8 bits (R9, R71). -/
abbrev Byte := BitVec 8

/-- A symbol: "one byte value, domain 0–255" (R9, R18). -/
abbrev Sym := BitVec 8

/-- A bit sequence (R13): the head of the list is the first bit, the one the decoder consumes first. -/
abbrev Bits := List Bool

end Sys2Proof
end

