-- ==== Sys2Proof/Config.lean ====
section
/-! DEFINITION. What is fixed for the machine: the implementation parameters (spec/00_scope.md R9), the records
the three internal memories hold (spec/10_state.md R27, R28, R32), and the free values (spec/60_exceptions.md
R246: after a fault every register but PHASE, CAUSE and OUT is unspecified). -/

namespace Sys2Proof

/-- One element of the code table `CT` (R27): the source's CodeEntry. The field `len` of R27 is the length of
`code`: it is stored once, as the list, and computed from it by `CodeEntry.len` (log entry 3). -/
structure CodeEntry where
  sym  : Sym
  code : Bits
deriving DecidableEq, Repr, Inhabited

/-- One element of the trie memory `NODE` (R28). -/
structure TrieNode where
  leaf : Bool
  sym  : Sym
  c0v  : Bool
  c0   : BitVec 16
  c1v  : Bool
  c1   : BitVec 16
deriving DecidableEq, Repr, Inhabited

/-- One element of the code→symbol array `DEMUX` (R32). -/
structure DemuxElem where
  valid : Bool
  sym   : Sym
deriving DecidableEq, Repr, Inhabited

/-- What the registers and memories other than `PHASE`, `CAUSE` and `OUT` hold after a fault entry (R246, R41,
U24 of spec/93_implementation_defined.md): one value for each of them, none of them constrained. The memories
are given as cells to be written one after another into an empty memory. -/
structure AfterFault where
  mode   : BitVec 2
  nent   : BitVec 9
  ct     : List (Nat × CodeEntry)
  nnode  : BitVec 17
  node   : List (Nat × TrieNode)
  l      : BitVec 4
  demux  : List (Nat × DemuxElem)
  pvalid : Bool
  p      : BitVec 3
  holdv  : Bool
  hold   : Byte
  cursor : BitVec 16
  carry  : Byte
  ccnt   : BitVec 4
deriving DecidableEq, Repr, Inhabited

namespace Config

/-- Largest legal padding count (R9: `PAD_MAX`). -/
abbrev padMax : Nat := 7

/-- Capacity of the code table in entries (R9: `NENT_MAX`). -/
abbrev nentMax : Nat := 256

/-- Largest codeword length the table holds (R9: `CW_MAX`). -/
abbrev cwMax : Nat := 255

/-- Largest codeword length in fixed-width mode (R9: `LFIX_MAX`). -/
abbrev lfixMax : Nat := 8

/-- Capacity of the trie node memory, `1 + NENT_MAX × CW_MAX` (R9: `NNODE_MAX`). -/
abbrev nnodeMax : Nat := 65281

/-- Elements of the code→symbol array (R32, R50). -/
abbrev demuxMax : Nat := 256

/-- The limit of the Fano builder's consistency check, "available distinguishing bits" (spec/48_host_reference.md
R207), which the source does not define (93_implementation_defined.md U7: a parameter of a producer model). DESIGN
CHOICE: `CW_MAX` (log entry 12). -/
abbrev distinguishingBits : Nat := cwMax

/-- THE FREE VALUES. The contents of every register and memory that R246 leaves unspecified after the n-th
fault entry: an opaque constant, so that no proof can say what they are (log entry 1). -/
opaque afterFault : Nat → AfterFault

end Config

end Sys2Proof
end

