-- ==== Sys2Proof/Syntax.lean ====
section
/-! DEFINITION. The commands of command set FanoDec-C 1.0, one constructor per row of spec/opcode_table.json
(spec/30_encoding.md R71 to R73). -/

namespace Sys2Proof

/-- The eight opcodes of R73. -/
inductive Opcode
  | nop | rst | cfg | ent | cwb | bld | dat | endBody
deriving DecidableEq, Repr

/-- A command. Where the command has an operand, the constructor carries the operand byte `arg` as R72 and the
command rules read it (`arg[0]`, `arg[1:0]`, `arg[7:0]`); a command whose whole `arg` is reserved carries none. -/
inductive Instr
  /-- `NOP` (R101). -/
  | nop
  /-- `RST` (R102). -/
  | rst
  /-- `CFG kind, fmt` (R103): `arg[0]` = `KIND`, `arg[1]` = `FMT`, `arg[7:2]` reserved. -/
  | cfg (arg : Byte)
  /-- `ENT sym` (R111): `arg[7:0]` = the symbol. -/
  | ent (arg : Byte)
  /-- `CWB bit` (R112): `arg[0]` = the bit, `arg[7:1]` reserved. -/
  | cwb (arg : Byte)
  /-- `BLD` (R113). -/
  | bld
  /-- `DAT byte` (R141): `arg[7:0]` = the body byte. -/
  | dat (arg : Byte)
  /-- `END` (R149). -/
  | endBody
deriving DecidableEq, Repr

/-- The opcode of a command. -/
def Instr.opcode : Instr → Opcode
  | .nop => .nop
  | .rst => .rst
  | .cfg _ => .cfg
  | .ent _ => .ent
  | .cwb _ => .cwb
  | .bld => .bld
  | .dat _ => .dat
  | .endBody => .endBody

/-- The operand byte of a command; a command without an operand has `arg = 0x00` (R72). -/
def Instr.arg : Instr → Byte
  | .nop => 0
  | .rst => 0
  | .cfg a => a
  | .ent a => a
  | .cwb a => a
  | .bld => 0
  | .dat a => a
  | .endBody => 0

end Sys2Proof
end

