-- ==== Sys2Proof/WellFormed.lean ====
section
/-! DEFINITION. Well-formed commands: the reserved operand bits of spec/30_encoding.md R72 and R76 are 0. -/

namespace Sys2Proof

/-- The operand bits that R72 says must be 0, as a mask over `arg`. -/
def Opcode.reservedMask : Opcode → Byte
  | .nop => 0xFF
  | .rst => 0xFF
  | .cfg => 0xFC
  | .ent => 0x00
  | .cwb => 0xFE
  | .bld => 0xFF
  | .dat => 0x00
  | .endBody => 0xFF

/-- No reserved bit of `arg` is 1 (R72, R76). -/
def Opcode.reservedClear (op : Opcode) (arg : Byte) : Bool :=
  arg &&& op.reservedMask == 0

/-- A command that has an encoding: its reserved operand bits are 0. -/
def Instr.wellFormed (i : Instr) : Bool :=
  i.opcode.reservedClear i.arg

end Sys2Proof
end

