-- ==== Sys2Proof/Decode.lean ====
section
/-! DEFINITION. Decoding a command word and encoding a command (spec/30_encoding.md R71 to R76). The checks that
need PHASE (R74's first and last lines) are the machine's; here a word is an instruction or is rejected by name. -/

namespace Sys2Proof

/-- Why a word spells no command. -/
inductive DecodeError
  /-- `op > 0x07`: IC_UNDEFINED_OPCODE (R75). -/
  | undefinedOpcode
  /-- A defined `op` with a reserved `arg` bit set: IC_RESERVED_BITS (R76). -/
  | reservedBits
deriving DecidableEq, Repr

/-- Field `op`, bits 15:8 (R71). -/
def Word.op (w : Word) : Byte := w.extractLsb' 8 8

/-- Field `arg`, bits 7:0 (R71). -/
def Word.arg (w : Word) : Byte := w.extractLsb' 0 8

/-- The opcode byte of each command (R73). -/
def Opcode.code : Opcode → Byte
  | .nop => 0x00
  | .rst => 0x01
  | .cfg => 0x02
  | .ent => 0x03
  | .cwb => 0x04
  | .bld => 0x05
  | .dat => 0x06
  | .endBody => 0x07

/-- The command an opcode byte stands for; 0x08 to 0xFF spell none (R73, R75). -/
def Opcode.ofCode (op : Byte) : Option Opcode :=
  match op.toNat with
  | 0 => some .nop
  | 1 => some .rst
  | 2 => some .cfg
  | 3 => some .ent
  | 4 => some .cwb
  | 5 => some .bld
  | 6 => some .dat
  | 7 => some .endBody
  | _ => none

/-- The command of an opcode and an operand byte. -/
def Opcode.toInstr : Opcode → Byte → Instr
  | .nop, _ => .nop
  | .rst, _ => .rst
  | .cfg, a => .cfg a
  | .ent, a => .ent a
  | .cwb, a => .cwb a
  | .bld, _ => .bld
  | .dat, a => .dat a
  | .endBody, _ => .endBody

/-- R74's tests on the word alone, in its order: undefined opcode first, then reserved bits. -/
def decode (w : Word) : Except DecodeError Instr :=
  match Opcode.ofCode (Word.op w) with
  | none => .error .undefinedOpcode
  | some op =>
    if op.reservedClear (Word.arg w) then .ok (op.toInstr (Word.arg w)) else .error .reservedBits

/-- The word of a command: `op` in bits 15:8, `arg` in bits 7:0 (R71, R73, R88). -/
def encode (i : Instr) : Word := i.opcode.code ++ i.arg

/-- One row of the opcode map of R73: a word `w` spells the command when `w & mask = match`. -/
structure OpcodeRow where
  opcode : Opcode
  value  : Word
  mask   : Word
deriving DecidableEq, Repr

/-- The opcode map of R73, `match` and `mask` as the table prints them. -/
def opcodeMap : List OpcodeRow :=
  [⟨.nop, 0x0000, 0xFFFF⟩, ⟨.rst, 0x0100, 0xFFFF⟩, ⟨.cfg, 0x0200, 0xFFFC⟩, ⟨.ent, 0x0300, 0xFF00⟩,
   ⟨.cwb, 0x0400, 0xFFFE⟩, ⟨.bld, 0x0500, 0xFFFF⟩, ⟨.dat, 0x0600, 0xFF00⟩, ⟨.endBody, 0x0700, 0xFFFF⟩]

/-- `w & mask = match` (R73). -/
def OpcodeRow.spells (r : OpcodeRow) (w : Word) : Bool := w &&& r.mask == r.value

/-- The host's question: the instruction the decoder reads from the table's numbering of a command's bits
(one 16-bit word, so the numbering is the word's own; bits above `nbits` are 0). -/
def decodeTableWord (nbits w : Nat) : Option Instr :=
  match decode (BitVec.ofNat 16 (w % 2 ^ nbits)) with
  | .ok i => some i
  | .error _ => none

end Sys2Proof
end

