-- ==== Sys2Proof/Machine/State.lean ====
section
/-! DEFINITION. The state of the block (spec/10_state.md R20 to R42), the reasons a step can stop, and the state
right after reset. -/

namespace Sys2Proof.Machine

/-- The phase of a session (R23). The five values R23 names; 5 to 7 are never taken. -/
inductive Phase
  | idle | load | run | done | fault
deriving DecidableEq, Repr

/-- `MODE.KIND` (R24): which decoder the bits go to. -/
inductive Kind
  /-- `PREFIX`: variable-length code, decoded with the trie. -/
  | prefixCode
  /-- `FIXED`: fixed-width code, decoded with the code→symbol array. -/
  | fixedCode
deriving DecidableEq, Repr

/-- `MODE.FMT` (R24): the format of the body. -/
inductive Fmt
  /-- `TEXT`: each body byte is a character; `0` and `1` are bits. -/
  | text
  /-- `BINARY`: a padding byte, then packed bits. -/
  | binary
deriving DecidableEq, Repr

/-- The fault causes of spec/60_exceptions.md R241, under its names. -/
inductive Cause
  | mhNoCodeword | mhLenMismatch | mhEmptyTable | mhTableFull | mhCodeTooLong | mhFixedTooWide
  | mhNotPrefixFree | mhDupCode
  | csBadPadding | csDeadEnd | csUnmapped | csMidCodeword | csPartialCode | csNoPaddingByte
  | csPaddingNoData
  | icUndefinedOpcode | icReservedBits | icWrongPhase | icNoOpenEntry
deriving DecidableEq, Repr

/-- The three internal memories (spec/20_memory.md R50). -/
inductive SpaceName
  | ct | node | demux
deriving DecidableEq, Repr

/-- What the host does to the block between two commands: it presents a command word on the command port
(spec/20_memory.md R51), or it pulls `rst_n` low (spec/70_reset_and_hazards.md R270). -/
inductive HostInput
  | word (w : Word)
  | hardReset
deriving DecidableEq, Repr

/-- The state (R20). The last two fields are the model's own: what the host has presented and the block has not
taken yet (R51, log entry 5), and how many fault entries have drawn free values (log entry 1). -/
structure State where
  /-- `PHASE` (R23). -/
  phase  : Phase
  /-- `MODE` (R24): bit 0 `KIND`, bit 1 `FMT`. -/
  mode   : BitVec 2
  /-- `CAUSE` (R25). -/
  cause  : BitVec 8
  /-- `NENT` (R26). -/
  nent   : BitVec 9
  /-- `CT` (R27), by element index. -/
  ct     : List (Nat × CodeEntry)
  /-- `NNODE` (R28). -/
  nnode  : BitVec 17
  /-- `NODE` (R28), by element index. -/
  node   : List (Nat × TrieNode)
  /-- `L` (R31). -/
  l      : BitVec 4
  /-- `DEMUX` (R32), by element index. -/
  demux  : List (Nat × DemuxElem)
  /-- `PVALID` (R33). -/
  pvalid : Bool
  /-- `P` (R34). -/
  p      : BitVec 3
  /-- `HOLDV` (R35). -/
  holdv  : Bool
  /-- `HOLD` (R35). -/
  hold   : Byte
  /-- `CURSOR` (R36). -/
  cursor : BitVec 16
  /-- `CARRY` (R37). -/
  carry  : Byte
  /-- `CCNT` (R37). -/
  ccnt   : BitVec 4
  /-- `OUT` (R39): the symbols transferred on the symbol port since the last reset, first one first. -/
  out    : List Sym
  /-- What the host has presented and the block has not taken, oldest first (the model's own field). -/
  input  : List HostInput
  /-- How many fault entries have drawn free values (the model's own field). -/
  draws  : Nat
deriving DecidableEq, Repr

/-- The state after reset (R42, R271): the values R42 states; no element of `CT` and `NODE` holds a value (R42:
unspecified; log entry 2), every `DEMUX` element is invalid, the host has presented nothing. -/
def State.reset : State where
  phase  := .idle
  mode   := 0
  cause  := 0
  nent   := 0
  ct     := []
  nnode  := 0
  node   := []
  l      := 0
  demux  := []
  pvalid := false
  p      := 0
  holdv  := false
  hold   := 0
  cursor := 0
  carry  := 0
  ccnt   := 0
  out    := []
  input  := []
  draws  := 0

/-- Why the machine itself stops. The block's own faults are NOT here: they are a state, `PHASE = FAULT`
(spec/60_exceptions.md R246). No state that a run from reset reaches stops for any of these
(Obligations.StepNeverStopsFromInvariantStates states it). -/
inductive Fault
  /-- An access to an element the space does not have (R50 gives the sizes). Raised by a read or write of `CT`,
  `NODE` or `DEMUX`. Safe: the machine stops. -/
  | noSuchElement (space : SpaceName) (index : Nat)
  /-- A read of an element of `CT` or `NODE` that nothing has written since reset, whose content R42 leaves
  unspecified. Raised by `BLD`, `CWB`, `DAT`, `END`. Safe: the machine stops. -/
  | unwrittenElement (space : SpaceName) (index : Nat)
  /-- A loop of the pseudocode that makes no progress (`FBYTE` with `L = 0`, which no `BLD` leaves behind).
  Raised by `DAT`, `END`. Safe: the machine stops. -/
  | endlessLoop
deriving DecidableEq, Repr

/-- Why a step has no meaning. -/
inductive Refusal
  /-- The instruction has no meaning in the model yet. Raised by `exec`'s refused arms only (there are none).
  Safe: the machine stops. -/
  | notModelled (mnemonic : String)
deriving DecidableEq, Repr

end Sys2Proof.Machine
end

