-- ==== Sys2Proof/Machine/Ops.lean ====
section
/-! DEFINITION. The shared operations: reading and writing the internal memories (spec/20_memory.md R50, R63),
what a piece of pseudocode answers (spec/00_scope.md R14, R15), `emit` (R54), fault entry and the return from it
(spec/60_exceptions.md R246, R249), and the checks every command makes first (spec/30_encoding.md R74, R80, R81). -/

namespace Sys2Proof.Machine

/-! ### Internal memories -/

/-- An internal memory: its name, how many elements it has (R50), and what an element that nothing has written
since reset reads as (R42). -/
structure Space (α : Type) where
  name     : SpaceName
  size     : Nat
  unlisted : Option α
deriving DecidableEq, Repr

/-- `CT`: 256 elements, unspecified after reset. -/
def ctSpace : Space CodeEntry := ⟨.ct, Config.nentMax, none⟩

/-- `NODE`: 65281 elements, unspecified after reset. -/
def nodeSpace : Space TrieNode := ⟨.node, Config.nnodeMax, none⟩

/-- `DEMUX`: 256 elements, every `valid` 0 after reset, and `sym` 0 when `valid` is 0 (R32, R42). -/
def demuxSpace : Space DemuxElem := ⟨.demux, Config.demuxMax, some ⟨false, 0⟩⟩

/-- The listed value of an element. -/
def Memory.lookup {α : Type} : List (Nat × α) → Nat → Option α
  | [], _ => none
  | (k, v) :: rest, i => if k = i then some v else Memory.lookup rest i

/-- The list with one element listed, in its place by index. -/
def Memory.insert {α : Type} : List (Nat × α) → Nat → α → List (Nat × α)
  | [], i, v => [(i, v)]
  | (k, w) :: rest, i, v =>
    if i < k then (i, v) :: (k, w) :: rest
    else if k = i then (i, v) :: rest
    else (k, w) :: Memory.insert rest i v

/-- The list with one element no longer listed. -/
def Memory.erase {α : Type} : List (Nat × α) → Nat → List (Nat × α)
  | [], _ => []
  | (k, w) :: rest, i => if k = i then rest else (k, w) :: Memory.erase rest i

/-- `MemRead(space, i)` (R14): one whole element. -/
def Memory.read {α : Type} (sp : Space α) (m : List (Nat × α)) (i : Nat) : Except Fault α :=
  if i < sp.size then
    match (Memory.lookup m i).or sp.unlisted with
    | some v => .ok v
    | none => .error (.unwrittenElement sp.name i)
  else .error (.noSuchElement sp.name i)

/-- The list after element `i` is given the value `v`, kept canonical: a value that an unlisted element reads as
is not listed. -/
def Memory.put {α : Type} [DecidableEq α] (sp : Space α) (m : List (Nat × α)) (i : Nat) (v : α) :
    List (Nat × α) :=
  if sp.unlisted = some v then Memory.erase m i else Memory.insert m i v

/-- `MemWrite(space, i, v)` (R14): one whole element. -/
def Memory.write {α : Type} [DecidableEq α] (sp : Space α) (m : List (Nat × α)) (i : Nat) (v : α) :
    Except Fault (List (Nat × α)) :=
  if i < sp.size then .ok (Memory.put sp m i v) else .error (.noSuchElement sp.name i)

/-- A memory that holds the given cells: each written in turn into an empty memory, a cell at an index the space
does not have left out. -/
def Memory.ofCells {α : Type} [DecidableEq α] (sp : Space α) (cells : List (Nat × α)) : List (Nat × α) :=
  cells.foldl (fun m c => if c.1 < sp.size then Memory.put sp m c.1 c.2 else m) []

/-- Indices strictly rise from one cell to the next, all from `low` on. -/
def Memory.rising {α : Type} : Nat → List (Nat × α) → Bool
  | _, [] => true
  | low, (k, _) :: rest => low ≤ k && Memory.rising (k + 1) rest

/-- The canonical form: indices strictly rise, every index is one the space has, and no cell holds what an
unlisted element reads as. -/
def Memory.wf {α : Type} [DecidableEq α] (sp : Space α) (m : List (Nat × α)) : Bool :=
  Memory.rising 0 m && m.all (fun c => c.1 < sp.size && sp.unlisted ≠ some c.2)

/-! ### What a piece of pseudocode answers -/

/-- The three ways a piece of pseudocode ends (R15): it runs to its end with an answer and a state, it reaches a
`raise Fault(c)` in a state, or the machine itself stops. -/
inductive Result (α : Type)
  | ok (a : α) (s : State)
  | raised (c : Cause) (s : State)
  | stop (f : Fault)
deriving Repr

/-- One piece of pseudocode after another: nothing after a `raise` is executed (R14, R15). -/
def Result.bind {α β : Type} (r : Result α) (f : α → State → Result β) : Result β :=
  match r with
  | .ok a s => f a s
  | .raised c s => .raised c s
  | .stop g => .stop g

/-- A value read from a memory, or the machine's stop. -/
def Result.ofExcept {α : Type} (e : Except Fault α) (s : State) : Result α :=
  match e with
  | .ok a => .ok a s
  | .error f => .stop f

/-- `for b in bits: f(b)`, in order, up to the first `raise` (R15). -/
def forEach {α : Type} (f : α → State → Result Unit) : List α → State → Result Unit
  | [], s => .ok () s
  | a :: rest, s => (f a s).bind fun _ s' => forEach f rest s'

/-- `emit(s)` (R54): append the symbol to `OUT`; the host is always ready (log entry 6). -/
def State.emit (sym : Sym) (s : State) : State := { s with out := s.out ++ [sym] }

/-! ### Taking a fault and returning from one -/

/-- The cause codes of R241. -/
def Cause.code : Cause → BitVec 8
  | .mhNoCodeword => 0x10
  | .mhLenMismatch => 0x11
  | .mhEmptyTable => 0x12
  | .mhTableFull => 0x13
  | .mhCodeTooLong => 0x14
  | .mhFixedTooWide => 0x15
  | .mhNotPrefixFree => 0x16
  | .mhDupCode => 0x17
  | .csBadPadding => 0x20
  | .csDeadEnd => 0x21
  | .csUnmapped => 0x22
  | .csMidCodeword => 0x23
  | .csPartialCode => 0x24
  | .csNoPaddingByte => 0x25
  | .csPaddingNoData => 0x26
  | .icUndefinedOpcode => 0x30
  | .icReservedBits => 0x31
  | .icWrongPhase => 0x32
  | .icNoOpenEntry => 0x33

/-- Fault entry, `raise Fault(c)` (R246): `PHASE` and `CAUSE` are written, `OUT` keeps every symbol emitted so
far, and every other register and memory holds an unspecified value from now on (a free value, log entry 1).
What the host has presented is not the block's to change. -/
def State.enterFault (c : Cause) (s : State) : State :=
  let free := Config.afterFault s.draws
  { phase  := .fault
    mode   := free.mode
    cause  := c.code
    nent   := free.nent
    ct     := Memory.ofCells ctSpace free.ct
    nnode  := free.nnode
    node   := Memory.ofCells nodeSpace free.node
    l      := free.l
    demux  := Memory.ofCells demuxSpace free.demux
    pvalid := free.pvalid
    p      := free.p
    holdv  := free.holdv
    hold   := free.hold
    cursor := free.cursor
    carry  := free.carry
    ccnt   := free.ccnt
    out    := s.out
    input  := s.input
    draws  := s.draws + 1 }

/-- Reset, by `rst_n` or by `RST`: "every piece of state <- its reset value" (R102, R270, R272); it is the only
return from a fault (R249). What the host has presented, and the count of free values drawn, are not the
block's. -/
def State.resetSession (s : State) : State :=
  { State.reset with input := s.input, draws := s.draws }

/-- What a command's pseudocode leaves: its last state, or the state after fault entry, or the machine's stop. -/
def Result.finish (r : Result Unit) : Host.Outcome State Fault Refusal :=
  match r with
  | .ok _ s => .next s
  | .raised c s => .next (s.enterFault c)
  | .stop f => .fault f

/-! ### The checks every command makes first -/

/-- In which phases a command is legal (R80). The phase `FAULT` is not asked here: see `command`. -/
def legalIn : Opcode → Phase → Bool
  | .nop, _ => true
  | .rst, _ => true
  | .cfg, p => p = .idle
  | .ent, p => p = .load
  | .cwb, p => p = .load
  | .bld, p => p = .load
  | .dat, p => p = .run
  | .endBody, p => p = .run

/-- R74 from the reserved-bit test on, for a command whose pseudocode is `body`: ignored in phase `FAULT` unless
it is `RST` (R81); else a reserved operand bit that is 1 raises 0x31, an illegal phase raises 0x32, and only then
is the pseudocode executed (R245). -/
def command (op : Opcode) (arg : Byte) (body : State → Result Unit) (s : State) :
    Host.Outcome State Fault Refusal :=
  if s.phase = .fault ∧ op ≠ .rst then .next s
  else if op.reservedClear arg = false then .next (s.enterFault .icReservedBits)
  else if legalIn op s.phase = false then .next (s.enterFault .icWrongPhase)
  else (body s).finish

end Sys2Proof.Machine
end

