-- ==== Sys2Proof/Machine/Operands.lean ====
section
/-! DEFINITION. Operand forms and fields (spec/30_encoding.md R72; spec/10_state.md R24 to R28), the value of a bit
sequence (spec/00_scope.md R13), and the bits of a body byte (spec/20_memory.md R57, R58). -/

namespace Sys2Proof

/-- `CT[i].len` (R27). -/
def CodeEntry.len (e : CodeEntry) : Nat := e.code.length

namespace Machine

/-- `arg[1:0]`: the `mode` operand of `CFG` (R72, R103). -/
def argMode (arg : Byte) : BitVec 2 := arg.extractLsb' 0 2

/-- `arg[0]`: the `bit` operand of `CWB` (R72, R112). -/
def argBit (arg : Byte) : Bool := arg.getLsbD 0

/-- `MODE.KIND`, bit 0 (R24). -/
def State.kind (s : State) : Kind := if s.mode.getLsbD 0 then .fixedCode else .prefixCode

/-- `MODE.FMT`, bit 1 (R24). -/
def State.fmt (s : State) : Fmt := if s.mode.getLsbD 1 then .binary else .text

/-- `val(c)` of a bit sequence: the first bit is the most significant (R13, R59, R87). -/
def bitsVal (c : Bits) : Nat := c.foldl (fun v b => 2 * v + b.toNat) 0

/-- `B[7−pos : 8−pos−t]`: the `t` bits of `B` that follow the first `pos`, as a number (R12, R57, R181). -/
def bitField (B : Byte) (pos t : Nat) : Byte := BitVec.ofNat 8 ((B.toNat >>> (8 - pos - t)) % 2 ^ t)

/-- The `u` usable bits of `B`: `B[7]`, `B[6]`, …, `B[8−u]`, in that order (R57, R58, R147). -/
def usableBits (B : Byte) (u : Nat) : Bits := (List.range u).map fun i => B.getLsbD (7 - i)

/-- The bit a text byte stands for: `'0'` is 0x30, `'1'` is 0x31, every other byte is none (R61, R142). -/
def textBit (c : Byte) : Option Bool :=
  if c = 0x30 then some false else if c = 0x31 then some true else none

end Machine

/-- The child of a node for a bit: bit 0 → `c0`, bit 1 → `c1`, none where it does not exist (R28, R171). -/
def TrieNode.child (n : TrieNode) (b : Bool) : Option (BitVec 16) :=
  if b then (if n.c1v then some n.c1 else none) else (if n.c0v then some n.c0 else none)

end Sys2Proof
end

