-- ==== Sys2Proof/Machine/Flags.lean ====
section
/-! DEFINITION. The block's two flags, `PVALID` and `HOLDV` (spec/10_state.md R33, R35, R38), with the registers
they guard, and the two end-of-stream tests (spec/42_body_stream.md R151). The block has no other flags and no
condition codes (R38). -/

namespace Sys2Proof.Machine

/-- `P <- v[2:0]; PVALID <- 1` (R144). -/
def State.setPadding (v : Byte) (s : State) : State := { s with p := v.extractLsb' 0 3, pvalid := true }

/-- `HOLD <- byte; HOLDV <- 1` (R145, R146). -/
def State.holdByte (byte : Byte) (s : State) : State := { s with hold := byte, holdv := true }

/-- `HOLDV <- 0` (R149). -/
def State.releaseHold (s : State) : State := { s with holdv := false }

/-- The fault the end checks of R149 and R151 raise, if any: `CURSOR ≠ 0` for a prefix code, `CCNT ≠ 0` (the
count, not the value) for a fixed-width code. -/
def State.endCheck (s : State) : Option Cause :=
  match s.kind with
  | .prefixCode => if s.cursor ≠ 0 then some .csMidCodeword else none
  | .fixedCode => if s.ccnt ≠ 0 then some .csPartialCode else none

end Sys2Proof.Machine
end

