-- ==== Sys2Proof/Machine/Fixed.lean ====
section
/-! DEFINITION. The fixed-width demultiplexer (spec/44_fixed_demux.md R180 to R183): `LOOKUP`, `FSTEP`, `FBYTE` and
the carry register. -/

namespace Sys2Proof.Machine

/-- `LOOKUP(v)` (R183): emit the symbol of the codeword value, or 0x22 where none has it. -/
def lookupSymbol (v : Byte) (s : State) : Result Unit :=
  (Result.ofExcept (Memory.read demuxSpace s.demux v.toNat) s).bind fun d s =>
    if d.valid then .ok () (s.emit d.sym) else .raised .csUnmapped s

/-- `if CCNT = L: v <- CARRY; CARRY <- 0; CCNT <- 0; LOOKUP(v)` (R181, R182): a completed codeword leaves the
carry before it is looked up. -/
def completeCarry (s : State) : Result Unit :=
  if s.ccnt = s.l then lookupSymbol s.carry { s with carry := 0, ccnt := 0 } else .ok () s

/-- `FSTEP(b)` (R182): one bit into the carry register. -/
def fstep (b : Bool) (s : State) : Result Unit :=
  completeCarry { s with carry := (s.carry <<< 1) ||| BitVec.ofNat 8 b.toNat, ccnt := s.ccnt + 1 }

/-- The loop of `FBYTE(B, u)` from position `pos` on (R181), for at most `fuel` turns: every turn takes at least
one bit, so `u` turns are enough (R185). -/
def fbyteLoop (B : Byte) (u : Nat) : Nat → Nat → State → Result Unit
  | fuel, pos, s =>
    if pos < u then
      match fuel with
      | 0 => .stop .endlessLoop
      | fuel + 1 =>
        let avail := u - pos
        if s.ccnt ≠ 0 then
          let t := min (s.l.toNat - s.ccnt.toNat) avail
          (completeCarry { s with carry := (s.carry <<< t) ||| bitField B pos t,
                                  ccnt := s.ccnt + BitVec.ofNat 4 t }).bind fun _ s =>
            fbyteLoop B u fuel (pos + t) s
        else if s.l.toNat ≤ avail then
          (lookupSymbol (bitField B pos s.l.toNat) s).bind fun _ s' =>
            fbyteLoop B u fuel (pos + s.l.toNat) s'
        else .ok () { s with carry := bitField B pos avail, ccnt := BitVec.ofNat 4 avail }
    else .ok () s

/-- `FBYTE(B, u)` (R181): the usable bits of one data byte, cut into codewords of `L` bits. -/
def fbyte (B : Byte) (u : Nat) (s : State) : Result Unit := fbyteLoop B u u 0 s

end Sys2Proof.Machine
end

