-- ==== Sys2Proof/Machine/Prefix.lean ====
section
/-! DEFINITION. The prefix walker (spec/43_prefix_walk.md R170 to R173): one bit through the trie. -/

namespace Sys2Proof.Machine

/-- `PSTEP(b)` (R171): the child for the bit, or 0x21 where it does not exist; a leaf emits its symbol and sends
the cursor back to the root. -/
def pstep (b : Bool) (s : State) : Result Unit :=
  (Result.ofExcept (Memory.read nodeSpace s.node s.cursor.toNat) s).bind fun n s =>
    match n.child b with
    | none => .raised .csDeadEnd s
    | some t =>
      (Result.ofExcept (Memory.read nodeSpace s.node t.toNat) s).bind fun target s =>
        if target.leaf then .ok () { s.emit target.sym with cursor := 0 }
        else .ok () { s with cursor := t }

end Sys2Proof.Machine
end

