-- ==== Sys2Proof/Machine/Body.lean ====
section
/-! DEFINITION. The body-stream commands `DAT` and `END` (spec/42_body_stream.md R140 to R151). -/

namespace Sys2Proof.Machine

/-- `BIT(b)` (R143): one bit to the decoder of the current kind. -/
def bitStep (b : Bool) (s : State) : Result Unit :=
  match s.kind with
  | .prefixCode => pstep b s
  | .fixedCode => fstep b s

/-- `BYTE(B, u)` (R147): decode the `u` usable bits of a data byte. -/
def byteStep (B : Byte) (u : Nat) (s : State) : Result Unit :=
  match s.kind with
  | .prefixCode => forEach pstep (usableBits B u) s
  | .fixedCode => fbyte B u s

/-- `text_byte(c)` (R142): a byte that is no bit character changes nothing. -/
def textByte (c : Byte) (s : State) : Result Unit :=
  match textBit c with
  | some b => bitStep b s
  | none => .ok () s

/-- `padding_byte(v)` (R144). -/
def paddingByte (v : Byte) (s : State) : Result Unit :=
  if v.toNat > Config.padMax then .raised .csBadPadding s else .ok () (s.setPadding v)

/-- The pseudocode of `DAT` (R141, R145, R146): in `BINARY` format the byte decoded is the held one, with 8
usable bits. -/
def datBody (arg : Byte) (s : State) : Result Unit :=
  match s.fmt with
  | .text => textByte arg s
  | .binary =>
    if s.pvalid = false then paddingByte arg s
    else if s.holdv = false then .ok () (s.holdByte arg)
    else (byteStep s.hold 8 s).bind fun _ s => .ok () (s.holdByte arg)

/-- `DAT byte` (R141). -/
def execDat (arg : Byte) (s : State) : Host.Outcome State Fault Refusal :=
  command .dat arg (datBody arg) s

/-- The part of `END` before the end checks (R149): in `BINARY` format the held byte is the last one, with
`8 − P` usable bits (R148), and a body without data has no room for filler (R150). -/
def lastByte (s : State) : Result Unit :=
  match s.fmt with
  | .text => .ok () s
  | .binary =>
    if s.pvalid = false then .raised .csNoPaddingByte s
    else if s.holdv = false then
      (if s.p ≠ 0 then .raised .csPaddingNoData s else .ok () s)
    else (byteStep s.hold (8 - s.p.toNat) s).bind fun _ s => .ok () s.releaseHold

/-- The pseudocode of `END` (R149). -/
def endBodyBody (s : State) : Result Unit :=
  (lastByte s).bind fun _ s =>
    match s.endCheck with
    | some c => .raised c s
    | none => .ok () { s with phase := .done }

/-- `END` (R149). -/
def execEndBody (s : State) : Host.Outcome State Fault Refusal :=
  command .endBody 0 endBodyBody s

end Sys2Proof.Machine
end

