-- ==== Sys2Proof/Machine/Control.lean ====
section
/-! DEFINITION. The control commands `NOP`, `RST` and `CFG` (spec/40_control.md R101 to R103). -/

namespace Sys2Proof.Machine

/-- `NOP` (R101): no effect. -/
def execNop (s : State) : Host.Outcome State Fault Refusal :=
  command .nop 0 (fun s => .ok () s) s

/-- `RST` (R102): every piece of state takes its reset value, in every phase. -/
def execRst (s : State) : Host.Outcome State Fault Refusal :=
  command .rst 0 (fun s => .ok () s.resetSession) s

/-- `CFG kind, fmt` (R103): `MODE <- arg[1:0]; PHASE <- LOAD`. -/
def execCfg (arg : Byte) (s : State) : Host.Outcome State Fault Refusal :=
  command .cfg arg (fun s => .ok () { s with mode := argMode arg, phase := .load }) s

end Sys2Proof.Machine
end

