-- ==== Sys2Proof/Machine/Table.lean ====
section
/-! DEFINITION. The table commands `ENT`, `CWB` and `BLD` (spec/41_table_build.md R110 to R123): loading the code
table, validating it, and building the trie or the code→symbol array. -/

namespace Sys2Proof.Machine

/-! ### Writing one element -/

/-- `CT[i] <- e` (R27). -/
def writeCT (i : Nat) (e : CodeEntry) (s : State) : Result Unit :=
  match Memory.write ctSpace s.ct i e with
  | .ok m => .ok () { s with ct := m }
  | .error f => .stop f

/-- `NODE[k] <- n` (R28). -/
def writeNode (k : BitVec 16) (n : TrieNode) (s : State) : Result Unit :=
  match Memory.write nodeSpace s.node k.toNat n with
  | .ok m => .ok () { s with node := m }
  | .error f => .stop f

/-- `DEMUX[v] <- d` (R32). -/
def writeDemux (v : Nat) (d : DemuxElem) (s : State) : Result Unit :=
  match Memory.write demuxSpace s.demux v d with
  | .ok m => .ok () { s with demux := m }
  | .error f => .stop f

/-! ### ENT and CWB -/

/-- The pseudocode of `ENT` (R111). -/
def entBody (arg : Byte) (s : State) : Result Unit :=
  if s.nent.toNat = Config.nentMax then .raised .mhTableFull s
  else (writeCT s.nent.toNat ⟨arg, []⟩ s).bind fun _ s => .ok () { s with nent := s.nent + 1 }

/-- `ENT sym` (R111). -/
def execEnt (arg : Byte) (s : State) : Host.Outcome State Fault Refusal :=
  command .ent arg (entBody arg) s

/-- The pseudocode of `CWB` (R112). -/
def cwbBody (arg : Byte) (s : State) : Result Unit :=
  if s.nent = 0 then .raised .icNoOpenEntry s
  else
    (Result.ofExcept (Memory.read ctSpace s.ct (s.nent.toNat - 1)) s).bind fun e s =>
      if e.len = Config.cwMax then .raised .mhCodeTooLong s
      else writeCT (s.nent.toNat - 1) ⟨e.sym, e.code ++ [argBit arg]⟩ s

/-- `CWB bit` (R112). -/
def execCwb (arg : Byte) (s : State) : Host.Outcome State Fault Refusal :=
  command .cwb arg (cwbBody arg) s

/-! ### Validation -/

/-- `CT[i], …, CT[i+n−1]`, in order. -/
def readEntries (ct : List (Nat × CodeEntry)) : Nat → Nat → Except Fault (List CodeEntry)
  | _, 0 => .ok []
  | i, n + 1 =>
    match Memory.read ctSpace ct i with
    | .error f => .error f
    | .ok e =>
      match readEntries ct (i + 1) n with
      | .error f => .error f
      | .ok es => .ok (e :: es)

/-- The code table `CT[0..NENT)` (R110). -/
def State.table (s : State) : Except Fault (List CodeEntry) := readEntries s.ct 0 s.nent.toNat

/-- Common validation (R114): the fault it raises, if any. -/
def validateCommon (table : List CodeEntry) : Option Cause :=
  if table = [] then some .mhEmptyTable
  else if table.any (fun e => e.len = 0) then some .mhNoCodeword
  else none

/-- Fixed-width validation (R115): the fault it raises, or the common length. -/
def fixedLength (table : List CodeEntry) : Except Cause Nat :=
  match table with
  | [] => .error .mhEmptyTable
  | e :: rest =>
    if rest.any (fun e' => e'.len ≠ e.len) then .error .mhLenMismatch
    else if e.len > Config.lfixMax then .error .mhFixedTooWide
    else .ok e.len

/-! ### The trie -/

/-- The order of R116: shorter codewords first, among one length the smaller value first. -/
def sortsBefore (a b : CodeEntry) : Bool :=
  a.len < b.len || (a.len = b.len && bitsVal a.code < bitsVal b.code)

/-- Insert an entry before the first entry that does not sort before it. -/
def insertEntry (e : CodeEntry) : List CodeEntry → List CodeEntry
  | [] => [e]
  | x :: rest => if sortsBefore x e then x :: insertEntry e rest else e :: x :: rest

/-- `sorted_indices()` (R116): the entries sorted, stably. The list holds the entries themselves in place of
their indices. -/
def sortEntries (table : List CodeEntry) : List CodeEntry := table.foldr insertEntry []

/-- The largest codeword length of a list of entries. -/
def maxLen (list : List CodeEntry) : Nat := list.foldr (fun e m => max e.len m) 0

/-- The entries whose codeword has the bit `b` at `depth`, order kept: `Z` for 0, `O` for 1 (R118). -/
def withBitAt (b : Bool) (depth : Nat) (list : List CodeEntry) : List CodeEntry :=
  list.filter fun e => e.code[depth]? = some b

/-- `build(list, depth)` (R118), which answers the index of the node it allocates. The recursion ends because
`depth` grows and no entry survives past its own length: `fuel` counts the levels left, and `BLD` gives one more
than the longest codeword has bits, so that the first arm is never reached
(`Sys2Proof.Laws.build_fuel_irrelevant`). -/
def build : Nat → List CodeEntry → Nat → State → Result (BitVec 16)
  | 0, _, _, _ => .stop .endlessLoop
  | fuel + 1, list, depth, s =>
    let k := s.nnode.setWidth 16
    let s := { s with nnode := s.nnode + 1 }
    if list.length = 1 ∧ list.all (fun e => e.len = depth) then
      (writeNode k ⟨true, (list.headD default).sym, false, 0, false, 0⟩ s).bind fun _ s => .ok k s
    else if list.any (fun e => e.len ≤ depth) then .raised .mhNotPrefixFree s
    else
      (buildChild (build fuel) (withBitAt false depth list) (depth + 1) s).bind fun c0 s =>
      (buildChild (build fuel) (withBitAt true depth list) (depth + 1) s).bind fun c1 s =>
      (writeNode k ⟨false, 0, c0.isSome, c0.getD 0, c1.isSome, c1.getD 0⟩ s).bind fun _ s => .ok k s
where
  /-- A child of the node, where the list for it is not empty (R118). -/
  buildChild (rec : List CodeEntry → Nat → State → Result (BitVec 16)) (list : List CodeEntry)
      (depth : Nat) (s : State) : Result (Option (BitVec 16)) :=
    if list = [] then .ok none s else (rec list depth s).bind fun k s => .ok (some k) s

/-- The trie of the table: `NNODE <- 0; build(S, 0)` (R113, R118). -/
def buildTrie (table : List CodeEntry) (s : State) : Result Unit :=
  (build (maxLen table + 1) (sortEntries table) 0 { s with nnode := 0 }).bind fun _ s => .ok () s

/-! ### The code→symbol array -/

/-- One turn of the loop of R121. -/
def demuxEntry (e : CodeEntry) (s : State) : Result Unit :=
  (Result.ofExcept (Memory.read demuxSpace s.demux (bitsVal e.code)) s).bind fun d s =>
    if d.valid then .raised .mhDupCode s
    else writeDemux (bitsVal e.code) ⟨true, e.sym⟩ s

/-- Fixed-width validation, then the array (R115, R121). -/
def buildDemux (table : List CodeEntry) (s : State) : Result Unit :=
  match fixedLength table with
  | .error c => .raised c s
  | .ok len => forEach demuxEntry table { s with l := BitVec.ofNat 4 len }

/-! ### BLD -/

/-- The pseudocode of `BLD` (R113). -/
def bldBody (s : State) : Result Unit :=
  (Result.ofExcept s.table s).bind fun table s =>
    match validateCommon table with
    | some c => .raised c s
    | none =>
      (match s.kind with
       | .fixedCode => buildDemux table s
       | .prefixCode => buildTrie table s).bind fun _ s =>
        .ok () { s with cursor := 0, carry := 0, ccnt := 0, phase := .run }

/-- `BLD` (R113). -/
def execBld (s : State) : Host.Outcome State Fault Refusal :=
  command .bld 0 bldBody s

end Sys2Proof.Machine
end

