-- ==== Sys2Proof/Machine/Dispatch.lean ====
section
/-! DEFINITION. One arm per constructor of Instr. -/

namespace Sys2Proof.Machine

def exec (i : Instr) (s : State) : Host.Outcome State Fault Refusal :=
  match i with
  | .nop => Sys2Proof.Machine.execNop s
  | .rst => Sys2Proof.Machine.execRst s
  | .cfg arg => Sys2Proof.Machine.execCfg arg s
  | .ent arg => Sys2Proof.Machine.execEnt arg s
  | .cwb arg => Sys2Proof.Machine.execCwb arg s
  | .bld => Sys2Proof.Machine.execBld s
  | .dat arg => Sys2Proof.Machine.execDat arg s
  | .endBody => Sys2Proof.Machine.execEndBody s

end Sys2Proof.Machine
end

