-- ==== Sys2Proof/Machine/Fetch.lean ====
section
/-! DEFINITION. Taking the next command word from the command channel (spec/20_memory.md R51), a word that spells
no command (spec/30_encoding.md R74 to R76, R81), and the hardware reset (spec/70_reset_and_hazards.md R270). -/

namespace Sys2Proof.Machine

/-- The cause of a word that spells no command (R74). -/
def decodeCause : DecodeError → Cause
  | .undefinedOpcode => .icUndefinedOpcode
  | .reservedBits => .icReservedBits

/-- A word that spells no command: ignored in phase `FAULT` (R81), a fault in every other phase (R75, R76). -/
def rejectWord (e : DecodeError) (s : State) : State :=
  if s.phase = .fault then s else s.enterFault (decodeCause e)

/-- Decoding and executing one accepted command word (R74). -/
def runWord (w : Word) (s : State) : Host.Outcome State Fault Refusal :=
  match decode w with
  | .ok i => exec i s
  | .error e => .next (rejectWord e s)

/-- The state without the oldest thing the host has presented. -/
def State.dropInput (s : State) : State := { s with input := s.input.tail }

/-- The state with a command word presented, so that the block takes it next. -/
def State.present (w : Word) (s : State) : State := { s with input := .word w :: s.input }

/-- One step: with nothing presented the block waits with all state kept (spec/60_exceptions.md R255); a command
word is accepted and executed whole (R51); a hardware reset resets (R270). -/
def stepOnce (s : State) : Host.Outcome State Fault Refusal :=
  match s.input with
  | [] => .next s
  | .hardReset :: _ => .next s.dropInput.resetSession
  | .word w :: _ => runWord w s.dropInput

end Sys2Proof.Machine
end

