-- ==== Sys2Proof/Machine/Step.lean ====
section
/-! DEFINITION. The step, and a command word placed where the step takes its next one. -/

namespace Sys2Proof.Machine

/-- One step of the block. -/
def step (s : State) : Host.Outcome State Fault Refusal := stepOnce s

/-- The state with the instruction whose bits are `w`, numbered as spec/opcode_table.json numbers them, presented
on the command port, so that the very next step runs it. A command is one 16-bit word (R71). -/
def State.withFetchWord (s : State) (nbits w : Nat) : State := s.present (BitVec.ofNat 16 (w % 2 ^ nbits))

end Sys2Proof.Machine
end

