-- ==== Sys2Proof/Machine/Ports.lean ====
section
/-! DEFINITION. What the host sees of the block between two commands (spec/20_memory.md R51, R53, R54;
spec/10_state.md R23, R25, R47): the status ports, `cmd_ready`, the symbols a step transfers, and the observation
of a session (spec/00_scope.md R17). -/

namespace Sys2Proof.Machine

/-- The 3-bit encoding of `PHASE` (R23). -/
def Phase.code : Phase → BitVec 3
  | .idle => 0
  | .load => 1
  | .run => 2
  | .done => 3
  | .fault => 4

/-- The `phase` port (R53). -/
def State.phasePort (s : State) : BitVec 3 := s.phase.code

/-- The `cause` port (R53). -/
def State.causePort (s : State) : BitVec 8 := s.cause

/-- The `cmd_ready` port between two commands (R51, R255). -/
def State.cmdReady (_ : State) : Bool := true

/-- The error kind in `CAUSE[7:4]` (R25, R241). -/
inductive ErrorKind
  | none | malformedHeader | corruptStream | illegalCommand
deriving DecidableEq, Repr

/-- The kind a value of `CAUSE[7:4]` stands for (R241); the other values are never taken. -/
def causeKind (cause : BitVec 8) : Option ErrorKind :=
  match (cause.extractLsb' 4 4).toNat with
  | 0 => some .none
  | 1 => some .malformedHeader
  | 2 => some .corruptStream
  | 3 => some .illegalCommand
  | _ => Option.none

/-- The observable triple of a session (R17): the symbols emitted, the phase and the cause. -/
structure Observation where
  out   : List Sym
  phase : Phase
  cause : BitVec 8
deriving DecidableEq, Repr

/-- What the host can observe; no other state is visible (R17, R47). -/
def State.observe (s : State) : Observation := ⟨s.out, s.phase, s.cause⟩

/-- The symbols that left on the symbol port between two states of one session (R54). -/
def transferred (s t : State) : List Sym := t.out.drop s.out.length

end Sys2Proof.Machine
end

