-- ==== Sys2Proof/Machine/Session.lean ====
section
/-! DEFINITION. A session as a function of its bit stream (spec/42_body_stream.md R152, R153), and the abstract trie
of a code table (spec/10_state.md R30). These say what the commands add up to; no command calls them. -/

namespace Sys2Proof.Machine

/-- The two values of the abstract trie (R30). -/
inductive TrieView
  | internal
  | leaf (sym : Sym)
deriving DecidableEq, Repr

/-- The abstract trie `T` of a code table (R30): a leaf at the end of a codeword, internal at a proper prefix of
one, undefined elsewhere. -/
def trieView (table : List CodeEntry) (path : Bits) : Option TrieView :=
  match table.find? (fun e => e.code = path) with
  | some e => some (.leaf e.sym)
  | none => if table.any (fun e => path.isPrefixOf e.code) then some .internal else none

/-- The node that the bits of a path lead to from node `k`, over the child links (`path` of R29, read from the root
down). -/
def walkTrie (node : List (Nat × TrieNode)) : Nat → Bits → Option Nat
  | k, [] => some k
  | k, b :: rest =>
    match Memory.read nodeSpace node k with
    | .error _ => none
    | .ok n =>
      match n.child b with
      | none => none
      | some t => walkTrie node t.toNat rest

/-- What the trie in `NODE` holds at a path, in the terms of R30. -/
def nodeView (node : List (Nat × TrieNode)) (path : Bits) : Option TrieView :=
  match walkTrie node 0 path with
  | none => none
  | some k =>
    match Memory.read nodeSpace node k with
    | .error _ => none
    | .ok n => some (if n.leaf then .leaf n.sym else .internal)

/-- What decoding a bit stream gives: the symbols up to its end or to the fault, and the fault, if any. -/
structure Decoded where
  out   : List Sym
  fault : Option Cause
deriving DecidableEq, Repr

/-- What consuming some bits gives: the bits of the unfinished codeword, the symbols emitted, and the fault, if
any. -/
structure Consumed where
  rest  : Bits
  out   : List Sym
  fault : Option Cause
deriving DecidableEq, Repr

/-- The loop of `decode_prefix` (R153), from the path `path` and the symbols `out`. -/
def walkBits (table : List CodeEntry) : Bits → List Sym → Bits → Consumed
  | path, out, [] => ⟨path, out, none⟩
  | path, out, b :: bits =>
    match trieView table (path ++ [b]) with
    | none => ⟨path, out, some .csDeadEnd⟩
    | some (.leaf sym) => walkBits table [] (out ++ [sym]) bits
    | some .internal => walkBits table (path ++ [b]) out bits

/-- `decode_prefix(bits)` (R153). -/
def decodePrefix (table : List CodeEntry) (bits : Bits) : Decoded :=
  let w := walkBits table [] [] bits
  match w.fault with
  | some c => ⟨w.out, some c⟩
  | none => ⟨w.out, if w.rest = [] then none else some .csMidCodeword⟩

/-- The symbol the code→symbol array of a table holds for a codeword value (R32). -/
def fixedSymbol (table : List CodeEntry) (v : Nat) : Option Sym :=
  (table.find? fun e => bitsVal e.code = v).map CodeEntry.sym

/-- The loop of `decode_fixed` over the whole groups (R153). -/
def decodeGroups (table : List CodeEntry) : List Sym → List Bits → Decoded
  | out, [] => ⟨out, none⟩
  | out, g :: groups =>
    match fixedSymbol table (bitsVal g) with
    | none => ⟨out, some .csUnmapped⟩
    | some sym => decodeGroups table (out ++ [sym]) groups

/-- The whole `len`-bit groups of a bit stream, `bits[gL .. gL + L)` (R153). -/
def wholeGroups (len : Nat) (bits : Bits) : List Bits :=
  (List.range (bits.length / len)).map fun g => (bits.drop (g * len)).take len

/-- `decode_fixed(bits)` (R153). -/
def decodeFixed (table : List CodeEntry) (len : Nat) (bits : Bits) : Decoded :=
  let r := decodeGroups table [] (wholeGroups len bits)
  if r.fault = none ∧ bits.length % len ≠ 0 then ⟨r.out, some .csPartialCode⟩ else r

/-- The same stream taken bit by bit into a carry of the bits `pending` (R182, R183): a codeword is looked up by the
bit that completes it. -/
def cutBits (table : List CodeEntry) (len : Nat) : Bits → List Sym → Bits → Consumed
  | pending, out, [] => ⟨pending, out, none⟩
  | pending, out, b :: bits =>
    if (pending ++ [b]).length = len then
      match fixedSymbol table (bitsVal (pending ++ [b])) with
      | none => ⟨[], out, some .csUnmapped⟩
      | some sym => cutBits table len [] (out ++ [sym]) bits
    else cutBits table len (pending ++ [b]) out bits

/-- The bits of a text body (R152). -/
def textBits (body : List Byte) : Bits := body.filterMap textBit

/-- The bits of the data bytes of a binary body with padding count `pad` (R152). -/
def dataBits (pad : Nat) : List Byte → Bits
  | [] => []
  | [b] => usableBits b (8 - pad)
  | b :: rest => usableBits b 8 ++ dataBits pad rest

/-- The result of a whole body, given what its bit stream decodes to (R152; R144 and R150 for the binary bodies
that have no bit stream). -/
def decodeBody (fmt : Fmt) (decodeBits : Bits → Decoded) (body : List Byte) : Decoded :=
  match fmt, body with
  | .text, body => decodeBits (textBits body)
  | .binary, [] => ⟨[], some .csNoPaddingByte⟩
  | .binary, pad :: data =>
    if pad.toNat > Config.padMax then ⟨[], some .csBadPadding⟩
    else if data = [] then (if pad = 0 then decodeBits [] else ⟨[], some .csPaddingNoData⟩)
    else decodeBits (dataBits pad.toNat data)

/-- The bits that a `DAT` feeds to the decoder (R142, R144 to R147). -/
def datBits (s : State) (arg : Byte) : Bits :=
  match s.fmt with
  | .text => (textBit arg).toList
  | .binary => if s.pvalid && s.holdv then usableBits s.hold 8 else []

/-- The bits that `END` feeds to the decoder (R148, R149). -/
def endBits (s : State) : Bits :=
  match s.fmt with
  | .text => []
  | .binary => if s.pvalid && s.holdv then usableBits s.hold (8 - s.p.toNat) else []

/-- What a `DAT` does to the padding and lookahead registers (R142, R144 to R146). -/
def afterDat (arg : Byte) (s : State) : State :=
  match s.fmt with
  | .text => s
  | .binary => if s.pvalid then s.holdByte arg else s.setPadding arg

/-- The phase and cause a session ends in (R153, R246). -/
def Decoded.observation (d : Decoded) : Observation :=
  match d.fault with
  | none => ⟨d.out, .done, 0⟩
  | some c => ⟨d.out, .fault, c.code⟩

/-- `KIND` as a mode bit (R24). -/
def Kind.bit : Kind → Bool
  | .prefixCode => false
  | .fixedCode => true

/-- `FMT` as a mode bit (R24). -/
def Fmt.bit : Fmt → Bool
  | .text => false
  | .binary => true

/-- `CFG kind, fmt` (R88): `0x0200 + KIND + 2·FMT`. -/
def cfgOf (kind : Kind) (fmt : Fmt) : Instr :=
  .cfg (BitVec.ofNat 8 (kind.bit.toNat + 2 * fmt.bit.toNat))

/-- The pseudo-instruction `CODE sym, "bits"` (R89). -/
def codeCommands (e : CodeEntry) : List Instr :=
  .ent e.sym :: e.code.map fun b => .cwb (BitVec.ofNat 8 b.toNat)

/-- The pseudo-instruction `BODY b0, b1, …` (R89); `TEXT` is the same with the characters' bytes. -/
def bodyCommands (body : List Byte) : List Instr := body.map Instr.dat

/-- The expansion of the pseudo-instruction `HEADER` (R89): one `CODE` per entry, in order, and nothing else. -/
def entryCommands (table : List CodeEntry) : List Instr := table.flatMap codeCommands

/-- A whole session (R273, R220, R221): reset, mode, table, build, body, end. -/
def sessionCommands (kind : Kind) (fmt : Fmt) (table : List CodeEntry) (body : List Byte) : List Instr :=
  .rst :: cfgOf kind fmt :: (entryCommands table ++ .bld :: (bodyCommands body ++ [.endBody]))

/-- The host presents commands, in order (R51). -/
def presented (commands : List Instr) : List HostInput := commands.map fun i => .word (encode i)

/-- The commands executed one after another, up to the machine's stop. -/
def runCommands (commands : List Instr) (s : State) : Host.Outcome State Fault Refusal :=
  match commands with
  | [] => .next s
  | i :: rest =>
    match exec i s with
    | .next t => runCommands rest t
    | .fault f => .fault f
    | .refused r => .refused r

/-- What the host can observe of an answer. -/
def observed (o : Host.Outcome State Fault Refusal) : Option Observation :=
  match o with
  | .next t => some t.observe
  | .fault _ => none
  | .refused _ => none

end Sys2Proof.Machine
end

