-- ==== Sys2Proof/Machine/Producer.lean ====
section
/-! DEFINITION. The host-side reference (spec/48_host_reference.md R200 to R215): the frequency table, the Fano code
builder, the fixed-width code builder and the bit packer. None of it is in the block (spec/00_scope.md R5); it
defines the tables and bodies the block is fed. -/

namespace Sys2Proof.Machine

/-- The kinds of error a call of the host software ends with (R222), the kinds of the block's faults among them
(R241): the host maps `CAUSE[7:4]` to one of them. -/
inductive HostError
  /-- "zero total symbols at encode time" (R201). -/
  | emptyInput
  /-- "symbol with no entry in the table" (R214). -/
  | encodingError
  /-- A header token that matches no case (R218). -/
  | invalidToken
  /-- A header that cannot be split into its fields, or whose count is wrong (R219, R220), and the block's kind 1. -/
  | malformedHeader
  /-- The block's kind 2 (R241). -/
  | corruptStream
  /-- The block's kind 3 (R241), which a call never meets: it sends its commands in the order of R273. -/
  | illegalCommand
  /-- "oversized rank" (R207). -/
  | constructionFault
  /-- Raised by nothing in the model: files are out of scope (spec/00_scope.md R6, R8). -/
  | ioError
deriving DecidableEq, Repr

/-! ### Frequency table and probability list -/

/-- The two outputs of the FrequencyTable (R201). -/
structure FrequencyTable where
  /-- The count of each of the 256 symbol values, by value. -/
  counts : List Nat
  /-- The total byte count; 0 is a valid outcome, and signals an empty input to the caller. -/
  total  : Nat
deriving DecidableEq, Repr

/-- The frequency table of an input (R201); it throws nothing. -/
def frequencyTable (input : List Byte) : FrequencyTable where
  counts := (List.range 256).map fun v => input.countP fun b => b.toNat = v
  total  := input.length

/-- One entry of the probability list (R202): the probability is `count/total`, kept as the count (the total is
common, and sums are compared exactly). -/
structure ProbEntry where
  sym   : Sym
  count : Nat
deriving DecidableEq, Repr, Inhabited

/-- The symbols with a count above 0, in ascending symbol value (R201, R202, R210). -/
def presentSymbols (input : List Byte) : List ProbEntry :=
  ((frequencyTable input).counts.zipIdx.filter fun c => c.1 > 0).map fun c => ⟨BitVec.ofNat 8 c.2, c.1⟩

/-- Insert an entry before the first one whose probability is not larger. -/
def insertProb (e : ProbEntry) : List ProbEntry → List ProbEntry
  | [] => [e]
  | x :: rest => if x.count > e.count then x :: insertProb e rest else e :: x :: rest

/-- The probability list: sorted descending by probability, stably (R202). -/
def probabilityList (input : List Byte) : List ProbEntry := (presentSymbols input).foldr insertProb []

/-! ### The Fano code builder -/

/-- The sum of the counts of a range. -/
def countSum (range : List ProbEntry) : Nat := (range.map ProbEntry.count).sum

/-- `| a − b |` on natural numbers. -/
def absDiff (a b : Nat) : Nat := (a - b) + (b - a)

/-- The one-directional scan of R205 with `left` and `right` the two sums at the present split and the list the
entries right of it: how many positions the split moves on. -/
def splitScan : Nat → Nat → List ProbEntry → Nat
  | left, right, e :: next :: rest =>
    if absDiff (left + e.count) (right - e.count) < absDiff left right then
      splitScan (left + e.count) (right - e.count) (next :: rest) + 1
    else 0
  | _, _, _ => 0

/-- The size of the left part of a range of two or more entries (R205): `med − beg`. -/
def splitSize (range : List ProbEntry) : Nat :=
  splitScan (countSum (range.take 1)) (countSum (range.drop 1)) (range.drop 1) + 1

/-- `assign(entries, depth)` (R203, R206) with `code` the codeword accumulated so far. Both parts of a split are
non-empty and shorter than the range, so the range's length is fuel enough. -/
def fanoAssign : Nat → List ProbEntry → Bits → List CodeEntry
  | _, [], _ => []
  | _, [e], code => [⟨e.sym, code⟩]
  | 0, _, _ => []
  | fuel + 1, range, code =>
    fanoAssign fuel (range.take (splitSize range)) (code ++ [false]) ++
    fanoAssign fuel (range.drop (splitSize range)) (code ++ [true])

/-- The code of a probability list (R203, R204): a single symbol gets the codeword `"0"`. -/
def fanoCode (list : List ProbEntry) : List CodeEntry :=
  match list with
  | [e] => [⟨e.sym, [false]⟩]
  | _ => fanoAssign list.length list []

/-! ### The fixed-width code builder -/

/-- `ceil(log2(n))` for `1 ≤ n ≤ 256`: the least `k` with `n ≤ 2^k` (R209). -/
def ceilLog2 (n : Nat) : Nat := ((List.range 9).find? fun k => n ≤ 2 ^ k).getD 9

/-- `L = max(1, ceil(log2(N)))` (R209). -/
def fixedLen (n : Nat) : Nat := max 1 (ceilLog2 n)

/-- The binary representation of `v`, zero-padded to `len` bits, most significant first (R59, R210). -/
def bitsOf : Nat → Nat → Bits
  | 0, _ => []
  | len + 1, v => v.testBit len :: bitsOf len v

/-- The fixed-width code (R209, R210): ranks in ascending symbol value. -/
def fixedCode (list : List ProbEntry) : List CodeEntry :=
  list.zipIdx.map fun c => ⟨c.1.sym, bitsOf (fixedLen list.length) c.2⟩

/-! ### The packer -/

/-- The bits of an input under a code table (R212, R214). -/
def codeBits (table : List CodeEntry) : List Byte → Except HostError Bits
  | [] => .ok []
  | b :: rest =>
    match table.find? fun e => e.sym = b with
    | none => .error .encodingError
    | some e =>
      match codeBits table rest with
      | .error f => .error f
      | .ok bits => .ok (e.code ++ bits)

/-- A byte of up to eight bits: the first bit in the high-order position, low-order bits padded with 0 (R212). -/
def packByte (bits : Bits) : Byte := BitVec.ofNat 8 (bitsVal bits * 2 ^ (8 - bits.length))

/-- The packer's loop with the bits accumulated so far: a byte is emitted whenever 8 bits have accumulated, and
the partial byte that remains at the end of the stream (R212). -/
def packFrom : Bits → Bits → List Byte
  | [], [] => []
  | acc, [] => [packByte acc]
  | acc, b :: rest =>
    if acc.length = 7 then packByte (acc ++ [b]) :: packFrom [] rest else packFrom (acc ++ [b]) rest

/-- The padding count of `n` code bits (R84, R213). -/
def paddingOf (n : Nat) : Nat := (8 - n % 8) % 8

/-- The binary body of a bit string (R84, R212). -/
def binaryBody (bits : Bits) : List Byte := BitVec.ofNat 8 (paddingOf bits.length) :: packFrom [] bits

/-- The text body of a bit string (R85, R215). -/
def textBody (bits : Bits) : List Byte := bits.map fun b => if b then 0x31 else 0x30

/-- The body in a format (R212, R215). -/
def bodyOf (fmt : Fmt) (bits : Bits) : List Byte :=
  match fmt with
  | .text => textBody bits
  | .binary => binaryBody bits

/-! ### The encode entry point -/

/-- The builder's consistency check (R207): a codeword that had the limit's length before its last bit was appended
is a fatal construction error. -/
def checkConstruction (code : List CodeEntry) : Except HostError (List CodeEntry) :=
  if code.any (fun e => e.code.length > Config.distinguishingBits) then .error .constructionFault else .ok code

/-- The code table an input gives (R200, R201): a total of 0 is refused. -/
def produceTable (kind : Kind) (input : List Byte) : Except HostError (List CodeEntry) :=
  if (frequencyTable input).total = 0 then .error .emptyInput
  else
    match kind with
    | .prefixCode => checkConstruction (fanoCode (probabilityList input))
    | .fixedCode => .ok (fixedCode (presentSymbols input))

/-- The body an input gives under a table. -/
def produceBody (fmt : Fmt) (table : List CodeEntry) (input : List Byte) : Except HostError (List Byte) :=
  match codeBits table input with
  | .error f => .error f
  | .ok bits => .ok (bodyOf fmt bits)

end Sys2Proof.Machine
end

