-- ==== Sys2Proof/Machine/Header.lean ====
section
/-! DEFINITION. The alphabet header text (spec/48_host_reference.md R216 to R220): rendering and parsing of symbol
tokens and of the header, and the commands a parsed header is transcribed into. Host software, outside the block
(spec/00_scope.md R5). A text is a list of bytes. -/

namespace Sys2Proof.Machine

/-- "printable, non-whitespace": 0x21 to 0x7E (R217). -/
def isPrintable (b : Byte) : Bool := 0x21 ≤ b.toNat && b.toNat ≤ 0x7E

/-- The byte after the backslash of the two-character escape of a symbol, for the six symbols that have one
(R217): `\n`, `\t`, `\r`, `\\`, `\'`, `\0`. -/
def escapeLetter (v : Byte) : Option Byte :=
  match v.toNat with
  | 0x0A => some 0x6E
  | 0x09 => some 0x74
  | 0x0D => some 0x72
  | 0x5C => some 0x5C
  | 0x27 => some 0x27
  | 0x00 => some 0x30
  | _ => none

/-- The symbol a two-character escape stands for (R218). -/
def escapedByte (letter : Byte) : Option Byte :=
  match letter.toNat with
  | 0x6E => some 0x0A
  | 0x74 => some 0x09
  | 0x72 => some 0x0D
  | 0x5C => some 0x5C
  | 0x27 => some 0x27
  | 0x30 => some 0x00
  | _ => none

/-- The decimal digits of a number, at most `fuel` of them. -/
def decimalDigits : Nat → Nat → List Byte
  | 0, _ => []
  | fuel + 1, n =>
    if n < 10 then [BitVec.ofNat 8 (0x30 + n)]
    else decimalDigits fuel (n / 10) ++ [BitVec.ofNat 8 (0x30 + n % 10)]

/-- A number in decimal. -/
def decimal (n : Nat) : List Byte := decimalDigits (n + 1) n

/-- The token of a symbol (R217): the escape case wins over the printable case, and the values 1 to 8 are written
`0x01` to `0x08` so that the first parse case does not catch them (R218; log entry 9). -/
def symbolToken (v : Byte) : List Byte :=
  match escapeLetter v with
  | some letter => [0x27, 0x5C, letter, 0x27]
  | none =>
    if isPrintable v then [v]
    else if v.toNat ≤ 8 then [0x30, 0x78, 0x30, BitVec.ofNat 8 (0x30 + v.toNat)]
    else decimal v.toNat

/-- The value of a digit in a base up to 16; letters of either case (log entry 9). -/
def digitValue (base : Nat) (b : Byte) : Option Nat :=
  let v :=
    if 0x30 ≤ b.toNat ∧ b.toNat ≤ 0x39 then some (b.toNat - 0x30)
    else if 0x61 ≤ b.toNat ∧ b.toNat ≤ 0x66 then some (b.toNat - 0x61 + 10)
    else if 0x41 ≤ b.toNat ∧ b.toNat ≤ 0x46 then some (b.toNat - 0x41 + 10)
    else none
  match v with
  | some d => if d < base then some d else none
  | none => none

/-- The number a run of digits stands for, after the value `acc` of the digits before. A sign is no digit, so that `+5`
and `-0` stand for no number, in a symbol token and in the entry count: the source is silent on signs
(91_not_in_source.md N26). DESIGN CHOICE (log entry 9). -/
def digitsValue (base : Nat) : Nat → List Byte → Option Nat
  | acc, [] => some acc
  | acc, b :: rest =>
    match digitValue base b with
    | some d => digitsValue base (base * acc + d) rest
    | none => none

/-- A numeric literal (R218): decimal, or hexadecimal after `0x`. What N26 of 91_not_in_source.md leaves open is DESIGN
CHOICE (log entry 9): no sign, leading zeros, hexadecimal letters of either case, no `0X`. -/
def numericLiteral (token : List Byte) : Option Nat :=
  match token with
  | [] => none
  | [b] => digitsValue 10 0 [b]
  | [b, c] => if b = 0x30 ∧ c = 0x78 then none else digitsValue 10 0 [b, c]
  | b :: c :: rest => if b = 0x30 ∧ c = 0x78 then digitsValue 16 0 rest else digitsValue 10 0 (b :: c :: rest)

/-- Parse case 2 (R218): a token in single quotes whose content is one of the six escapes or exactly one
character. -/
def quotedSymbol (token : List Byte) : Option Byte :=
  match token with
  | [a, x, b] => if a = 0x27 ∧ b = 0x27 then some x else none
  | [a, x, y, b] => if a = 0x27 ∧ x = 0x5C ∧ b = 0x27 then escapedByte y else none
  | _ => none

/-- Parse case 1 (R218): a single non-whitespace printable character. -/
def singleCharacter (token : List Byte) : Option Byte :=
  match token with
  | [b] => if isPrintable b then some b else none
  | _ => none

/-- Parse case 3 (R218): a numeric literal of a value in 0–255. -/
def numericSymbol (token : List Byte) : Option Byte :=
  match numericLiteral token with
  | some n => if n ≤ 255 then some (BitVec.ofNat 8 n) else none
  | none => none

/-- The symbol of a token: the three cases "attempted in order", anything else is `InvalidToken` (R218). -/
def parseToken (token : List Byte) : Except HostError Byte :=
  match singleCharacter token with
  | some b => .ok b
  | none =>
    match quotedSymbol token with
    | some b => .ok b
    | none =>
      match numericSymbol token with
      | some b => .ok b
      | none => .error .invalidToken

/-- A codeword token: a contiguous run of `0`/`1` characters (R219). -/
def parseCodeword : List Byte → Except HostError Bits
  | [] => .ok []
  | b :: rest =>
    match textBit b with
    | none => .error .malformedHeader
    | some v =>
      match parseCodeword rest with
      | .error f => .error f
      | .ok bits => .ok (v :: bits)

/-- The codeword token of an entry. -/
def codewordToken (code : Bits) : List Byte := textBody code

/-- A header line: `"<token> <codeword>"` (R216). -/
def entryLine (e : CodeEntry) : List Byte := symbolToken e.sym ++ 0x20 :: codewordToken e.code

/-- The alphabet header: the entry count, then one line an entry, each ended by `\n` (R216). -/
def headerText (table : List CodeEntry) : List Byte :=
  decimal table.length ++ 0x0A :: table.flatMap fun e => entryLine e ++ [0x0A]

/-- A text cut after each line terminator `\n` (R216). What follows the last one, if anything, is a line too, so that a
last header line without its terminator is read: the spec does not say how. DESIGN CHOICE (log entry 9). -/
def linesFrom : List Byte → List Byte → List (List Byte)
  | [], [] => []
  | acc, [] => [acc]
  | acc, b :: rest => if b = 0x0A then acc :: linesFrom [] rest else linesFrom (acc ++ [b]) rest

/-- The bytes that delimit tokens in a header line (R219): space, tab, vertical tab, form feed, carriage return. The
spec says "whitespace" and names no bytes: DESIGN CHOICE (log entry 9). -/
def isWhitespace (b : Byte) : Bool := b.toNat = 0x20 || (0x09 ≤ b.toNat && b.toNat ≤ 0x0D)

/-- A line without the whitespace at its two ends. -/
def trimmed (line : List Byte) : List Byte :=
  ((line.dropWhile isWhitespace).reverse.dropWhile isWhitespace).reverse

/-- A line cut into its symbol token and its last whitespace-delimited token (R219). The symbol token is all that
stands before, so that a quoted space is one token; DESIGN CHOICE (log entry 9). None where the line does not have
two tokens. -/
def splitLine (line : List Byte) : Option (List Byte × List Byte) :=
  let reversed := line.reverse.dropWhile isWhitespace
  let word := reversed.takeWhile fun b => !isWhitespace b
  let token := trimmed (reversed.drop word.length).reverse
  if token = [] then none else some (token, word.reverse)

/-- One entry line. A line with no codeword token is `MalformedHeader` (R219); the error of its symbol token (R218)
comes after. Which error a line with both defects gives the spec does not say: DESIGN CHOICE (log entry 19). -/
def parseEntry (line : List Byte) : Except HostError CodeEntry :=
  match splitLine line with
  | none => .error .malformedHeader
  | some (token, word) =>
    match parseCodeword word with
    | .error f => .error f
    | .ok code =>
      match parseToken token with
      | .error f => .error f
      | .ok sym => .ok ⟨sym, code⟩

/-- The entry lines, in order, of which there must be exactly `n` (R220: a count that disagrees with the lines
present is `MalformedHeader`, 92_eei_decisions.md D38). An error in an earlier line comes first (log entry 19). -/
def parseEntries : Nat → List (List Byte) → Except HostError (List CodeEntry)
  | 0, [] => .ok []
  | 0, _ :: _ => .error .malformedHeader
  | _ + 1, [] => .error .malformedHeader
  | n + 1, line :: rest =>
    match parseEntry line with
    | .error f => .error f
    | .ok e =>
      match parseEntries n rest with
      | .error f => .error f
      | .ok es => .ok (e :: es)

/-- The entry count of line 1, a decimal number (R216; leading zeros and whitespace around it: log entry 9). -/
def parseCount (line : List Byte) : Except HostError Nat :=
  if trimmed line = [] then .error .malformedHeader
  else
    match digitsValue 10 0 (trimmed line) with
    | none => .error .malformedHeader
    | some n => .ok n

/-- Parsing a header (R216 to R219): the count of line 1 says how many entry lines to read (R220). -/
def parseHeader (text : List Byte) : Except HostError (List CodeEntry) :=
  match linesFrom [] text with
  | [] => .error .malformedHeader
  | first :: rest =>
    match parseCount first with
    | .error f => .error f
    | .ok n => parseEntries n rest

/-- The commands a parsed header is transcribed into, between `CFG` and the body (R220): the entries, then `BLD`. -/
def transcription (table : List CodeEntry) : List Instr := entryCommands table ++ [.bld]

/-- The pseudo-instruction `HEADER` (R89): one `CODE` for each entry line of a header text, or the host's error. `BLD`
is a command of its own. -/
def headerCommands (text : List Byte) : Except HostError (List Instr) :=
  match parseHeader text with
  | .error f => .error f
  | .ok table => .ok (entryCommands table)

/-! ### Where the body lives -/

/-- The file layout of the body against the header, a parameter of the host model (93_implementation_defined.md U9). The
source has a sentence for each of the three and the spec does not decide between them (90_conflicts.md C6, log entry
20). -/
inductive FileLayout
  /-- "`encode(input, output_body, output_alphabet)`": header and body each in its own stream (R221). -/
  | separate
  /-- A text body "concatenated directly after the header" (R215); a binary body in its own stream. -/
  | joinedText
  /-- One stream for both formats: the header "as text", then the body, the padding byte first where it is binary. -/
  | joined
deriving DecidableEq, Repr

/-- Whether a body of this format stands directly after the header, in the header's stream. -/
def FileLayout.joins (layout : FileLayout) (fmt : Fmt) : Bool :=
  match layout with
  | .separate => false
  | .joinedText => fmt = .text
  | .joined => true

/-- What the encode entry point writes (R221): its two streams `output_alphabet` and `output_body`. It names no further
content of an EncodingResult (91_not_in_source.md N28, log entry 20). -/
structure Encoded where
  alphabet : List Byte
  body     : List Byte
deriving DecidableEq, Repr

/-- A header and a body laid out: the body directly after the header, with nothing between them (R215), and nothing in
the body's stream; or each in its own stream. -/
def writeStreams (layout : FileLayout) (fmt : Fmt) (header body : List Byte) : Encoded :=
  if layout.joins fmt then ⟨header ++ body, []⟩ else ⟨header, body⟩

/-- A text cut after its first `n` lines, their terminators included. -/
def cutLines : Nat → List Byte → List Byte × List Byte
  | 0, text => ([], text)
  | _ + 1, [] => ([], [])
  | n + 1, b :: rest =>
    let cut := cutLines (if b = 0x0A then n else n + 1) rest
    (b :: cut.1, cut.2)

/-- A stream that begins with a header, cut into the header and "the bytes after the last header line" (R280): the entry
count of line 1 says how many lines follow it (R216, R220). -/
def cutHeader (stream : List Byte) : Except HostError (List Byte × List Byte) :=
  match parseCount (stream.takeWhile fun b => b ≠ 0x0A) with
  | .error f => .error f
  | .ok n => .ok (cutLines (n + 1) stream)

/-- The header and the body of the two input streams of a decode call. Where the layout joins them, the body's own stream
holds nothing and is not read (log entry 20). -/
def splitStreams (layout : FileLayout) (fmt : Fmt) (alphabet body : List Byte) :
    Except HostError (List Byte × List Byte) :=
  if layout.joins fmt then cutHeader alphabet else .ok (alphabet, body)

/-- The code table and the body bytes that a decode call reads from its two input streams. -/
def readStreams (layout : FileLayout) (fmt : Fmt) (alphabet body : List Byte) :
    Except HostError (List CodeEntry × List Byte) :=
  match splitStreams layout fmt alphabet body with
  | .error f => .error f
  | .ok (header, data) =>
    match parseHeader header with
    | .error f => .error f
    | .ok table => .ok (table, data)

/-! ### The two entry points -/

/-- The encode entry point (R200, R221): the header is written as text in either body format (R216), and a text body is
one character per code bit (R215). -/
def encodeInput (layout : FileLayout) (kind : Kind) (fmt : Fmt) (input : List Byte) : Except HostError Encoded :=
  match produceTable kind input with
  | .error f => .error f
  | .ok table =>
    match produceBody fmt table input with
    | .error f => .error f
    | .ok body => .ok (writeStreams layout fmt (headerText table) body)

/-- What a decode call leaves (R221, R222): every symbol written to `output`, also where the call fails ("no partial
output suppression"), and the error it fails with, if any. -/
structure DecodingResult where
  output : List Sym
  error  : Option HostError
deriving DecidableEq, Repr

/-- The error a call fails with for the kind of a block fault (R222, R241). -/
def ErrorKind.hostError : ErrorKind → Option HostError
  | .none => Option.none
  | .malformedHeader => some .malformedHeader
  | .corruptStream => some .corruptStream
  | .illegalCommand => some .illegalCommand

/-- The result that the host reads off the block at the end of a session (R222): none while the session has not ended,
and in phase `FAULT` with a cause that R241 does not list, which no run reaches. -/
def Observation.result (o : Observation) : Option DecodingResult :=
  match o.phase with
  | .done => some ⟨o.out, none⟩
  | .fault =>
    match (causeKind o.cause).bind ErrorKind.hostError with
    | some e => some ⟨o.out, some e⟩
    | none => none
  | .idle => none
  | .load => none
  | .run => none

/-- The block after the host has presented these commands and the block has executed them all, in order (R51). -/
def runSession (commands : List Instr) (s : State) : Host.Outcome State Fault Refusal :=
  Host.Core.run core commands.length { s with input := presented commands }

/-- The decode entry point (R221): one session on the block, in whatever state it is, and the result read off it. Only
the body's bytes are sent as `DAT` (R280). A header that the host cannot parse fails the call with nothing sent to the
block (R220). -/
def decodeCall (layout : FileLayout) (kind : Kind) (fmt : Fmt) (alphabet body : List Byte) (s : State) :
    Option DecodingResult :=
  match readStreams layout fmt alphabet body with
  | .error f => some ⟨[], some f⟩
  | .ok (table, data) => (observed (runSession (sessionCommands kind fmt table data) s)).bind Observation.result

end Sys2Proof.Machine
end

