-- ==== Sys2Proof/Safety.lean ====
section
/-! DEFINITION. What counts as a good state, in the terms the claims use: the shape of the trie (spec/10_state.md
R28, R29), of the code→symbol array (R32), and the invariants of the reachable states (R36, R37, R41, R46). -/

namespace Sys2Proof.Machine

/-- No codeword of the table is equal to, or a proper prefix of, another entry's (R82, R117). -/
def PrefixFree (table : List CodeEntry) : Prop :=
  table.Pairwise fun a b => ¬ a.code <+: b.code ∧ ¬ b.code <+: a.code

/-- The shape of the trie after a `BLD` that did not fault (R29), with the field values R28 gives a leaf and an
internal node. -/
structure TrieShape (node : List (Nat × TrieNode)) (nnode : Nat) (table : List CodeEntry) : Prop where
  /-- R29 item 1: the paths are exactly the prefixes of the codewords. -/
  paths : ∀ p, (walkTrie node 0 p).isSome = true ↔ ∃ e ∈ table, p <+: e.code
  /-- R29 item 2: the links form a tree. -/
  injective : ∀ p q k, walkTrie node 0 p = some k → walkTrie node 0 q = some k → p = q
  /-- R28, R29: the nodes are those below `NNODE`. -/
  indices : ∀ k, k < nnode ↔ ∃ p, walkTrie node 0 p = some k
  /-- R29 item 3: a leaf stands exactly at the end of a codeword and holds its entry's symbol. -/
  leaves : ∀ p k, walkTrie node 0 p = some k →
    ∃ n, Memory.read nodeSpace node k = .ok n ∧ (n.leaf = true ↔ ∃ e ∈ table, e.code = p) ∧
      ∀ e ∈ table, e.code = p → n.sym = e.sym
  /-- R29 item 3: that entry is unique. -/
  distinct : (table.map CodeEntry.code).Nodup
  /-- R29 item 4: the root is an internal node. -/
  root : ∃ n, Memory.read nodeSpace node 0 = .ok n ∧ n.leaf = false
  /-- R28: a leaf has no children. -/
  leafShape : ∀ k n, k < nnode → Memory.read nodeSpace node k = .ok n → n.leaf = true →
    n.c0v = false ∧ n.c0 = 0 ∧ n.c1v = false ∧ n.c1 = 0
  /-- R28, R29 items 4 and 5: an internal node has no symbol and at least one child. -/
  internalShape : ∀ k n, k < nnode → Memory.read nodeSpace node k = .ok n → n.leaf = false →
    n.sym = 0 ∧ (n.c0v = true ∨ n.c1v = true) ∧ (n.c0v = false → n.c0 = 0) ∧ (n.c1v = false → n.c1 = 0)

/-- The code→symbol array after a `BLD` that did not fault (R31, R32). -/
structure DemuxShape (demux : List (Nat × DemuxElem)) (len : Nat) (table : List CodeEntry) : Prop where
  /-- R31: the common length, 1 to 8. -/
  lengths : 1 ≤ len ∧ len ≤ Config.lfixMax ∧ ∀ e ∈ table, e.len = len
  /-- R32: an element is valid exactly when some entry has its value, and then holds that entry's symbol. -/
  elements : ∀ v, v < Config.demuxMax →
    ∃ d, Memory.read demuxSpace demux v = .ok d ∧
      (d.valid = true ↔ ∃ e ∈ table, bitsVal e.code = v) ∧
      (∀ e ∈ table, bitsVal e.code = v → d.sym = e.sym) ∧ (d.valid = false → d.sym = 0)
  /-- R32: that entry is unique. -/
  distinct : (table.map fun e => bitsVal e.code).Nodup

/-- The walker between two commands (R36): on an existing internal node. -/
def CursorRests (s : State) : Prop :=
  s.cursor.toNat < s.nnode.toNat ∧
    ∃ n, Memory.read nodeSpace s.node s.cursor.toNat = .ok n ∧ n.leaf = false

/-- The carry register between two commands (R37). -/
def CarryRests (s : State) : Prop :=
  s.ccnt.toNat < s.l.toNat ∧ s.l.toNat ≤ Config.lfixMax ∧ s.carry.toNat < 2 ^ s.ccnt.toNat

/-- The three internal memories are in canonical form. -/
def MemoriesWf (s : State) : Prop :=
  Memory.wf ctSpace s.ct = true ∧ Memory.wf nodeSpace s.node = true ∧ Memory.wf demuxSpace s.demux = true

/-- Phase `LOAD` (R41, R43, R123): only `PHASE`, `MODE`, `NENT` and `CT` may differ from their reset values. -/
def LoadState (s : State) : Prop :=
  s = { s.resetSession with phase := s.phase, mode := s.mode, nent := s.nent, ct := s.ct }

/-- Phase `RUN` with `KIND = PREFIX` (R29, R36, R46 item 4; R28, R31, R32 and U28 for the unused structure). -/
def RunsPrefix (s : State) (table : List CodeEntry) : Prop :=
  TrieShape s.node s.nnode.toNat table ∧ CursorRests s ∧ s.l = 0 ∧ s.demux = [] ∧ s.carry = 0 ∧ s.ccnt = 0

/-- Phase `RUN` with `KIND = FIXED` (R32, R37, R46 item 5; R28 and U28 for the unused structure). -/
def RunsFixed (s : State) (table : List CodeEntry) : Prop :=
  DemuxShape s.demux s.l.toNat table ∧ CarryRests s ∧ s.nnode = 0 ∧ s.node = [] ∧ s.cursor = 0

/-- What holds of a session that has not faulted. -/
structure LiveSession (s : State) (table : List CodeEntry) : Prop where
  /-- R46 item 3. -/
  entries : s.nent.toNat ≤ Config.nentMax
  /-- R43: every element of the code table below `NENT` has been written. -/
  listed : s.table = .ok table
  /-- R46 item 3. -/
  lengths : ∀ e ∈ table, e.len ≤ Config.cwMax
  /-- R46 item 6. -/
  held : s.holdv = true → s.pvalid = true ∧ s.fmt = .binary
  /-- R33, U27: in `TEXT` format the padding byte and the held byte are never used. -/
  textIdle : s.fmt = .text → s.pvalid = false ∧ s.holdv = false ∧ s.p = 0 ∧ s.hold = 0
  /-- Phase `IDLE` is the state after reset (R41, R102, R103). -/
  idle : s.phase = .idle → s = s.resetSession
  /-- Phase `LOAD`. -/
  load : s.phase = .load → LoadState s
  /-- Phase `RUN`: the table is not empty and has no empty codeword (R114), and the structure of the kind is
  built. -/
  run : s.phase = .run → table ≠ [] ∧ (∀ e ∈ table, e.len ≠ 0) ∧
    (s.kind = .prefixCode → RunsPrefix s table) ∧ (s.kind = .fixedCode → RunsFixed s table)

/-- The invariant of the reachable states (R46): `CAUSE` is 0 exactly outside phase `FAULT` and is a code of R241
inside it, the memories are in canonical form, and a session that has not faulted is a live one. In phase `FAULT`
nothing is said of the registers whose values R246 leaves unspecified. -/
structure SessionInvariant (s : State) : Prop where
  memories : MemoriesWf s
  noFault  : s.phase ≠ .fault → s.cause = 0
  faulted  : s.phase = .fault → ∃ c : Cause, s.cause = c.code
  live     : s.phase ≠ .fault → ∃ table, LiveSession s table

/-- Every piece of state at the value R42 gives for reset. Of the elements of `CT` and `NODE`, which R42 leaves
unspecified, nothing is said. -/
def AtReset (s : State) : Prop :=
  s.phase = .idle ∧ s.mode = 0 ∧ s.cause = 0 ∧ s.nent = 0 ∧ s.nnode = 0 ∧ s.l = 0 ∧
  (∀ v, v < Config.demuxMax → ∃ d, Memory.read demuxSpace s.demux v = .ok d ∧ d.valid = false) ∧
  s.pvalid = false ∧ s.p = 0 ∧ s.holdv = false ∧ s.hold = 0 ∧ s.cursor = 0 ∧ s.carry = 0 ∧ s.ccnt = 0 ∧ s.out = []

/-- The answer is a fault entry (R246) with this cause, the symbols `out` kept, taken in `s`; of the registers that
R246 leaves unspecified nothing is said. -/
def FaultsWith (o : Host.Outcome State Fault Refusal) (cause : BitVec 8) (out : List Sym) (s : State) : Prop :=
  ∃ t, o = .next t ∧ t.phase = .fault ∧ t.cause = cause ∧ t.out = out ∧ t.input = s.input

/-- A code table as phase `LOAD` holds it when `BLD` may run (R46 item 3, R114): at most 256 entries, each with a
codeword of 1 to 255 bits. -/
def LoadedTable (s : State) (table : List CodeEntry) : Prop :=
  s.nent.toNat ≤ Config.nentMax ∧ s.table = .ok table ∧ table ≠ [] ∧
    ∀ e ∈ table, e.len ≠ 0 ∧ e.len ≤ Config.cwMax

/-- Two states that the host cannot tell apart: the same observation and the same commands to come; outside phase
`FAULT` they are the same state but for the model's own count of free values drawn. -/
def Alike (s t : State) : Prop :=
  s.observe = t.observe ∧ s.input = t.input ∧ (s.phase ≠ .fault → t = { s with draws := t.draws })

end Sys2Proof.Machine
end

