-- ==== Sys2Proof/Certificates/Slice0/Obligations.lean ====
section
/-! DEFINITION. The statements for the provers, one `def Obligations.<Name> : Prop` each; OBLIGATIONS.json lists
them. No statement rests on what a free value is (`Config.afterFault`, log entry 1). Of the values and conventions the
model chose, only `HeaderRoundTrip`, `DecodeCallReturnsTheInput` and `HeaderLinesAreWhitespaceDelimited` rest on one (log entry 9). -/

open Sys2Proof Sys2Proof.Machine

/-! ### Reset, invariants, the step -/

/-- R42, R270: the state after reset, what `RST` leaves in every phase, and what a hardware reset leaves. -/
def Obligations.ResetPutsEveryPieceOfState : Prop :=
  AtReset State.reset ∧
  (∀ s : State, ∃ t, exec .rst s = .next t ∧ AtReset t ∧ t.input = s.input) ∧
  (∀ (s : State) (rest : List HostInput), s.input = .hardReset :: rest →
    ∃ t, step s = .next t ∧ AtReset t ∧ t.input = rest)

/-- R272: a hardware reset and the command `RST` leave the same state. -/
def Obligations.HardResetHasTheEffectOfRst : Prop :=
  ∀ (s : State) (rest : List HostInput),
    step { s with input := .hardReset :: rest } = step { s with input := .word 0x0100 :: rest }

/-- The invariant of the reachable states holds after reset. -/
def Obligations.ResetStateIsLive : Prop := SessionInvariant State.reset

/-- R46 outside phase `FAULT`, with R29, R32, R36, R37 and the canonical form of the memories: every step keeps
it. -/
def Obligations.StepKeepsSessionInvariant : Prop :=
  ∀ s t : State, SessionInvariant s → step s = .next t → SessionInvariant t

/-- R43, R44, R185: from every state that meets the invariant the machine goes on; no element is read before it is
written, none that does not exist is accessed, and no loop hangs. -/
def Obligations.StepNeverStopsFromInvariantStates : Prop :=
  ∀ s : State, SessionInvariant s → ∃ t, step s = .next t

/-- A step runs the instruction that the presented word decodes to, on the state without that word. -/
def Obligations.StepRunsDecodedInstruction : Prop :=
  ∀ (s : State) (w : Word) (rest : List HostInput) (i : Instr),
    s.input = .word w :: rest → decode w = .ok i → step s = exec i { s with input := rest }

/-- With nothing presented the block waits and all state survives (R255). -/
def Obligations.StepWaitsWithNothingPresented : Prop :=
  ∀ s : State, s.input = [] → step s = .next s

/-! ### Decoding -/

/-- R73: a word decodes to a command exactly when it matches the command's row of the opcode map, and the operand
is the word's low byte. -/
def Obligations.DecodeFollowsOpcodeMap : Prop :=
  ∀ w : Word,
    (∀ op, (∃ i, decode w = .ok i ∧ i.opcode = op) ↔ ∃ r ∈ opcodeMap, r.opcode = op ∧ w &&& r.mask = r.value) ∧
    (∀ i, decode w = .ok i → i.arg = w.extractLsb' 0 8)

/-- Decode of encode is the instruction, for every well-formed instruction and every operand value. -/
def Obligations.DecodeOfEncodeIsTheInstruction : Prop :=
  ∀ i : Instr, i.wellFormed = true → decode (encode i) = .ok i

/-- Each word has one meaning: a word that decodes is the encoding of what it decodes to. -/
def Obligations.EncodeOfDecodeIsTheWord : Prop :=
  ∀ (w : Word) (i : Instr), decode w = .ok i → i.wellFormed = true ∧ encode i = w

/-- R90, R78 and the words of R73: a few words and what they stand for. -/
def Obligations.WorkedWordsDecode : Prop :=
  decode 0x0000 = .ok .nop ∧ decode 0x0100 = .ok .rst ∧ decode 0x0203 = .ok (.cfg 3) ∧
  decode 0x0361 = .ok (.ent 0x61) ∧ decode 0x0400 = .ok (.cwb 0) ∧ decode 0x0401 = .ok (.cwb 1) ∧
  decode 0x0500 = .ok .bld ∧ decode 0x0604 = .ok (.dat 0x04) ∧ decode 0x0610 = .ok (.dat 0x10) ∧
  decode 0x0700 = .ok .endBody ∧ decode 0xFFFF = .error .undefinedOpcode

/-- R75: an opcode above 0x07 spells no command and outside phase `FAULT` raises 0x30, whatever its operand. -/
def Obligations.UndefinedOpcodeRaises30 : Prop :=
  ∀ (s : State) (w : Word) (rest : List HostInput), 0x07 < (w.extractLsb' 8 8).toNat →
    (∀ i, decode w ≠ .ok i) ∧
    (s.phase ≠ .fault → s.input = .word w :: rest → FaultsWith (step s) 0x30 s.out { s with input := rest })

/-- R76, with R72 for which bits are reserved: a defined opcode with a reserved operand bit set raises 0x31 outside
phase `FAULT`. -/
def Obligations.ReservedBitRaises31 : Prop :=
  ∀ (s : State) (w : Word) (rest : List HostInput),
    ((w.extractLsb' 8 8 ∈ [0x00#8, 0x01#8, 0x05#8, 0x07#8] ∧ w.extractLsb' 0 8 ≠ 0) ∨
     (w.extractLsb' 8 8 = 0x02#8 ∧ w.extractLsb' 2 6 ≠ 0) ∨
     (w.extractLsb' 8 8 = 0x04#8 ∧ w.extractLsb' 1 7 ≠ 0)) →
    s.phase ≠ .fault → s.input = .word w :: rest → FaultsWith (step s) 0x31 s.out { s with input := rest }

/-! ### Phases and faults -/

/-- The phases in which R80 lets a command be executed. -/
def okPhases : Instr → List Phase
  | .nop => [.idle, .load, .run, .done]
  | .rst => [.idle, .load, .run, .done, .fault]
  | .cfg _ => [.idle]
  | .ent _ => [.load]
  | .cwb _ => [.load]
  | .bld => [.load]
  | .dat _ => [.run]
  | .endBody => [.run]

/-- The phase R80 gives a command that raises no fault. -/
def phaseAfter : Instr → Phase → Phase
  | .nop, p => p
  | .rst, _ => .idle
  | .cfg _, _ => .load
  | .ent _, p => p
  | .cwb _, p => p
  | .bld, _ => .run
  | .dat _, p => p
  | .endBody, _ => .done

/-- R80, the whole table: what a well-formed command does in a phase in which it is not legal, in phase `FAULT`,
and to which phase a legal one that raises no fault moves; a legal one never raises 0x32. -/
def Obligations.LegalityTable : Prop :=
  ∀ (i : Instr) (s : State), i.wellFormed = true →
    (s.phase ≠ .fault → s.phase ∉ okPhases i → FaultsWith (exec i s) 0x32 s.out s) ∧
    (s.phase = .fault → i ≠ .rst → exec i s = .next s) ∧
    (∀ t, s.phase ∈ okPhases i → exec i s = .next t → 
      t.phase = phaseAfter i s.phase ∨ (t.phase = .fault ∧ t.cause ≠ 0x32)) ∧
    (∀ a, i = .cwb a → s.phase = .load → s.nent = 0 → FaultsWith (exec i s) 0x33 s.out s)

/-- R81: in phase `FAULT` every word other than 0x0100 is ignored, whether or not it spells a command. -/
def Obligations.FaultPhaseIgnoresEveryOtherWord : Prop :=
  ∀ (s : State) (w : Word) (rest : List HostInput), s.phase = .fault → w ≠ 0x0100 → s.input = .word w :: rest →
    step s = .next { s with input := rest }

/-- R248: over any number of steps without a reset, `PHASE = FAULT`, `CAUSE` and the symbols stay. -/
def Obligations.FaultIsSticky : Prop :=
  ∀ (n : Nat) (s : State), s.phase = .fault → (∀ x ∈ s.input, ∃ w, x = .word w ∧ w ≠ 0x0100) →
    ∃ t : State, Host.Core.run core n s = .next t ∧ t.phase = .fault ∧ t.cause = s.cause ∧ t.out = s.out

/-- R249: the only exit from phase `FAULT` is reset, which starts a new session with empty state; while no reset
comes, nothing is executed, so that no second fault is raised. -/
def Obligations.OnlyResetLeavesFault : Prop :=
  ∀ s t : State, s.phase = .fault → step s = .next t →
    ((s.input.head? = some .hardReset ∨ s.input.head? = some (.word 0x0100)) ∧ AtReset t) ∨
    (s.input.head? ≠ some .hardReset ∧ s.input.head? ≠ some (.word 0x0100) ∧
      t = { s with input := s.input.tail })

/-- The causes R241 lists a command under (with the decode causes 0x31 and 0x32 where they can concern it). -/
def causesOf : Instr → List (BitVec 8)
  | .nop => []
  | .rst => []
  | .cfg _ => [0x31, 0x32]
  | .ent _ => [0x32, 0x13]
  | .cwb _ => [0x31, 0x32, 0x33, 0x14]
  | .bld => [0x32, 0x12, 0x10, 0x11, 0x15, 0x17, 0x16]
  | .dat _ => [0x32, 0x20, 0x21, 0x22]
  | .endBody => [0x32, 0x25, 0x26, 0x21, 0x22, 0x23, 0x24]

/-- R25, R241: `CAUSE` is written by fault entry, with a cause that R241 gives the command, and by reset; by nothing
else. -/
def Obligations.CauseIsWrittenByFaultEntryAndReset : Prop :=
  ∀ (i : Instr) (s t : State), exec i s = .next t →
    (t.phase = .fault ∧ s.phase ≠ .fault ∧ t.cause ∈ causesOf i) ∨ (i = .rst ∧ t.cause = 0) ∨
    (t.cause = s.cause ∧ (t.phase = .fault ↔ s.phase = .fault))

/-- R246: fault entry keeps the symbols emitted so far and writes `PHASE` and `CAUSE`, and the values it leaves
unspecified are unobservable: two states that differ only in them (and in how many the model has drawn) answer
every further sequence of inputs alike. -/
def Obligations.UnspecifiedValuesAreUnobservable : Prop :=
  (∀ (c : Cause) (s : State), FaultsWith (Result.raised c s).finish c.code s.out s) ∧
  ∀ (n : Nat) (s s' t : State), Alike s s' → Host.Core.run core n s = .next t →
    ∃ t' : State, Host.Core.run core n s' = .next t' ∧ Alike t t'

/-! ### Output and frames -/

/-- R39: over a step that is no reset `OUT` only grows at its end, whatever the word and whether or not a fault is
raised; a reset empties it. -/
def Obligations.OutOnlyGrowsBetweenResets : Prop :=
  ∀ s t : State, step s = .next t →
    if s.input.head? = some .hardReset ∨ s.input.head? = some (.word 0x0100) then t.out = [] else s.out <+: t.out

/-- R55: `DAT` and `END` emit at most 8 symbols, no other command emits; and 8 can be emitted. -/
def Obligations.AtMostEightSymbolsACommand : Prop :=
  (∀ (i : Instr) (s t : State), exec i s = .next t → i ≠ .rst →
    t.out.length ≤ s.out.length + 8 ∧ ((∀ a, i ≠ .dat a) → i ≠ .endBody → t.out = s.out)) ∧
  (∃ a s t, exec (.dat a) s = .next t ∧ t.out.length = s.out.length + 8) ∧
  (∃ s t, exec .endBody s = .next t ∧ t.out.length = s.out.length + 8)

/-- R45, the frame of every command in a run with no fault: each changes only the state the access matrix marks for
it, in the mode it marks. The model's own fields are unchanged too. -/
def Obligations.CommandsWriteOnlyWhatTheMatrixMarks : Prop :=
  ∀ (i : Instr) (s t : State), exec i s = .next t → t.phase ≠ .fault →
    match i with
    | .nop => t = s
    | .rst => t.input = s.input
    | .cfg _ => t = { s with phase := t.phase, mode := t.mode }
    | .ent _ => t = { s with nent := t.nent, ct := t.ct }
    | .cwb _ => t = { s with ct := t.ct }
    | .bld =>
      t = { s with phase := t.phase, nnode := t.nnode, node := t.node, l := t.l, demux := t.demux,
                   cursor := t.cursor, carry := t.carry, ccnt := t.ccnt } ∧
      (s.kind = .prefixCode → t.l = s.l ∧ t.demux = s.demux) ∧
      (s.kind = .fixedCode → t.nnode = s.nnode ∧ t.node = s.node)
    | .dat _ =>
      t = { s with pvalid := t.pvalid, p := t.p, holdv := t.holdv, hold := t.hold, cursor := t.cursor,
                   carry := t.carry, ccnt := t.ccnt, out := t.out } ∧
      (s.fmt = .text → t.pvalid = s.pvalid ∧ t.p = s.p ∧ t.holdv = s.holdv ∧ t.hold = s.hold) ∧
      (s.kind = .prefixCode → t.carry = s.carry ∧ t.ccnt = s.ccnt) ∧
      (s.kind = .fixedCode → t.cursor = s.cursor)
    | .endBody =>
      t = { s with phase := t.phase, holdv := t.holdv, cursor := t.cursor, carry := t.carry, ccnt := t.ccnt,
                   out := t.out } ∧
      (s.fmt = .text → t.holdv = s.holdv ∧ t.out = s.out) ∧
      (s.kind = .prefixCode → t.carry = s.carry ∧ t.ccnt = s.ccnt) ∧
      (s.kind = .fixedCode → t.cursor = s.cursor)

/-! ### Control commands -/

/-- R101: `NOP` is the word 0x0000 and has no effect, in any phase; a word with opcode 0x00 and a non-zero operand
is not `NOP`. -/
def Obligations.NopChangesNothing : Prop :=
  decode 0x0000 = .ok .nop ∧
  (∀ s : State, exec .nop s = .next s) ∧
  (∀ (s : State) (w : Word) (rest : List HostInput), w.extractLsb' 8 8 = 0x00#8 → w.extractLsb' 0 8 ≠ 0 →
    s.phase ≠ .fault → s.input = .word w :: rest → FaultsWith (step s) 0x31 s.out { s with input := rest })

/-- R103: `CFG` in phase `IDLE` writes `MODE` and opens the table; its two faults. -/
def Obligations.CfgSelectsModeAndOpensTable : Prop :=
  ∀ (arg : Byte) (s : State),
    (arg.extractLsb' 2 6 = 0 → decode (0x0200 + arg.setWidth 16) = .ok (.cfg arg)) ∧
    (arg.extractLsb' 2 6 = 0 → s.phase = .idle →
      exec (.cfg arg) s = .next { s with mode := arg.extractLsb' 0 2, phase := .load }) ∧
    (arg.extractLsb' 2 6 ≠ 0 → s.phase ≠ .fault → FaultsWith (exec (.cfg arg) s) 0x31 s.out s) ∧
    (arg.extractLsb' 2 6 = 0 → s.phase ≠ .fault → s.phase ≠ .idle → FaultsWith (exec (.cfg arg) s) 0x32 s.out s)

/-! ### The code table -/

/-- R111: `ENT` appends an entry with an empty codeword and changes nothing else; its two faults. -/
def Obligations.EntAppendsAnEntry : Prop :=
  ∀ (arg : Byte) (s : State),
    decode (0x0300 + arg.setWidth 16) = .ok (.ent arg) ∧
    (s.phase = .load → s.nent.toNat < 256 → ∃ t, exec (.ent arg) s = .next t ∧
      t.nent.toNat = s.nent.toNat + 1 ∧
      Memory.read ctSpace t.ct s.nent.toNat = .ok ⟨arg, []⟩ ∧
      (∀ j, j ≠ s.nent.toNat → Memory.read ctSpace t.ct j = Memory.read ctSpace s.ct j) ∧
      t = { s with nent := t.nent, ct := t.ct } ∧
      (∀ table, s.table = .ok table → t.table = .ok (table ++ [⟨arg, []⟩]))) ∧
    (s.phase = .load → s.nent.toNat = 256 → FaultsWith (exec (.ent arg) s) 0x13 s.out s) ∧
    (s.phase ≠ .fault → s.phase ≠ .load → FaultsWith (exec (.ent arg) s) 0x32 s.out s)

/-- R112: `CWB` appends one bit to the codeword of the last entry and changes nothing else; its four faults. -/
def Obligations.CwbAppendsABit : Prop :=
  ∀ (arg : Byte) (s : State), s.phase ≠ .fault →
    (arg.extractLsb' 1 7 = 0 → decode (0x0400 + arg.setWidth 16) = .ok (.cwb arg)) ∧
    (arg.extractLsb' 1 7 ≠ 0 → FaultsWith (exec (.cwb arg) s) 0x31 s.out s) ∧
    (arg.extractLsb' 1 7 = 0 → s.phase ≠ .load → FaultsWith (exec (.cwb arg) s) 0x32 s.out s) ∧
    (arg.extractLsb' 1 7 = 0 → s.phase = .load → s.nent = 0 → FaultsWith (exec (.cwb arg) s) 0x33 s.out s) ∧
    (∀ e, arg.extractLsb' 1 7 = 0 → s.phase = .load → s.nent ≠ 0 → s.nent.toNat ≤ 256 →
      Memory.read ctSpace s.ct (s.nent.toNat - 1) = .ok e →
      (e.code.length = 255 → FaultsWith (exec (.cwb arg) s) 0x14 s.out s) ∧
      (e.code.length ≠ 255 → ∃ t, exec (.cwb arg) s = .next t ∧
        Memory.read ctSpace t.ct (s.nent.toNat - 1) = .ok ⟨e.sym, e.code ++ [arg.getLsbD 0]⟩ ∧
        (∀ j, j ≠ s.nent.toNat - 1 → Memory.read ctSpace t.ct j = Memory.read ctSpace s.ct j) ∧
        t = { s with ct := t.ct }))

/-- R86: `ENT s` and then one `CWB` per bit, first bit first, load the entry `(s, code)` and nothing else. -/
def Obligations.CodeCommandsLoadTheEntry : Prop :=
  ∀ (e : CodeEntry) (s : State) (table : List CodeEntry), s.phase = .load → s.nent.toNat < 256 →
    s.table = .ok table → e.code.length ≤ 255 →
    ∃ t, runCommands (.ent e.sym :: e.code.map fun b => .cwb (if b then 1 else 0)) s = .next t ∧
      t.table = .ok (table ++ [e]) ∧ t = { s with nent := t.nent, ct := t.ct }

/-! ### BLD -/

/-- R29 (with R123 for the stream registers): in `PREFIX` mode a `BLD` that raises no fault leaves the trie of the
table and changes nothing else, and `BLD` of a prefix-free table with no empty codeword raises none. -/
def Obligations.BldBuildsTheTrie : Prop :=
  ∀ (s : State) (table : List CodeEntry), s.phase = .load → s.kind = .prefixCode → s.nent.toNat ≤ 256 →
    s.table = .ok table → (∀ e ∈ table, e.len ≤ 255) → Memory.wf nodeSpace s.node = true →
    (∀ t, exec .bld s = .next t → t.phase ≠ .fault → TrieShape t.node t.nnode.toNat table ∧
      t = { s with phase := .run, cursor := 0, carry := 0, ccnt := 0, nnode := t.nnode, node := t.node }) ∧
    (table ≠ [] → (∀ e ∈ table, e.len ≠ 0) → PrefixFree table → ∃ t, exec .bld s = .next t ∧ t.phase = .run)

/-- R117: in `PREFIX` mode `BLD` faults with 0x16 exactly when two entries exist with one codeword equal to, or a
proper prefix of, the other. -/
def Obligations.BldRefusesExactlyNonPrefixFreeTables : Prop :=
  ∀ (s : State) (table : List CodeEntry), s.phase = .load → s.kind = .prefixCode → LoadedTable s table →
    Memory.wf nodeSpace s.node = true →
    (FaultsWith (exec .bld s) 0x16 s.out s ↔
      ∃ (i j : Nat) (a b : CodeEntry), i ≠ j ∧ table[i]? = some a ∧ table[j]? = some b ∧ a.code <+: b.code)

/-- R32, R31: `BLD` of a table of one length up to 8 with distinct codewords in `FIXED` mode completes, and leaves
the code→symbol array of the table. Every element of the array is invalid before (R121). -/
def Obligations.BldBuildsTheArray : Prop :=
  ∀ (s : State) (table : List CodeEntry) (len : Nat), s.phase = .load → s.kind = .fixedCode →
    LoadedTable s table → s.demux = [] → (∀ e ∈ table, e.len = len) → len ≤ 8 →
    (table.map CodeEntry.code).Nodup →
    ∃ t, exec .bld s = .next t ∧ t.l.toNat = len ∧ DemuxShape t.demux len table ∧
      t = { s with phase := .run, cursor := 0, carry := 0, ccnt := 0, l := t.l, demux := t.demux }

/-- R114, R115, R121, R245: the faults of `BLD` other than 0x16, each where no earlier one applies. -/
def Obligations.BldFaultsInOrder : Prop :=
  ∀ (s : State) (table : List CodeEntry), s.phase = .load → s.nent.toNat ≤ 256 → s.table = .ok table →
    s.demux = [] →
    (table = [] → FaultsWith (exec .bld s) 0x12 s.out s) ∧
    ((∃ e ∈ table, e.len = 0) → FaultsWith (exec .bld s) 0x10 s.out s) ∧
    ((∀ e ∈ table, e.len ≠ 0) → s.kind = .fixedCode →
      ((∃ a ∈ table, ∃ b ∈ table, a.len ≠ b.len) → FaultsWith (exec .bld s) 0x11 s.out s) ∧
      (∀ len, table ≠ [] → (∀ e ∈ table, e.len = len) →
        (8 < len → FaultsWith (exec .bld s) 0x15 s.out s) ∧
        (len ≤ 8 → ¬ (table.map CodeEntry.code).Nodup → FaultsWith (exec .bld s) 0x17 s.out s)))

/-- R120: neither the paths and symbols of the trie nor the fault 0x16 depend on the order of the table. -/
def Obligations.TrieDoesNotDependOnTableOrder : Prop :=
  ∀ (s s' : State) (table table' : List CodeEntry), s.phase = .load → s.kind = .prefixCode →
    s'.phase = .load → s'.kind = .prefixCode → LoadedTable s table → LoadedTable s' table' → table.Perm table' →
    Memory.wf nodeSpace s.node = true → Memory.wf nodeSpace s'.node = true →
    (FaultsWith (exec .bld s) 0x16 s.out s ∧ FaultsWith (exec .bld s') 0x16 s'.out s') ∨
    (∃ t t', exec .bld s = .next t ∧ exec .bld s' = .next t' ∧ t.phase = .run ∧ t'.phase = .run ∧
      ∀ path, nodeView t.node path = nodeView t'.node path)

/-- R30: a trie of the shape of R29 holds at every path what the abstract trie of the table holds there. -/
def Obligations.TrieIsTheAbstractTrie : Prop :=
  ∀ (node : List (Nat × TrieNode)) (nnode : Nat) (table : List CodeEntry), TrieShape node nnode table →
    ∀ path, nodeView node path = trieView table path

/-- R44: the trie has at most one node more than the table has codeword bits, so that it fits in `NODE` and an
index fits 16 bits. -/
def Obligations.TrieFitsTheNodeMemory : Prop :=
  ∀ (s t : State) (table : List CodeEntry), s.phase = .load → s.kind = .prefixCode → LoadedTable s table →
    Memory.wf nodeSpace s.node = true → exec .bld s = .next t → t.phase = .run →
    t.nnode.toNat ≤ 1 + (table.map CodeEntry.len).sum ∧ t.nnode.toNat ≤ 65281

/-! ### The prefix walker -/

/-- R173: `PSTEP` in terms of the abstract trie, and the decode of a concatenation of codewords. -/
def Obligations.PstepFollowsTheAbstractTrie : Prop :=
  (∀ (s : State) (table : List CodeEntry) (path : Bits) (b : Bool), TrieShape s.node s.nnode.toNat table →
    walkTrie s.node 0 path = some s.cursor.toNat → nodeView s.node path = some .internal →
    (trieView table (path ++ [b]) = none → pstep b s = .raised .csDeadEnd s) ∧
    (∀ sym, trieView table (path ++ [b]) = some (.leaf sym) →
      pstep b s = .ok () { s with out := s.out ++ [sym], cursor := 0 }) ∧
    (trieView table (path ++ [b]) = some .internal → ∃ k : BitVec 16,
      walkTrie s.node 0 (path ++ [b]) = some k.toNat ∧ pstep b s = .ok () { s with cursor := k })) ∧
  (∀ (s : State) (table entries : List CodeEntry), TrieShape s.node s.nnode.toNat table → s.cursor = 0 →
    (∀ e ∈ entries, e ∈ table) →
    forEach pstep (entries.flatMap CodeEntry.code) s = .ok () { s with out := s.out ++ entries.map CodeEntry.sym })

/-! ### The demultiplexer -/

/-- R182, R183: one bit into the carry register, and the lookup of a codeword it completes. -/
def Obligations.FstepTakesOneBit : Prop :=
  ∀ (s : State) (b : Bool) (d : DemuxElem), CarryRests s →
    (s.ccnt.toNat + 1 < s.l.toNat → fstep b s =
      .ok () { s with carry := BitVec.ofNat 8 (2 * s.carry.toNat + b.toNat), ccnt := s.ccnt + 1 }) ∧
    (s.ccnt.toNat + 1 = s.l.toNat → Memory.read demuxSpace s.demux (2 * s.carry.toNat + b.toNat) = .ok d →
      (d.valid = true → fstep b s = .ok () { s with carry := 0, ccnt := 0, out := s.out ++ [d.sym] }) ∧
      (d.valid = false → ∃ t, fstep b s = .raised .csUnmapped t ∧ t.out = s.out))

/-- R184: `FBYTE(B, u)` has the same effect as the steps `FSTEP(B[7])`, …, `FSTEP(B[8−u])`. -/
def Obligations.FbyteIsItsFsteps : Prop :=
  ∀ (s : State) (B : Byte) (u : Nat), CarryRests s → 1 ≤ u → u ≤ 8 →
    fbyte B u s = forEach fstep (usableBits B u) s

/-- R186: with `L = 8` and no carry, a whole byte is one codeword; a shorter last byte goes to the carry, and `END`
then raises 0x24. -/
def Obligations.EightBitCodesAreBytes : Prop :=
  ∀ (s : State) (B : Byte), s.l = 8 → s.ccnt = 0 →
    fbyte B 8 s = lookupSymbol B s ∧
    (∀ u, 1 ≤ u → u < 8 → ∃ t, fbyte B u s = .ok () t ∧ t.out = s.out ∧ t.ccnt.toNat = u) ∧
    (s.phase = .run → s.kind = .fixedCode → s.fmt = .binary → s.pvalid = true → s.holdv = true → s.p ≠ 0 →
      FaultsWith (exec .endBody s) 0x24 s.out s)

/-! ### DAT and END -/

/-- R142: what a byte of a text body does; a byte that is no bit character changes no state at all, and none of
them uses the padding and lookahead registers. -/
def Obligations.TextBytesAreBitsOrSkipped : Prop :=
  ∀ (c : Byte) (s : State), s.phase = .run → s.fmt = .text →
    (c = 0x30 → exec (.dat c) s = (bitStep false s).finish) ∧
    (c = 0x31 → exec (.dat c) s = (bitStep true s).finish) ∧
    (c ≠ 0x30 → c ≠ 0x31 → exec (.dat c) s = .next s) ∧
    (∀ t, exec (.dat c) s = .next t → t.phase ≠ .fault →
      t.pvalid = s.pvalid ∧ t.p = s.p ∧ t.holdv = s.holdv ∧ t.hold = s.hold)

/-- R144: the first `DAT` of a binary body is the padding count; above 7 it is refused before anything is
emitted. -/
def Obligations.FirstBinaryByteIsThePaddingCount : Prop :=
  ∀ (v : Byte) (s : State), s.phase = .run → s.fmt = .binary → s.pvalid = false →
    (v.toNat ≤ 7 → exec (.dat v) s = .next { s with p := v.extractLsb' 0 3, pvalid := true }) ∧
    (7 < v.toNat → FaultsWith (exec (.dat v) s) 0x20 s.out s)

/-- R145: the second `DAT` of a binary body is held and nothing is decoded. -/
def Obligations.FirstDataByteIsHeld : Prop :=
  ∀ (v : Byte) (s : State), s.phase = .run → s.fmt = .binary → s.pvalid = true → s.holdv = false →
    exec (.dat v) s = .next { s with hold := v, holdv := true }

/-- `DAT` with a prefix code (R141, R142, R146, R147, R171, R247): from a cursor at a path, the bits it feeds walk
the abstract trie of the table; it completes exactly where they do, with the symbols, the cursor at the new path
and the padding and lookahead registers as R141 says, and otherwise faults with the symbols emitted before. The
padding byte is `FirstBinaryByteIsThePaddingCount`'s. -/
def Obligations.DatWalksThePrefixCode : Prop :=
  ∀ (arg : Byte) (s : State) (table : List CodeEntry) (path : Bits), s.phase = .run → s.kind = .prefixCode →
    (s.fmt = .binary → s.pvalid = true) → TrieShape s.node s.nnode.toNat table →
    walkTrie s.node 0 path = some s.cursor.toNat → nodeView s.node path = some .internal →
    ∀ w, w = walkBits table path [] (datBits s arg) →
      (w.fault = none → ∃ k : BitVec 16, walkTrie s.node 0 w.rest = some k.toNat ∧
        exec (.dat arg) s = .next { afterDat arg s with cursor := k, out := s.out ++ w.out }) ∧
      (∀ c, w.fault = some c → c = .csDeadEnd ∧ FaultsWith (exec (.dat arg) s) 0x21 (s.out ++ w.out) s)

/-- `DAT` with a fixed-width code (R141, R142, R146, R147, R181 to R184, R247): from the carried bits `pending`, the
bits it feeds are cut into codewords. -/
def Obligations.DatCutsTheFixedCode : Prop :=
  ∀ (arg : Byte) (s : State) (table : List CodeEntry) (pending : Bits), s.phase = .run → s.kind = .fixedCode →
    (s.fmt = .binary → s.pvalid = true) → DemuxShape s.demux s.l.toNat table → CarryRests s →
    pending.length = s.ccnt.toNat → bitsVal pending = s.carry.toNat →
    ∀ w, w = cutBits table s.l.toNat pending [] (datBits s arg) →
      (w.fault = none → exec (.dat arg) s =
        .next { afterDat arg s with carry := BitVec.ofNat 8 (bitsVal w.rest), ccnt := BitVec.ofNat 4 w.rest.length,
                                    out := s.out ++ w.out }) ∧
      (∀ c, w.fault = some c → c = .csUnmapped ∧ FaultsWith (exec (.dat arg) s) 0x22 (s.out ++ w.out) s)

/-- `END` with a prefix code where a byte may be held (R148, R149, R151): the usable bits of the last byte walk the
trie, and the session is done exactly when the cursor is back at the root. -/
def Obligations.EndFinishesThePrefixCode : Prop :=
  ∀ (s : State) (table : List CodeEntry) (path : Bits), s.phase = .run → s.kind = .prefixCode →
    (s.fmt = .binary → s.pvalid = true ∧ s.holdv = true) → TrieShape s.node s.nnode.toNat table →
    walkTrie s.node 0 path = some s.cursor.toNat → nodeView s.node path = some .internal →
    ∀ w, w = walkBits table path [] (endBits s) →
      (w.fault = none → w.rest = [] → exec .endBody s =
        .next { s with cursor := 0, out := s.out ++ w.out, phase := .done,
                       holdv := if s.fmt = .binary then false else s.holdv }) ∧
      (w.fault = none → w.rest ≠ [] → FaultsWith (exec .endBody s) 0x23 (s.out ++ w.out) s) ∧
      (w.fault ≠ none → FaultsWith (exec .endBody s) 0x21 (s.out ++ w.out) s)

/-- `END` with a fixed-width code where a byte may be held (R148, R149, R151): the session is done exactly when no
carried bit is left. -/
def Obligations.EndFinishesTheFixedCode : Prop :=
  ∀ (s : State) (table : List CodeEntry) (pending : Bits), s.phase = .run → s.kind = .fixedCode →
    (s.fmt = .binary → s.pvalid = true ∧ s.holdv = true) → DemuxShape s.demux s.l.toNat table → CarryRests s →
    pending.length = s.ccnt.toNat → bitsVal pending = s.carry.toNat →
    ∀ w, w = cutBits table s.l.toNat pending [] (endBits s) →
      (w.fault = none → w.rest = [] → exec .endBody s =
        .next { s with carry := 0, ccnt := 0, out := s.out ++ w.out, phase := .done,
                       holdv := if s.fmt = .binary then false else s.holdv }) ∧
      (w.fault = none → w.rest ≠ [] → FaultsWith (exec .endBody s) 0x24 (s.out ++ w.out) s) ∧
      (w.fault ≠ none → FaultsWith (exec .endBody s) 0x22 (s.out ++ w.out) s)

/-- R150: a body with no data byte. -/
def Obligations.BodiesWithoutData : Prop :=
  ∀ s : State, s.phase = .run → s.holdv = false → s.cursor = 0 → s.ccnt = 0 → s.out = [] →
    (s.fmt = .binary → s.pvalid = true → s.p = 0 → exec .endBody s = .next { s with phase := .done }) ∧
    (s.fmt = .binary → s.pvalid = true → s.p ≠ 0 → FaultsWith (exec .endBody s) 0x26 [] s) ∧
    (s.fmt = .binary → s.pvalid = false → FaultsWith (exec .endBody s) 0x25 [] s) ∧
    (s.fmt = .text → exec .endBody s = .next { s with phase := .done })

/-- R58: the filler bits of the last byte are not looked at: `END` with another last byte that has the same usable
bits is observed alike. -/
def Obligations.FillerBitsAreNotLookedAt : Prop :=
  ∀ (s : State) (byte : Byte), s.phase = .run → s.fmt = .binary →
    (∀ i, s.p.toNat ≤ i → i < 8 → byte.getLsbD i = s.hold.getLsbD i) →
    observed (exec .endBody { s with hold := byte }) = observed (exec .endBody s)

/-! ### Whole sessions -/

/-- R152, R153: with a prefix code, a whole body from the state `BLD` leaves (R123) ends as `decode_prefix` of its
bit stream. -/
def Obligations.PrefixSessionIsDecodePrefix : Prop :=
  ∀ (s : State) (table : List CodeEntry) (body : List Byte), s.phase = .run → s.cause = 0 →
    s.kind = .prefixCode → TrieShape s.node s.nnode.toNat table → s.cursor = 0 → s.pvalid = false →
    s.holdv = false → s.out = [] →
    observed (runCommands (body.map Instr.dat ++ [.endBody]) s) =
      some (decodeBody s.fmt (decodePrefix table) body).observation

/-- R152, R153, R184: with a fixed-width code, a whole body ends as `decode_fixed` of its bit stream, however the
bits are grouped into bytes. -/
def Obligations.FixedSessionIsDecodeFixed : Prop :=
  ∀ (s : State) (table : List CodeEntry) (body : List Byte), s.phase = .run → s.cause = 0 →
    s.kind = .fixedCode → DemuxShape s.demux s.l.toNat table → s.carry = 0 → s.ccnt = 0 → s.pvalid = false →
    s.holdv = false → s.out = [] →
    observed (runCommands (body.map Instr.dat ++ [.endBody]) s) =
      some (decodeBody s.fmt (decodeFixed table s.l.toNat) body).observation

/-- R230, the round trip: for every non-empty input, kind and format, the table and the body the reference producer
makes, the table loaded in any order, sent to the block in ANY state after `RST`, decode to the input. -/
def Obligations.DecodeOfEncodeIsTheInput : Prop :=
  ∀ (kind : Kind) (fmt : Fmt) (input : List Byte), input ≠ [] →
    ∃ table body, produceTable kind input = .ok table ∧ produceBody fmt table input = .ok body ∧
      ∀ (loaded : List CodeEntry) (s : State), loaded.Perm table →
        ∃ t : State,
          Host.Core.run core (sessionCommands kind fmt loaded body).length
            { s with input := presented (sessionCommands kind fmt loaded body) } = .next t ∧
          t.observe = ⟨input, .done, 0⟩

/-! ### The host-side reference -/

/-- R231: the Fano code of any input is prefix-free, and no codeword is empty. -/
def Obligations.FanoCodeIsPrefixFree : Prop :=
  ∀ input : List Byte,
    PrefixFree (fanoCode (probabilityList input)) ∧ ∀ e ∈ fanoCode (probabilityList input), e.code ≠ []

/-- R10: no codeword of the Fano code of `n` entries is longer than `n − 1` bits (one bit for a single entry). -/
def Obligations.FanoCodewordsAreShort : Prop :=
  ∀ (list : List ProbEntry), ∀ e ∈ fanoCode list, e.code.length ≤ max 1 (list.length - 1)

/-- R232, R210: the fixed-width code of an input has distinct codewords of exactly `max(1, ceil(log2(N)))` bits, at
most 8, and the entry of rank `r` in ascending symbol value has the value `r`. -/
def Obligations.FixedCodeIsDense : Prop :=
  ∀ input : List Byte, input ≠ [] →
    (∀ e ∈ fixedCode (presentSymbols input), e.code.length = max 1 (Nat.clog 2 (presentSymbols input).length)) ∧
    max 1 (Nat.clog 2 (presentSymbols input).length) ≤ 8 ∧
    ((fixedCode (presentSymbols input)).map fun e => bitsVal e.code) = List.range (presentSymbols input).length ∧
    ((fixedCode (presentSymbols input)).map fun e => e.sym.toNat).Pairwise (· < ·)

/-- R84, R212, R213: the padding count of a binary body, its length, and that its data bytes hold the bits. -/
def Obligations.BinaryBodyHoldsItsBits : Prop :=
  ∀ bits : Bits, ∃ pad data, binaryBody bits = pad :: data ∧ pad.toNat ≤ 7 ∧
    (pad.toNat = 0 ↔ bits.length % 8 = 0) ∧ bits.length + pad.toNat = 8 * data.length ∧
    dataBits pad.toNat data = bits

/-- R234: parsing the header text of a table gives the table back, for every symbol value. How the values 1 to 8 are
written, which R218 leaves to the serializer, is the model's choice (log entry 9). -/
def Obligations.HeaderRoundTrip : Prop :=
  ∀ table : List CodeEntry, (∀ e ∈ table, e.code ≠ []) → parseHeader (headerText table) = .ok table

/-- R219: the fields of a header line are delimited by whitespace, and a line with no codeword token is
`MalformedHeader`. Which bytes are whitespace, and that it may stand at the ends of a line, is the model's choice (log
entry 9). -/
def Obligations.HeaderLinesAreWhitespaceDelimited : Prop :=
  ∀ (e : CodeEntry) (before between after : List Byte),
    (∀ b ∈ before ++ between ++ after, isWhitespace b = true) → between ≠ [] → e.code ≠ [] →
    parseEntry (before ++ symbolToken e.sym ++ between ++ codewordToken e.code ++ after) = .ok e ∧
    parseEntry (before ++ symbolToken e.sym ++ after) = .error .malformedHeader

/-- R220 with D38: a header whose count disagrees with the entry lines present is `MalformedHeader`. -/
def Obligations.HeaderCountMustMatchTheLines : Prop :=
  ∀ (table : List CodeEntry) (n : Nat), (∀ e ∈ table, e.code ≠ []) → n ≠ table.length →
    parseHeader (decimal n ++ 0x0A :: table.flatMap fun e => entryLine e ++ [0x0A]) = .error .malformedHeader

/-- R221, R230, R234: the decode entry point, given what the encode entry point wrote for a non-empty input in the same
file layout, succeeds on a block in any state and writes the input. It rests on the rendering of the values 1 to 8 (log
entry 9) and on the layouts (log entry 20). -/
def Obligations.DecodeCallReturnsTheInput : Prop :=
  ∀ (layout : FileLayout) (kind : Kind) (fmt : Fmt) (input : List Byte) (s : State), input ≠ [] →
    ∃ e, encodeInput layout kind fmt input = .ok e ∧
      decodeCall layout kind fmt e.alphabet e.body s = some ⟨input, none⟩

/-- R221, R222: a decode call answers whatever streams it is given, in every file layout, and whatever state the block is
in: with the host's own error and no symbol where the header cannot be parsed; otherwise with every symbol the block
emitted, and with no error exactly where the session ended in `DONE`, or the kind in `CAUSE[7:4]` where it ended in
`FAULT`. A call never meets `IllegalCommand`. -/
def Obligations.DecodeCallAlwaysAnswers : Prop :=
  ∀ (layout : FileLayout) (kind : Kind) (fmt : Fmt) (alphabet body : List Byte) (s : State),
    (∀ e, readStreams layout fmt alphabet body = .error e → (e = .malformedHeader ∨ e = .invalidToken) ∧
      decodeCall layout kind fmt alphabet body s = some ⟨[], some e⟩) ∧
    (∀ table data, readStreams layout fmt alphabet body = .ok (table, data) →
      ∃ t, runSession (sessionCommands kind fmt table data) s = .next t ∧
        ((t.phase = .done ∧ decodeCall layout kind fmt alphabet body s = some ⟨t.out, none⟩) ∨
         (t.phase = .fault ∧ t.cause.extractLsb' 4 4 = 1#4 ∧
           decodeCall layout kind fmt alphabet body s = some ⟨t.out, some .malformedHeader⟩) ∨
         (t.phase = .fault ∧ t.cause.extractLsb' 4 4 = 2#4 ∧
           decodeCall layout kind fmt alphabet body s = some ⟨t.out, some .corruptStream⟩)))

/-- R215, R280: wherever the body lives, a header and a body written as the layout says are read back as they were: no
byte of the header is taken for the body, and none of the body for the header. Which layouts there are is the model's
choice (log entry 20). -/
def Obligations.StreamsGiveHeaderAndBodyBack : Prop :=
  ∀ (layout : FileLayout) (fmt : Fmt) (table : List CodeEntry) (body : List Byte),
    (layout.joins fmt = true →
      writeStreams layout fmt (headerText table) body = ⟨headerText table ++ body, []⟩) ∧
    splitStreams layout fmt (writeStreams layout fmt (headerText table) body).alphabet
      (writeStreams layout fmt (headerText table) body).body = .ok (headerText table, body)
end

