-- ==== Sys2Proof/Laws/Memory.lean ====
section
/-! SUPPORT. The laws of the internal memories: a read after a write, and the canonical form that every write keeps. -/

namespace Sys2Proof.Machine

namespace Memory

variable {α : Type}

@[simp] theorem lookup_nil (i : Nat) : lookup ([] : List (Nat × α)) i = none := rfl

theorem lookup_insert_same (m : List (Nat × α)) (i : Nat) (v : α) : lookup (insert m i v) i = some v := by
  induction m with
  | nil => simp [insert, lookup]
  | cons c rest ih =>
    obtain ⟨k, w⟩ := c
    simp only [insert]
    split
    · simp [lookup]
    · split
      · simp [lookup]
      · next h => simp [lookup, h, ih]

theorem lookup_insert_other (m : List (Nat × α)) {i j : Nat} (v : α) (h : j ≠ i) :
    lookup (insert m i v) j = lookup m j := by
  induction m with
  | nil => simp [insert, lookup, h.symm]
  | cons c rest ih =>
    obtain ⟨k, w⟩ := c
    simp only [insert]
    split
    · simp [lookup, h.symm]
    · split
      · next hk => subst hk; simp [lookup, h.symm]
      · simp [lookup, ih]

theorem lookup_erase_other (m : List (Nat × α)) {i j : Nat} (h : j ≠ i) :
    lookup (erase m i) j = lookup m j := by
  induction m with
  | nil => rfl
  | cons c rest ih =>
    obtain ⟨k, w⟩ := c
    simp only [erase]
    split
    · next hk => subst hk; simp [lookup, h.symm]
    · simp [lookup, ih]

theorem lookup_of_rising {low i : Nat} {m : List (Nat × α)} (h : rising low m = true) (hi : i < low) :
    lookup m i = none := by
  induction m generalizing low with
  | nil => rfl
  | cons c rest ih =>
    obtain ⟨k, w⟩ := c
    simp only [rising, Bool.and_eq_true, decide_eq_true_eq] at h
    have : ¬ k = i := by omega
    simp only [lookup, this, if_false]
    exact ih h.2 (by omega)

theorem rising_mono {low low' : Nat} {m : List (Nat × α)} (h : rising low m = true) (hl : low' ≤ low) :
    rising low' m = true := by
  cases m with
  | nil => rfl
  | cons c rest =>
    obtain ⟨k, w⟩ := c
    simp only [rising, Bool.and_eq_true, decide_eq_true_eq] at h ⊢
    exact ⟨by omega, h.2⟩

theorem lookup_erase_same {low i : Nat} {m : List (Nat × α)} (h : rising low m = true) :
    lookup (erase m i) i = none := by
  induction m generalizing low with
  | nil => rfl
  | cons c rest ih =>
    obtain ⟨k, w⟩ := c
    simp only [rising, Bool.and_eq_true, decide_eq_true_eq] at h
    simp only [erase]
    split
    · next hk => exact lookup_of_rising h.2 (by omega)
    · next hk => simp only [lookup, hk, if_false]; exact ih h.2

theorem rising_insert {low i : Nat} {m : List (Nat × α)} (v : α) (h : rising low m = true) (hi : low ≤ i) :
    rising low (insert m i v) = true := by
  induction m generalizing low with
  | nil => simp [insert, rising, hi]
  | cons c rest ih =>
    obtain ⟨k, w⟩ := c
    simp only [rising, Bool.and_eq_true, decide_eq_true_eq] at h
    simp only [insert]
    split
    · simp only [rising, Bool.and_eq_true, decide_eq_true_eq]; exact ⟨hi, by omega, h.2⟩
    · split
      · next hk => subst hk; simp only [rising, Bool.and_eq_true, decide_eq_true_eq]; exact ⟨hi, h.2⟩
      · simp only [rising, Bool.and_eq_true, decide_eq_true_eq]
        exact ⟨h.1, ih h.2 (by omega)⟩

theorem rising_erase {low i : Nat} {m : List (Nat × α)} (h : rising low m = true) :
    rising low (erase m i) = true := by
  induction m generalizing low with
  | nil => rfl
  | cons c rest ih =>
    obtain ⟨k, w⟩ := c
    simp only [rising, Bool.and_eq_true, decide_eq_true_eq] at h
    simp only [erase]
    split
    · exact rising_mono h.2 (by omega)
    · simp only [rising, Bool.and_eq_true, decide_eq_true_eq]; exact ⟨h.1, ih h.2⟩

theorem mem_insert {m : List (Nat × α)} {i : Nat} {v : α} {c : Nat × α} (h : c ∈ insert m i v) :
    c = (i, v) ∨ c ∈ m := by
  induction m with
  | nil => simpa [insert] using h
  | cons d rest ih =>
    obtain ⟨k, w⟩ := d
    simp only [insert] at h
    split at h
    · simpa using h
    · split at h
      · simp only [List.mem_cons] at h ⊢; tauto
      · simp only [List.mem_cons] at h ⊢
        rcases h with h | h
        · exact .inr (.inl h)
        · rcases ih h with h | h <;> tauto

theorem mem_erase {m : List (Nat × α)} {i : Nat} {c : Nat × α} (h : c ∈ erase m i) : c ∈ m := by
  induction m with
  | nil => exact h
  | cons d rest ih =>
    obtain ⟨k, w⟩ := d
    simp only [erase] at h
    split at h
    · exact List.mem_cons_of_mem _ h
    · simp only [List.mem_cons] at h ⊢
      rcases h with h | h
      · exact .inl h
      · exact .inr (ih h)

variable [DecidableEq α]

theorem wf_nil (sp : Space α) : wf sp [] = true := rfl

/-- Every write keeps the canonical form. -/
theorem wf_put {sp : Space α} {m : List (Nat × α)} {i : Nat} (v : α) (h : wf sp m = true) (hi : i < sp.size) :
    wf sp (put sp m i v) = true := by
  simp only [wf, Bool.and_eq_true, List.all_eq_true, decide_eq_true_eq] at h ⊢
  simp only [put]
  split
  · exact ⟨rising_erase h.1, fun c hc => h.2 c (mem_erase hc)⟩
  · next hv =>
    refine ⟨rising_insert v h.1 (Nat.zero_le _), fun c hc => ?_⟩
    rcases mem_insert hc with rfl | hc
    · exact ⟨hi, hv⟩
    · exact h.2 c hc

/-- The free contents after a fault are in canonical form too. -/
theorem wf_ofCells (sp : Space α) (cells : List (Nat × α)) : wf sp (ofCells sp cells) = true := by
  have key : ∀ (cells m : List (Nat × α)), wf sp m = true →
      wf sp (cells.foldl (fun m c => if c.1 < sp.size then put sp m c.1 c.2 else m) m) = true := by
    intro cells
    induction cells with
    | nil => intro m h; exact h
    | cons c rest ih =>
      intro m h
      simp only [List.foldl_cons]
      apply ih
      split
      · next hi => exact wf_put _ h hi
      · exact h
  exact key cells [] (wf_nil sp)

/-- A read after a write of the same element. -/
theorem read_put_same {sp : Space α} {m : List (Nat × α)} {i : Nat} (v : α) (h : wf sp m = true)
    (hi : i < sp.size) : read sp (put sp m i v) i = .ok v := by
  simp only [wf, Bool.and_eq_true] at h
  have hl : (lookup (put sp m i v) i).or sp.unlisted = some v := by
    by_cases hv : sp.unlisted = some v
    · simp [put, hv, lookup_erase_same h.1]
    · simp [put, hv, lookup_insert_same]
  simp [read, hi, hl]

/-- A read after a write of the same element, in a space whose unlisted elements hold no value, whatever the
memory's form. -/
theorem read_put_unlisted {sp : Space α} {m : List (Nat × α)} {i : Nat} (v : α) (h : sp.unlisted = none)
    (hi : i < sp.size) : read sp (put sp m i v) i = .ok v := by
  simp [read, put, h, hi, lookup_insert_same]

/-- A write leaves every other element alone. -/
theorem read_put_other {sp : Space α} {m : List (Nat × α)} {i j : Nat} (v : α) (h : j ≠ i) :
    read sp (put sp m i v) j = read sp m j := by
  have hl : lookup (put sp m i v) j = lookup m j := by
    by_cases hv : sp.unlisted = some v
    · simp [put, hv, lookup_erase_other _ h]
    · simp [put, hv, lookup_insert_other _ _ h]
  simp [read, hl]

theorem write_ok {sp : Space α} {m : List (Nat × α)} {i : Nat} {v : α} (hi : i < sp.size) :
    write sp m i v = .ok (put sp m i v) := by simp [write, hi]

/-- Everything a write can do. -/
theorem write_cases {sp : Space α} {m m' : List (Nat × α)} {i : Nat} {v : α} (h : write sp m i v = .ok m') :
    i < sp.size ∧ m' = put sp m i v := by
  simp only [write] at h
  split at h
  · next hi => exact ⟨hi, by simpa using h.symm⟩
  · simp at h

omit [DecidableEq α] in
theorem read_ok_lt {sp : Space α} {m : List (Nat × α)} {i : Nat} {v : α} (h : read sp m i = .ok v) :
    i < sp.size := by
  simp only [read] at h
  split at h
  · assumption
  · simp at h

end Memory

/-- An element of `DEMUX` always holds a value (R42). -/
theorem read_demux_ok {m : List (Nat × DemuxElem)} {v : Nat} (hv : v < 256) :
    ∃ d, Memory.read demuxSpace m v = .ok d := by
  cases h : Memory.lookup m v <;> simp [Memory.read, demuxSpace, Config.demuxMax, hv, h]

end Sys2Proof.Machine
end

