-- ==== Sys2Proof/Laws/State.lean ====
section
/-! SUPPORT. What each named update of the state does to each field: one lemma per field per update, true by rfl. -/

namespace Sys2Proof.Machine

/-! ### `State.emit` -/

@[simp] theorem State.emit_phase (sym : Sym) (s : State) : (s.emit sym).phase = s.phase := rfl
@[simp] theorem State.emit_mode (sym : Sym) (s : State) : (s.emit sym).mode = s.mode := rfl
@[simp] theorem State.emit_cause (sym : Sym) (s : State) : (s.emit sym).cause = s.cause := rfl
@[simp] theorem State.emit_nent (sym : Sym) (s : State) : (s.emit sym).nent = s.nent := rfl
@[simp] theorem State.emit_ct (sym : Sym) (s : State) : (s.emit sym).ct = s.ct := rfl
@[simp] theorem State.emit_nnode (sym : Sym) (s : State) : (s.emit sym).nnode = s.nnode := rfl
@[simp] theorem State.emit_node (sym : Sym) (s : State) : (s.emit sym).node = s.node := rfl
@[simp] theorem State.emit_l (sym : Sym) (s : State) : (s.emit sym).l = s.l := rfl
@[simp] theorem State.emit_demux (sym : Sym) (s : State) : (s.emit sym).demux = s.demux := rfl
@[simp] theorem State.emit_pvalid (sym : Sym) (s : State) : (s.emit sym).pvalid = s.pvalid := rfl
@[simp] theorem State.emit_p (sym : Sym) (s : State) : (s.emit sym).p = s.p := rfl
@[simp] theorem State.emit_holdv (sym : Sym) (s : State) : (s.emit sym).holdv = s.holdv := rfl
@[simp] theorem State.emit_hold (sym : Sym) (s : State) : (s.emit sym).hold = s.hold := rfl
@[simp] theorem State.emit_cursor (sym : Sym) (s : State) : (s.emit sym).cursor = s.cursor := rfl
@[simp] theorem State.emit_carry (sym : Sym) (s : State) : (s.emit sym).carry = s.carry := rfl
@[simp] theorem State.emit_ccnt (sym : Sym) (s : State) : (s.emit sym).ccnt = s.ccnt := rfl
@[simp] theorem State.emit_out (sym : Sym) (s : State) : (s.emit sym).out = s.out ++ [sym] := rfl
@[simp] theorem State.emit_input (sym : Sym) (s : State) : (s.emit sym).input = s.input := rfl
@[simp] theorem State.emit_draws (sym : Sym) (s : State) : (s.emit sym).draws = s.draws := rfl

/-! ### `State.setPadding` -/

@[simp] theorem State.setPadding_phase (v : Byte) (s : State) : (s.setPadding v).phase = s.phase := rfl
@[simp] theorem State.setPadding_mode (v : Byte) (s : State) : (s.setPadding v).mode = s.mode := rfl
@[simp] theorem State.setPadding_cause (v : Byte) (s : State) : (s.setPadding v).cause = s.cause := rfl
@[simp] theorem State.setPadding_nent (v : Byte) (s : State) : (s.setPadding v).nent = s.nent := rfl
@[simp] theorem State.setPadding_ct (v : Byte) (s : State) : (s.setPadding v).ct = s.ct := rfl
@[simp] theorem State.setPadding_nnode (v : Byte) (s : State) : (s.setPadding v).nnode = s.nnode := rfl
@[simp] theorem State.setPadding_node (v : Byte) (s : State) : (s.setPadding v).node = s.node := rfl
@[simp] theorem State.setPadding_l (v : Byte) (s : State) : (s.setPadding v).l = s.l := rfl
@[simp] theorem State.setPadding_demux (v : Byte) (s : State) : (s.setPadding v).demux = s.demux := rfl
@[simp] theorem State.setPadding_pvalid (v : Byte) (s : State) : (s.setPadding v).pvalid = true := rfl
@[simp] theorem State.setPadding_p (v : Byte) (s : State) : (s.setPadding v).p = v.extractLsb' 0 3 := rfl
@[simp] theorem State.setPadding_holdv (v : Byte) (s : State) : (s.setPadding v).holdv = s.holdv := rfl
@[simp] theorem State.setPadding_hold (v : Byte) (s : State) : (s.setPadding v).hold = s.hold := rfl
@[simp] theorem State.setPadding_cursor (v : Byte) (s : State) : (s.setPadding v).cursor = s.cursor := rfl
@[simp] theorem State.setPadding_carry (v : Byte) (s : State) : (s.setPadding v).carry = s.carry := rfl
@[simp] theorem State.setPadding_ccnt (v : Byte) (s : State) : (s.setPadding v).ccnt = s.ccnt := rfl
@[simp] theorem State.setPadding_out (v : Byte) (s : State) : (s.setPadding v).out = s.out := rfl
@[simp] theorem State.setPadding_input (v : Byte) (s : State) : (s.setPadding v).input = s.input := rfl
@[simp] theorem State.setPadding_draws (v : Byte) (s : State) : (s.setPadding v).draws = s.draws := rfl

/-! ### `State.holdByte` -/

@[simp] theorem State.holdByte_phase (b : Byte) (s : State) : (s.holdByte b).phase = s.phase := rfl
@[simp] theorem State.holdByte_mode (b : Byte) (s : State) : (s.holdByte b).mode = s.mode := rfl
@[simp] theorem State.holdByte_cause (b : Byte) (s : State) : (s.holdByte b).cause = s.cause := rfl
@[simp] theorem State.holdByte_nent (b : Byte) (s : State) : (s.holdByte b).nent = s.nent := rfl
@[simp] theorem State.holdByte_ct (b : Byte) (s : State) : (s.holdByte b).ct = s.ct := rfl
@[simp] theorem State.holdByte_nnode (b : Byte) (s : State) : (s.holdByte b).nnode = s.nnode := rfl
@[simp] theorem State.holdByte_node (b : Byte) (s : State) : (s.holdByte b).node = s.node := rfl
@[simp] theorem State.holdByte_l (b : Byte) (s : State) : (s.holdByte b).l = s.l := rfl
@[simp] theorem State.holdByte_demux (b : Byte) (s : State) : (s.holdByte b).demux = s.demux := rfl
@[simp] theorem State.holdByte_pvalid (b : Byte) (s : State) : (s.holdByte b).pvalid = s.pvalid := rfl
@[simp] theorem State.holdByte_p (b : Byte) (s : State) : (s.holdByte b).p = s.p := rfl
@[simp] theorem State.holdByte_holdv (b : Byte) (s : State) : (s.holdByte b).holdv = true := rfl
@[simp] theorem State.holdByte_hold (b : Byte) (s : State) : (s.holdByte b).hold = b := rfl
@[simp] theorem State.holdByte_cursor (b : Byte) (s : State) : (s.holdByte b).cursor = s.cursor := rfl
@[simp] theorem State.holdByte_carry (b : Byte) (s : State) : (s.holdByte b).carry = s.carry := rfl
@[simp] theorem State.holdByte_ccnt (b : Byte) (s : State) : (s.holdByte b).ccnt = s.ccnt := rfl
@[simp] theorem State.holdByte_out (b : Byte) (s : State) : (s.holdByte b).out = s.out := rfl
@[simp] theorem State.holdByte_input (b : Byte) (s : State) : (s.holdByte b).input = s.input := rfl
@[simp] theorem State.holdByte_draws (b : Byte) (s : State) : (s.holdByte b).draws = s.draws := rfl

/-! ### `State.releaseHold` -/

@[simp] theorem State.releaseHold_phase (s : State) : (s.releaseHold).phase = s.phase := rfl
@[simp] theorem State.releaseHold_mode (s : State) : (s.releaseHold).mode = s.mode := rfl
@[simp] theorem State.releaseHold_cause (s : State) : (s.releaseHold).cause = s.cause := rfl
@[simp] theorem State.releaseHold_nent (s : State) : (s.releaseHold).nent = s.nent := rfl
@[simp] theorem State.releaseHold_ct (s : State) : (s.releaseHold).ct = s.ct := rfl
@[simp] theorem State.releaseHold_nnode (s : State) : (s.releaseHold).nnode = s.nnode := rfl
@[simp] theorem State.releaseHold_node (s : State) : (s.releaseHold).node = s.node := rfl
@[simp] theorem State.releaseHold_l (s : State) : (s.releaseHold).l = s.l := rfl
@[simp] theorem State.releaseHold_demux (s : State) : (s.releaseHold).demux = s.demux := rfl
@[simp] theorem State.releaseHold_pvalid (s : State) : (s.releaseHold).pvalid = s.pvalid := rfl
@[simp] theorem State.releaseHold_p (s : State) : (s.releaseHold).p = s.p := rfl
@[simp] theorem State.releaseHold_holdv (s : State) : (s.releaseHold).holdv = false := rfl
@[simp] theorem State.releaseHold_hold (s : State) : (s.releaseHold).hold = s.hold := rfl
@[simp] theorem State.releaseHold_cursor (s : State) : (s.releaseHold).cursor = s.cursor := rfl
@[simp] theorem State.releaseHold_carry (s : State) : (s.releaseHold).carry = s.carry := rfl
@[simp] theorem State.releaseHold_ccnt (s : State) : (s.releaseHold).ccnt = s.ccnt := rfl
@[simp] theorem State.releaseHold_out (s : State) : (s.releaseHold).out = s.out := rfl
@[simp] theorem State.releaseHold_input (s : State) : (s.releaseHold).input = s.input := rfl
@[simp] theorem State.releaseHold_draws (s : State) : (s.releaseHold).draws = s.draws := rfl

/-! ### `State.dropInput` -/

@[simp] theorem State.dropInput_phase (s : State) : (s.dropInput).phase = s.phase := rfl
@[simp] theorem State.dropInput_mode (s : State) : (s.dropInput).mode = s.mode := rfl
@[simp] theorem State.dropInput_cause (s : State) : (s.dropInput).cause = s.cause := rfl
@[simp] theorem State.dropInput_nent (s : State) : (s.dropInput).nent = s.nent := rfl
@[simp] theorem State.dropInput_ct (s : State) : (s.dropInput).ct = s.ct := rfl
@[simp] theorem State.dropInput_nnode (s : State) : (s.dropInput).nnode = s.nnode := rfl
@[simp] theorem State.dropInput_node (s : State) : (s.dropInput).node = s.node := rfl
@[simp] theorem State.dropInput_l (s : State) : (s.dropInput).l = s.l := rfl
@[simp] theorem State.dropInput_demux (s : State) : (s.dropInput).demux = s.demux := rfl
@[simp] theorem State.dropInput_pvalid (s : State) : (s.dropInput).pvalid = s.pvalid := rfl
@[simp] theorem State.dropInput_p (s : State) : (s.dropInput).p = s.p := rfl
@[simp] theorem State.dropInput_holdv (s : State) : (s.dropInput).holdv = s.holdv := rfl
@[simp] theorem State.dropInput_hold (s : State) : (s.dropInput).hold = s.hold := rfl
@[simp] theorem State.dropInput_cursor (s : State) : (s.dropInput).cursor = s.cursor := rfl
@[simp] theorem State.dropInput_carry (s : State) : (s.dropInput).carry = s.carry := rfl
@[simp] theorem State.dropInput_ccnt (s : State) : (s.dropInput).ccnt = s.ccnt := rfl
@[simp] theorem State.dropInput_out (s : State) : (s.dropInput).out = s.out := rfl
@[simp] theorem State.dropInput_input (s : State) : (s.dropInput).input = s.input.tail := rfl
@[simp] theorem State.dropInput_draws (s : State) : (s.dropInput).draws = s.draws := rfl

/-! ### `State.present` -/

@[simp] theorem State.present_phase (w : Word) (s : State) : (s.present w).phase = s.phase := rfl
@[simp] theorem State.present_mode (w : Word) (s : State) : (s.present w).mode = s.mode := rfl
@[simp] theorem State.present_cause (w : Word) (s : State) : (s.present w).cause = s.cause := rfl
@[simp] theorem State.present_nent (w : Word) (s : State) : (s.present w).nent = s.nent := rfl
@[simp] theorem State.present_ct (w : Word) (s : State) : (s.present w).ct = s.ct := rfl
@[simp] theorem State.present_nnode (w : Word) (s : State) : (s.present w).nnode = s.nnode := rfl
@[simp] theorem State.present_node (w : Word) (s : State) : (s.present w).node = s.node := rfl
@[simp] theorem State.present_l (w : Word) (s : State) : (s.present w).l = s.l := rfl
@[simp] theorem State.present_demux (w : Word) (s : State) : (s.present w).demux = s.demux := rfl
@[simp] theorem State.present_pvalid (w : Word) (s : State) : (s.present w).pvalid = s.pvalid := rfl
@[simp] theorem State.present_p (w : Word) (s : State) : (s.present w).p = s.p := rfl
@[simp] theorem State.present_holdv (w : Word) (s : State) : (s.present w).holdv = s.holdv := rfl
@[simp] theorem State.present_hold (w : Word) (s : State) : (s.present w).hold = s.hold := rfl
@[simp] theorem State.present_cursor (w : Word) (s : State) : (s.present w).cursor = s.cursor := rfl
@[simp] theorem State.present_carry (w : Word) (s : State) : (s.present w).carry = s.carry := rfl
@[simp] theorem State.present_ccnt (w : Word) (s : State) : (s.present w).ccnt = s.ccnt := rfl
@[simp] theorem State.present_out (w : Word) (s : State) : (s.present w).out = s.out := rfl
@[simp] theorem State.present_input (w : Word) (s : State) : (s.present w).input = .word w :: s.input := rfl
@[simp] theorem State.present_draws (w : Word) (s : State) : (s.present w).draws = s.draws := rfl

/-! ### `State.resetSession` -/

@[simp] theorem State.resetSession_phase (s : State) : (s.resetSession).phase = .idle := rfl
@[simp] theorem State.resetSession_mode (s : State) : (s.resetSession).mode = 0 := rfl
@[simp] theorem State.resetSession_cause (s : State) : (s.resetSession).cause = 0 := rfl
@[simp] theorem State.resetSession_nent (s : State) : (s.resetSession).nent = 0 := rfl
@[simp] theorem State.resetSession_ct (s : State) : (s.resetSession).ct = [] := rfl
@[simp] theorem State.resetSession_nnode (s : State) : (s.resetSession).nnode = 0 := rfl
@[simp] theorem State.resetSession_node (s : State) : (s.resetSession).node = [] := rfl
@[simp] theorem State.resetSession_l (s : State) : (s.resetSession).l = 0 := rfl
@[simp] theorem State.resetSession_demux (s : State) : (s.resetSession).demux = [] := rfl
@[simp] theorem State.resetSession_pvalid (s : State) : (s.resetSession).pvalid = false := rfl
@[simp] theorem State.resetSession_p (s : State) : (s.resetSession).p = 0 := rfl
@[simp] theorem State.resetSession_holdv (s : State) : (s.resetSession).holdv = false := rfl
@[simp] theorem State.resetSession_hold (s : State) : (s.resetSession).hold = 0 := rfl
@[simp] theorem State.resetSession_cursor (s : State) : (s.resetSession).cursor = 0 := rfl
@[simp] theorem State.resetSession_carry (s : State) : (s.resetSession).carry = 0 := rfl
@[simp] theorem State.resetSession_ccnt (s : State) : (s.resetSession).ccnt = 0 := rfl
@[simp] theorem State.resetSession_out (s : State) : (s.resetSession).out = [] := rfl
@[simp] theorem State.resetSession_input (s : State) : (s.resetSession).input = s.input := rfl
@[simp] theorem State.resetSession_draws (s : State) : (s.resetSession).draws = s.draws := rfl

/-! ### `State.enterFault`: the fields a claim may speak about; the others are free values -/

@[simp] theorem State.enterFault_phase (c : Cause) (s : State) : (s.enterFault c).phase = .fault := rfl
@[simp] theorem State.enterFault_cause (c : Cause) (s : State) : (s.enterFault c).cause = c.code := rfl
@[simp] theorem State.enterFault_ct (c : Cause) (s : State) : (s.enterFault c).ct = Memory.ofCells ctSpace (Config.afterFault s.draws).ct := rfl
@[simp] theorem State.enterFault_node (c : Cause) (s : State) : (s.enterFault c).node = Memory.ofCells nodeSpace (Config.afterFault s.draws).node := rfl
@[simp] theorem State.enterFault_demux (c : Cause) (s : State) : (s.enterFault c).demux = Memory.ofCells demuxSpace (Config.afterFault s.draws).demux := rfl
@[simp] theorem State.enterFault_out (c : Cause) (s : State) : (s.enterFault c).out = s.out := rfl
@[simp] theorem State.enterFault_input (c : Cause) (s : State) : (s.enterFault c).input = s.input := rfl
@[simp] theorem State.enterFault_draws (c : Cause) (s : State) : (s.enterFault c).draws = s.draws + 1 := rfl

@[simp] theorem State.emit_kind (sym : Sym) (s : State) : (s.emit sym).kind = s.kind := rfl
@[simp] theorem State.emit_fmt (sym : Sym) (s : State) : (s.emit sym).fmt = s.fmt := rfl
@[simp] theorem State.emit_table (sym : Sym) (s : State) : (s.emit sym).table = s.table := rfl
@[simp] theorem State.emit_endCheck (sym : Sym) (s : State) : (s.emit sym).endCheck = s.endCheck := rfl
@[simp] theorem State.setPadding_kind (v : Byte) (s : State) : (s.setPadding v).kind = s.kind := rfl
@[simp] theorem State.setPadding_fmt (v : Byte) (s : State) : (s.setPadding v).fmt = s.fmt := rfl
@[simp] theorem State.setPadding_table (v : Byte) (s : State) : (s.setPadding v).table = s.table := rfl
@[simp] theorem State.setPadding_endCheck (v : Byte) (s : State) : (s.setPadding v).endCheck = s.endCheck := rfl
@[simp] theorem State.holdByte_kind (b : Byte) (s : State) : (s.holdByte b).kind = s.kind := rfl
@[simp] theorem State.holdByte_fmt (b : Byte) (s : State) : (s.holdByte b).fmt = s.fmt := rfl
@[simp] theorem State.holdByte_table (b : Byte) (s : State) : (s.holdByte b).table = s.table := rfl
@[simp] theorem State.holdByte_endCheck (b : Byte) (s : State) : (s.holdByte b).endCheck = s.endCheck := rfl
@[simp] theorem State.releaseHold_kind (s : State) : (s.releaseHold).kind = s.kind := rfl
@[simp] theorem State.releaseHold_fmt (s : State) : (s.releaseHold).fmt = s.fmt := rfl
@[simp] theorem State.releaseHold_table (s : State) : (s.releaseHold).table = s.table := rfl
@[simp] theorem State.releaseHold_endCheck (s : State) : (s.releaseHold).endCheck = s.endCheck := rfl
@[simp] theorem State.dropInput_kind (s : State) : (s.dropInput).kind = s.kind := rfl
@[simp] theorem State.dropInput_fmt (s : State) : (s.dropInput).fmt = s.fmt := rfl
@[simp] theorem State.dropInput_table (s : State) : (s.dropInput).table = s.table := rfl
@[simp] theorem State.dropInput_endCheck (s : State) : (s.dropInput).endCheck = s.endCheck := rfl
@[simp] theorem State.present_kind (w : Word) (s : State) : (s.present w).kind = s.kind := rfl
@[simp] theorem State.present_fmt (w : Word) (s : State) : (s.present w).fmt = s.fmt := rfl
@[simp] theorem State.present_table (w : Word) (s : State) : (s.present w).table = s.table := rfl
@[simp] theorem State.present_endCheck (w : Word) (s : State) : (s.present w).endCheck = s.endCheck := rfl

end Sys2Proof.Machine
end

