-- ==== Sys2Proof/Laws/Result.lean ====
section
/-! SUPPORT. The laws of `Result`, of `forEach`, and of the checks every command makes first: what `command` can
answer, said once. -/

namespace Sys2Proof.Machine

namespace Result

variable {α β γ : Type}

@[simp] theorem bind_ok (a : α) (s : State) (f : α → State → Result β) : (Result.ok a s).bind f = f a s := rfl
@[simp] theorem bind_raised (c : Cause) (s : State) (f : α → State → Result β) :
    (Result.raised c s : Result α).bind f = .raised c s := rfl
@[simp] theorem bind_stop (g : Fault) (f : α → State → Result β) :
    (Result.stop g : Result α).bind f = .stop g := rfl

theorem bind_assoc (r : Result α) (f : α → State → Result β) (g : β → State → Result γ) :
    (r.bind f).bind g = r.bind fun a s => (f a s).bind g := by cases r <;> rfl

/-- How a sequence can run to its end. -/
theorem bind_eq_ok {r : Result α} {f : α → State → Result β} {b : β} {t : State} :
    r.bind f = .ok b t ↔ ∃ a s, r = .ok a s ∧ f a s = .ok b t := by
  cases r <;> simp

/-- How a sequence can raise a fault. -/
theorem bind_eq_raised {r : Result α} {f : α → State → Result β} {c : Cause} {t : State} :
    r.bind f = .raised c t ↔ r = .raised c t ∨ ∃ a s, r = .ok a s ∧ f a s = .raised c t := by
  cases r <;> simp

/-- How a sequence can stop the machine. -/
theorem bind_eq_stop {r : Result α} {f : α → State → Result β} {g : Fault} :
    r.bind f = .stop g ↔ r = .stop g ∨ ∃ a s, r = .ok a s ∧ f a s = .stop g := by
  cases r <;> simp

@[simp] theorem ofExcept_ok (a : α) (s : State) : ofExcept (.ok a) s = .ok a s := rfl
@[simp] theorem ofExcept_error (g : Fault) (s : State) : (ofExcept (.error g) s : Result α) = .stop g := rfl

@[simp] theorem finish_ok (s : State) : (Result.ok () s).finish = .next s := rfl
@[simp] theorem finish_raised (c : Cause) (s : State) :
    (Result.raised c s : Result Unit).finish = .next (s.enterFault c) := rfl
@[simp] theorem finish_stop (g : Fault) : (Result.stop g : Result Unit).finish = .fault g := rfl

/-- What a command's pseudocode can leave behind. -/
theorem finish_eq_next {r : Result Unit} {t : State} :
    r.finish = .next t ↔ r = .ok () t ∨ ∃ c u, r = .raised c u ∧ t = u.enterFault c := by
  cases r <;> simp [finish, eq_comm]

theorem finish_not_refused (r : Result Unit) (e : Refusal) : r.finish ≠ .refused e := by
  cases r <;> simp [finish]

end Result

/-! ### `forEach` -/

@[simp] theorem forEach_nil {α : Type} (f : α → State → Result Unit) (s : State) :
    forEach f [] s = .ok () s := rfl

@[simp] theorem forEach_cons {α : Type} (f : α → State → Result Unit) (a : α) (l : List α) (s : State) :
    forEach f (a :: l) s = (f a s).bind fun _ s' => forEach f l s' := rfl

theorem forEach_append {α : Type} (f : α → State → Result Unit) (l₁ l₂ : List α) (s : State) :
    forEach f (l₁ ++ l₂) s = (forEach f l₁ s).bind fun _ s' => forEach f l₂ s' := by
  induction l₁ generalizing s with
  | nil => rfl
  | cons a rest ih => simp [Result.bind_assoc, ih]

/-- A relation between states that is reflexive and transitive and that every turn keeps, however the turn ends,
holds from the start of a loop to its end. -/
theorem forEach_rel {α : Type} {f : α → State → Result Unit} {R : State → State → Prop}
    (refl : ∀ s, R s s) (trans : ∀ s t u, R s t → R t u → R s u)
    (hok : ∀ a s t, f a s = .ok () t → R s t) (hraised : ∀ a s c t, f a s = .raised c t → R s t) (l : List α)
    (s : State) :
    (∀ t, forEach f l s = .ok () t → R s t) ∧ (∀ c t, forEach f l s = .raised c t → R s t) := by
  induction l generalizing s with
  | nil => simp [refl]
  | cons a rest ih =>
    refine ⟨fun t h => ?_, fun c t h => ?_⟩
    · obtain ⟨_, u, h₁, h₂⟩ := Result.bind_eq_ok.1 h
      exact trans _ _ _ (hok _ _ _ h₁) ((ih u).1 t h₂)
    · rcases Result.bind_eq_raised.1 h with h | ⟨_, u, h₁, h₂⟩
      · exact hraised _ _ _ _ h
      · exact trans _ _ _ (hok _ _ _ h₁) ((ih u).2 c t h₂)

/-! ### `command` -/

variable {op : Opcode} {arg : Byte} {body : State → Result Unit} {s t : State}

/-- In phase `FAULT` a command other than `RST` is ignored (R81). -/
theorem command_in_fault (h : s.phase = .fault) (hop : op ≠ .rst) : command op arg body s = .next s := by
  simp [command, h, hop]

/-- A legal command runs its pseudocode. -/
theorem command_legal (hf : s.phase = .fault → op = .rst) (hr : op.reservedClear arg = true)
    (hl : legalIn op s.phase = true) : command op arg body s = (body s).finish := by
  have : ¬ (s.phase = .fault ∧ op ≠ .rst) := fun h => h.2 (hf h.1)
  simp [command, this, hr, hl]

/-- Everything a command can answer. -/
theorem command_cases {o : Host.Outcome State Fault Refusal} (h : command op arg body s = o) :
    (s.phase = .fault ∧ op ≠ .rst ∧ o = .next s) ∨
    (op.reservedClear arg = false ∧ o = .next (s.enterFault .icReservedBits)) ∨
    (legalIn op s.phase = false ∧ o = .next (s.enterFault .icWrongPhase)) ∨
    (op.reservedClear arg = true ∧ legalIn op s.phase = true ∧ (s.phase = .fault → op = .rst) ∧
      o = (body s).finish) := by
  simp only [command] at h
  split at h
  · next hf => exact .inl ⟨hf.1, hf.2, h.symm⟩
  · next hf =>
    split at h
    · next hr => exact .inr (.inl ⟨hr, h.symm⟩)
    · next hr =>
      split at h
      · next hl => exact .inr (.inr (.inl ⟨hl, h.symm⟩))
      · next hl =>
        refine .inr (.inr (.inr ⟨by simpa using hr, by simpa using hl, fun hp => ?_, h.symm⟩))
        by_contra hop
        exact hf ⟨hp, hop⟩

/-- No command is refused. -/
theorem command_not_refused (e : Refusal) : command op arg body s ≠ .refused e := by
  intro h
  rcases command_cases h with ⟨_, _, h⟩ | ⟨_, h⟩ | ⟨_, h⟩ | ⟨_, _, _, h⟩
  all_goals first | exact Result.finish_not_refused _ _ h.symm | simp at h

end Sys2Proof.Machine
end

