-- ==== Sys2Proof/Laws/Body.lean ====
section
/-! SUPPORT. The spec lemmas of the micro-operations of the body stream (spec/43_prefix_walk.md R171,
spec/44_fixed_demux.md R181 to R183, spec/42_body_stream.md R142 to R149): everything each of them can do, and
what none of them touches. -/

namespace Sys2Proof.Machine

/-- `t` differs from `s` only in `CURSOR`, `CARRY`, `CCNT` and at most `n` symbols appended to `OUT`. -/
def Decodes (n : Nat) (s t : State) : Prop :=
  ∃ cursor carry ccnt extra, extra.length ≤ n ∧
    t = { s with cursor := cursor, carry := carry, ccnt := ccnt, out := s.out ++ extra }

theorem Decodes.refl (n : Nat) (s : State) : Decodes n s s :=
  ⟨s.cursor, s.carry, s.ccnt, [], by simp, by simp⟩

theorem Decodes.trans {m n : Nat} {s t u : State} (h₁ : Decodes m s t) (h₂ : Decodes n t u) :
    Decodes (m + n) s u := by
  obtain ⟨_, _, _, x₁, hx₁, rfl⟩ := h₁
  obtain ⟨a, b, c, x₂, hx₂, rfl⟩ := h₂
  exact ⟨a, b, c, x₁ ++ x₂, by simp; omega, by simp⟩

theorem Decodes.mono {m n : Nat} {s t : State} (h : Decodes m s t) (hmn : m ≤ n) : Decodes n s t := by
  obtain ⟨a, b, c, x, hx, rfl⟩ := h
  exact ⟨a, b, c, x, by omega, rfl⟩

/-- A result that, however it ends, ends in a state related to `s`. -/
def Result.Ends (R : State → Prop) (r : Result Unit) : Prop :=
  match r with
  | .ok _ t => R t
  | .raised _ t => R t
  | .stop _ => True

theorem Result.Ends.ok {R : State → Prop} {r : Result Unit} {t : State} (h : r.Ends R) (e : r = .ok () t) : R t := by
  subst e; exact h

theorem Result.Ends.raised {R : State → Prop} {r : Result Unit} {c : Cause} {t : State} (h : r.Ends R)
    (e : r = .raised c t) : R t := by
  subst e; exact h

theorem Result.Ends.bind {R S : State → Prop} {r : Result Unit} {f : Unit → State → Result Unit} (h : r.Ends R)
    (hR : ∀ t, R t → S t) (hf : ∀ t, R t → (f () t).Ends S) : (r.bind f).Ends S := by
  cases r with
  | ok a t => exact hf t h
  | raised c t => exact hR t h
  | stop g => trivial

theorem Result.Ends.mono {R S : State → Prop} {r : Result Unit} (h : r.Ends R) (hR : ∀ t, R t → S t) : r.Ends S := by
  cases r with
  | ok a t => exact hR t h
  | raised c t => exact hR t h
  | stop g => trivial

/-! ### The prefix walker -/

/-- Everything `PSTEP` can do (R171), from a cursor whose node is known. -/
theorem pstep_eq {b : Bool} {s : State} {n : TrieNode}
    (hn : Memory.read nodeSpace s.node s.cursor.toNat = .ok n) :
    (n.child b = none ∧ pstep b s = .raised .csDeadEnd s) ∨
    (∃ t m, n.child b = some t ∧ Memory.read nodeSpace s.node t.toNat = .ok m ∧ m.leaf = true ∧
      pstep b s = .ok () { s.emit m.sym with cursor := 0 }) ∨
    (∃ t m, n.child b = some t ∧ Memory.read nodeSpace s.node t.toNat = .ok m ∧ m.leaf = false ∧
      pstep b s = .ok () { s with cursor := t }) ∨
    (∃ t f, n.child b = some t ∧ Memory.read nodeSpace s.node t.toNat = .error f ∧ pstep b s = .stop f) := by
  cases hc : n.child b with
  | none => exact .inl ⟨rfl, by simp [pstep, hn, hc]⟩
  | some t =>
    right
    cases hm : Memory.read nodeSpace s.node t.toNat with
    | error f => exact .inr (.inr ⟨t, f, rfl, hm, by simp [pstep, hn, hc, hm]⟩)
    | ok m =>
      cases hl : m.leaf with
      | true => exact .inl ⟨t, m, rfl, hm, hl, by simp [pstep, hn, hc, hm, hl]⟩
      | false => exact .inr (.inl ⟨t, m, rfl, hm, hl, by simp [pstep, hn, hc, hm, hl]⟩)

theorem pstep_decodes (b : Bool) (s : State) : (pstep b s).Ends (Decodes 1 s) := by
  cases hn : Memory.read nodeSpace s.node s.cursor.toNat with
  | error f => simp [pstep, hn, Result.Ends]
  | ok n =>
    rcases pstep_eq (b := b) hn with ⟨_, h⟩ | ⟨t, m, _, _, _, h⟩ | ⟨t, m, _, _, _, h⟩ | ⟨t, f, _, _, h⟩ <;> rw [h]
    · exact Decodes.refl _ _
    · exact ⟨0, s.carry, s.ccnt, [m.sym], by simp, by simp [State.emit]⟩
    · exact ⟨t, s.carry, s.ccnt, [], by simp, by simp⟩
    · trivial

theorem forEach_decodes {α : Type} {f : α → State → Result Unit} (hf : ∀ a s, (f a s).Ends (Decodes 1 s))
    (l : List α) (s : State) : (forEach f l s).Ends (Decodes l.length s) := by
  induction l generalizing s with
  | nil => exact Decodes.refl _ _
  | cons a rest ih =>
    refine (hf a s).bind (fun t ht => ht.mono (by simp)) fun t ht => (ih t).mono fun u hu => ?_
    simpa [Nat.add_comm] using ht.trans hu

/-! ### The demultiplexer -/

/-- Everything `LOOKUP` can do (R183): an element of `DEMUX` always holds a value. -/
theorem lookupSymbol_eq (v : Byte) (s : State) :
    ∃ d, Memory.read demuxSpace s.demux v.toNat = .ok d ∧
      lookupSymbol v s = if d.valid then .ok () (s.emit d.sym) else .raised .csUnmapped s := by
  obtain ⟨d, hd⟩ := read_demux_ok (m := s.demux) v.isLt
  exact ⟨d, hd, by simp [lookupSymbol, hd]⟩

theorem lookupSymbol_decodes (v : Byte) (s : State) : (lookupSymbol v s).Ends (Decodes 1 s) := by
  obtain ⟨d, _, h⟩ := lookupSymbol_eq v s
  rw [h]
  cases d.valid
  · exact Decodes.refl _ _
  · exact ⟨s.cursor, s.carry, s.ccnt, [d.sym], by simp, by simp [State.emit]⟩

theorem Decodes.of_carry (n : Nat) (s : State) (carry : Byte) (ccnt : BitVec 4) :
    Decodes n s { s with carry := carry, ccnt := ccnt } :=
  ⟨s.cursor, carry, ccnt, [], by simp, by simp⟩

theorem completeCarry_decodes (s : State) : (completeCarry s).Ends (Decodes 1 s) := by
  simp only [completeCarry]
  split
  · exact (lookupSymbol_decodes _ _).mono fun t ht => by
      simpa using (Decodes.of_carry 0 s 0 0).trans ht
  · exact Decodes.refl _ _

theorem fstep_decodes (b : Bool) (s : State) : (fstep b s).Ends (Decodes 1 s) :=
  (completeCarry_decodes _).mono fun t ht => by simpa using (Decodes.of_carry 0 s _ _).trans ht

theorem fbyteLoop_decodes (B : Byte) (u fuel pos : Nat) (s : State) :
    (fbyteLoop B u fuel pos s).Ends (Decodes fuel s) := by
  induction fuel generalizing pos s with
  | zero =>
    unfold fbyteLoop
    split
    · trivial
    · exact Decodes.refl _ _
  | succ fuel ih =>
    unfold fbyteLoop
    split
    · dsimp only
      split
      · refine (completeCarry_decodes _).bind (S := Decodes (fuel + 1) s) (fun t ht => ?_) fun t ht => ?_
        · exact ((Decodes.of_carry 0 s _ _).trans ht).mono (by omega)
        · exact (ih _ t).mono fun v hv => (((Decodes.of_carry 0 s _ _).trans ht).trans hv).mono (by omega)
      · split
        · refine (lookupSymbol_decodes _ s).bind (S := Decodes (fuel + 1) s) (fun t ht => ht.mono (by omega)) fun t ht => ?_
          exact (ih _ t).mono fun v hv => (ht.trans hv).mono (by omega)
        · exact Decodes.of_carry _ _ _ _
    · exact Decodes.refl _ _

/-! ### Bits, bytes, the two commands' pseudocode -/

theorem bitStep_decodes (b : Bool) (s : State) : (bitStep b s).Ends (Decodes 1 s) := by
  simp only [bitStep]
  split
  · exact pstep_decodes b s
  · exact fstep_decodes b s

theorem byteStep_decodes (B : Byte) (u : Nat) (s : State) : (byteStep B u s).Ends (Decodes u s) := by
  simp only [byteStep]
  split
  · simpa [usableBits] using forEach_decodes pstep_decodes (usableBits B u) s
  · exact fbyteLoop_decodes B u u 0 s

/-- What a `DAT` may change (R45): the padding and lookahead registers in `BINARY` format, the decoder's registers,
and at most 8 symbols appended to `OUT`. -/
def AfterDat (s t : State) : Prop :=
  ∃ pvalid p holdv hold u, Decodes 8 s u ∧ t = { u with pvalid := pvalid, p := p, holdv := holdv, hold := hold } ∧
    (s.fmt = .text → t = u)

theorem datBody_ends (arg : Byte) (s : State) : (datBody arg s).Ends (AfterDat s) := by
  have keep : ∀ u, Decodes 8 s u → AfterDat s u := fun u hu => ⟨u.pvalid, u.p, u.holdv, u.hold, u, hu, rfl, fun _ => rfl⟩
  simp only [datBody]
  split
  · simp only [textByte]
    split
    · exact (bitStep_decodes _ s).mono fun t ht => keep t (ht.mono (by omega))
    · exact keep s (Decodes.refl _ _)
  · next hf =>
    split
    · simp only [paddingByte]
      split
      · exact keep s (Decodes.refl _ _)
      · exact ⟨true, _, s.holdv, s.hold, s, Decodes.refl _ _, rfl, fun h => by simp [hf] at h⟩
    · split
      · exact ⟨s.pvalid, s.p, true, arg, s, Decodes.refl _ _, rfl, fun h => by simp [hf] at h⟩
      · refine (byteStep_decodes s.hold 8 s).bind (fun t ht => keep t ht) fun t ht => ?_
        exact ⟨t.pvalid, t.p, true, arg, t, ht, rfl, fun h => by simp [hf] at h⟩

/-- What `END` may change before its end checks (R45): `HOLDV`, the decoder's registers, and at most 8 symbols. -/
theorem lastByte_ends (s : State) :
    (lastByte s).Ends fun t => ∃ holdv u, Decodes 8 s u ∧ t = { u with holdv := holdv } ∧ (s.fmt = .text → t = s) := by
  have keep : ∀ u, Decodes 8 s u → s.fmt = .binary → ∃ holdv u', Decodes 8 s u' ∧ u = { u' with holdv := holdv } ∧
      (s.fmt = .text → u = s) := fun u hu hf => ⟨u.holdv, u, hu, rfl, fun h => by simp [hf] at h⟩
  simp only [lastByte]
  split
  · exact ⟨s.holdv, s, Decodes.refl _ _, rfl, fun _ => rfl⟩
  · next hf =>
    split
    · exact keep s (Decodes.refl _ _) hf
    · split
      · split
        · exact keep s (Decodes.refl _ _) hf
        · exact keep s (Decodes.refl _ _) hf
      · refine (byteStep_decodes s.hold _ s).bind (fun t ht => keep t (ht.mono (by omega)) hf) fun t ht => ?_
        exact ⟨false, t, ht.mono (by omega), rfl, fun h => by simp [hf] at h⟩

end Sys2Proof.Machine
end

