-- ==== Sys2Proof/Laws/Host.lean ====
section
/-! SUPPORT. The host-side reference (spec/48_host_reference.md R201, R207, R219 to R222): the two outputs of the
frequency table, the fields of a header line, where the body lives, and the result of a call. -/

namespace Sys2Proof.Machine

/-! ### The frequency table -/

@[simp] theorem frequencyTable_total (input : List Byte) : (frequencyTable input).total = input.length := rfl

theorem sum_map_indicator_range (n x : Nat) :
    ((List.range n).map fun v => if x = v then 1 else 0).sum = if x < n then 1 else 0 := by
  induction n with
  | zero => rfl
  | succ n ih =>
    rw [List.range_succ, List.map_append, List.sum_append, ih]
    simp only [List.map_cons, List.map_nil, List.sum_cons, List.sum_nil]
    split <;> split <;> split <;> omega

theorem sum_map_countP_range (n : Nat) (l : List Nat) (h : ∀ x ∈ l, x < n) :
    ((List.range n).map fun v => l.countP fun x => x = v).sum = l.length := by
  induction l with
  | nil => simp
  | cons x l ih =>
    have hx : x < n := h x (by simp)
    have ih := ih fun y hy => h y (by simp [hy])
    simp only [List.countP_cons, List.sum_map_add, ih, List.length_cons, decide_eq_true_eq,
      sum_map_indicator_range, if_pos hx]

/-- The counts add up to the total (R201). -/
theorem frequencyTable_sum (input : List Byte) : (frequencyTable input).counts.sum = (frequencyTable input).total := by
  have h := sum_map_countP_range 256 (input.map BitVec.toNat) (by
    intro x hx
    obtain ⟨b, -, rfl⟩ := List.mem_map.1 hx
    exact b.isLt)
  simpa [frequencyTable, List.countP_map, Function.comp_def] using h

/-- Only an empty input has the total 0 (R201). -/
theorem frequencyTable_total_eq_zero {input : List Byte} : (frequencyTable input).total = 0 ↔ input = [] := by simp

/-- The construction check passes where no codeword is longer than its limit (R207). -/
theorem checkConstruction_ok {code : List CodeEntry} (h : ∀ e ∈ code, e.code.length ≤ 255) :
    checkConstruction code = .ok code := by
  have : code.any (fun e => e.code.length > Config.distinguishingBits) = false := by
    simpa [Config.distinguishingBits, Config.cwMax] using h
  simp [checkConstruction, this]

/-! ### Header lines -/

theorem dropWhile_of_all {α : Type} {p : α → Bool} {l r : List α} (h : ∀ b ∈ l, p b = true) :
    (l ++ r).dropWhile p = r.dropWhile p := by
  induction l with
  | nil => rfl
  | cons a l ih => simp [h a (by simp), ih fun b hb => h b (by simp [hb])]

theorem dropWhile_of_none {α : Type} {p : α → Bool} {l r : List α} (h : ∀ b ∈ l, p b = false) (hl : l ≠ []) :
    (l ++ r).dropWhile p = l ++ r := by
  cases l with
  | nil => exact absurd rfl hl
  | cons a l => simp [h a (by simp)]

/-- Whitespace around a token is trimmed (R219). -/
theorem trimmed_token {before token after : List Byte} (hb : ∀ b ∈ before, isWhitespace b = true)
    (ha : ∀ b ∈ after, isWhitespace b = true) (ht : ∀ b ∈ token, isWhitespace b = false) (hne : token ≠ []) :
    trimmed (before ++ token ++ after) = token := by
  have h : ((before ++ token ++ after).dropWhile isWhitespace) = token ++ after := by
    rw [List.append_assoc, dropWhile_of_all hb, dropWhile_of_none ht hne]
  have h' := dropWhile_of_none (p := isWhitespace) (l := token.reverse) (r := []) (by simpa using ht) (by simpa using hne)
  rw [trimmed, h, List.reverse_append, dropWhile_of_all (by simpa using ha)]
  simpa using congrArg List.reverse h'

/-- A line of two tokens with whitespace between and around them is cut into the two (R219). -/
theorem splitLine_fields {before token between word after : List Byte} (hb : ∀ b ∈ before, isWhitespace b = true)
    (hm : ∀ b ∈ between, isWhitespace b = true) (ha : ∀ b ∈ after, isWhitespace b = true)
    (ht : ∀ b ∈ token, isWhitespace b = false) (hw : ∀ b ∈ word, isWhitespace b = false) (hne : token ≠ [])
    (hwne : word ≠ []) (hmne : between ≠ []) :
    splitLine (before ++ token ++ between ++ word ++ after) = some (token, word) := by
  have hrev : (before ++ token ++ between ++ word ++ after).reverse.dropWhile isWhitespace =
      word.reverse ++ (before ++ token ++ between).reverse := by
    rw [List.reverse_append, dropWhile_of_all (by simpa using ha), List.reverse_append,
      dropWhile_of_none (by simpa using hw) (by simpa using hwne)]
  have hstop : ((before ++ token ++ between).reverse.takeWhile fun b => !isWhitespace b) = [] := by
    rw [List.reverse_append]
    rcases hc : between.reverse with _ | ⟨x, rest⟩
    · exact absurd (by simpa using hc) hmne
    · have hx : isWhitespace x = true := hm x (by rw [← List.mem_reverse, hc]; simp)
      simp [hx]
  have htake : ((word.reverse ++ (before ++ token ++ between).reverse).takeWhile fun b => !isWhitespace b) =
      word.reverse := by
    rw [List.takeWhile_append_of_pos (by simpa using hw), hstop, List.append_nil]
  simp only [splitLine, hrev, htake, List.drop_left, List.reverse_reverse, trimmed_token hb hm ht hne, hne, if_false]

/-! ### Where the body lives -/

/-- Cutting a text loses none of it. -/
theorem cutLines_append (n : Nat) (text : List Byte) : (cutLines n text).1 ++ (cutLines n text).2 = text := by
  induction text generalizing n with
  | nil => cases n <;> rfl
  | cons b rest ih =>
    cases n with
    | zero => rfl
    | succ n => simp [cutLines, ih]

/-- The first of the lines to cut is cut after its terminator. -/
theorem cutLines_line (n : Nat) {line : List Byte} (h : 0x0A ∉ line) (rest : List Byte) :
    cutLines (n + 1) (line ++ 0x0A :: rest) = (line ++ 0x0A :: (cutLines n rest).1, (cutLines n rest).2) := by
  induction line with
  | nil => simp [cutLines]
  | cons b line ih =>
    obtain ⟨hb, hl⟩ := not_or.1 (mt List.mem_cons.2 h)
    simp only [List.cons_append, cutLines, if_neg (Ne.symm hb), ih hl]

/-- With the separate layout the two streams are the header and the body. -/
@[simp] theorem splitStreams_separate (fmt : Fmt) (header body : List Byte) :
    splitStreams .separate fmt header body = .ok (header, body) := rfl

/-! ### The result of a call -/

@[simp] theorem result_done (out : List Sym) (cause : BitVec 8) :
    Observation.result ⟨out, .done, cause⟩ = some ⟨out, none⟩ := rfl

/-- Every cause of R241 is an error of its kind (R222). -/
theorem result_fault (out : List Sym) (cause : Cause) :
    ∃ e, Observation.result ⟨out, .fault, cause.code⟩ = some ⟨out, some e⟩ := by
  have h : ((causeKind cause.code).bind ErrorKind.hostError).isSome = true := by cases cause <;> decide
  obtain ⟨e, he⟩ := Option.isSome_iff_exists.1 h
  exact ⟨e, by simp [Observation.result, he]⟩

/-- Streams that give no table fail the call (R220). -/
theorem decodeCall_error {layout : FileLayout} {kind : Kind} {fmt : Fmt} {alphabet body : List Byte} {s : State}
    {e : HostError} (h : readStreams layout fmt alphabet body = .error e) :
    decodeCall layout kind fmt alphabet body s = some ⟨[], some e⟩ := by
  simp [decodeCall, h]

/-- A call whose session the block runs to a next state answers what the host reads off that state (R222). -/
theorem decodeCall_run {layout : FileLayout} {kind : Kind} {fmt : Fmt} {alphabet body data : List Byte} {s t : State}
    {table : List CodeEntry} (h : readStreams layout fmt alphabet body = .ok (table, data))
    (ht : runSession (sessionCommands kind fmt table data) s = .next t) :
    decodeCall layout kind fmt alphabet body s = t.observe.result := by
  simp [decodeCall, h, ht, observed]

end Sys2Proof.Machine
end

