-- ==== Sys2Proof/Laws/PerInstr.lean ====
section
/-! SUPPORT. Statements about every instruction as syntax, one lemma for each constructor of Instr. -/

namespace Sys2Proof.Laws.OpcodeMapRow

/-- An instruction is well formed exactly when its word matches its own row of the opcode map (R73, R76). -/
def Statement (i : Instr) : Prop :=
  i.wellFormed = true ↔ ∃ r ∈ opcodeMap, r.opcode = i.opcode ∧ r.spells (encode i) = true

theorem nop : Statement .nop := by unfold Statement; decide

theorem rst : Statement .rst := by unfold Statement; decide

theorem cfg (arg : Byte) : Statement (.cfg arg) := by unfold Statement; revert arg; decide

theorem ent (arg : Byte) : Statement (.ent arg) := by unfold Statement; revert arg; decide

theorem cwb (arg : Byte) : Statement (.cwb arg) := by unfold Statement; revert arg; decide

theorem bld : Statement .bld := by unfold Statement; decide

theorem dat (arg : Byte) : Statement (.dat arg) := by unfold Statement; revert arg; decide

theorem endBody : Statement .endBody := by unfold Statement; decide

end Sys2Proof.Laws.OpcodeMapRow
end

