-- ==== Sys2Proof/Laws/Trie.lean ====
section
/-! SUPPORT. The spec lemma of `build` (spec/41_table_build.md R116 to R118): when it runs to its end and what it
leaves in `NODE`, said once as the relation `Built`, and what `Built` says about the paths of the trie. -/

namespace Sys2Proof.Machine

/-! ### Lists of entries -/

/-- No codeword of the list, from bit `d` on, is a prefix of another's. -/
def PrefixFreeFrom (d : Nat) (list : List CodeEntry) : Prop :=
  list.Pairwise fun a b => ¬ a.code.drop d <+: b.code.drop d ∧ ¬ b.code.drop d <+: a.code.drop d

theorem prefixFreeFrom_zero (list : List CodeEntry) : PrefixFreeFrom 0 list ↔ PrefixFree list := by
  simp [PrefixFreeFrom, PrefixFree]

theorem mem_withBitAt {b : Bool} {d : Nat} {list : List CodeEntry} {e : CodeEntry} :
    e ∈ withBitAt b d list ↔ e ∈ list ∧ e.code[d]? = some b := by simp [withBitAt]

theorem drop_of_getElem {code : Bits} {d : Nat} {b : Bool} (h : code[d]? = some b) :
    code.drop d = b :: code.drop (d + 1) := by
  obtain ⟨hd, rfl⟩ := List.getElem?_eq_some_iff.1 h
  exact List.drop_eq_getElem_cons hd

theorem prefixFreeFrom_withBitAt {d : Nat} {list : List CodeEntry} (b : Bool) (h : PrefixFreeFrom d list) :
    PrefixFreeFrom (d + 1) (withBitAt b d list) := by
  refine List.Pairwise.imp_of_mem ?_ (List.Pairwise.filter _ h)
  intro x y hx hy hxy
  have hx' := drop_of_getElem (mem_withBitAt.1 hx).2
  have hy' := drop_of_getElem (mem_withBitAt.1 hy).2
  rw [hx', hy'] at hxy
  simpa [List.cons_prefix_cons] using hxy

theorem prefixFreeFrom_of_split {d : Nat} {list : List CodeEntry} (hlen : ∀ e ∈ list, d < e.len)
    (h0 : PrefixFreeFrom (d + 1) (withBitAt false d list)) (h1 : PrefixFreeFrom (d + 1) (withBitAt true d list)) :
    PrefixFreeFrom d list := by
  have hbit : ∀ e ∈ list, ∃ b, e.code[d]? = some b := fun e he =>
    ⟨_, List.getElem?_eq_getElem (by simpa [CodeEntry.len] using hlen e he)⟩
  clear hlen
  induction list with
  | nil => exact List.Pairwise.nil
  | cons a rest ih =>
    obtain ⟨ba, ha⟩ := hbit a (by simp)
    have key : ∀ b, PrefixFreeFrom (d + 1) (withBitAt b d (a :: rest)) →
        PrefixFreeFrom (d + 1) (withBitAt b d rest) := by
      intro b hb
      exact List.Pairwise.sublist (List.Sublist.filter _ (List.sublist_cons_self a rest)) hb
    refine List.Pairwise.cons ?_ (ih (key _ h0) (key _ h1) fun e he => hbit e (by simp [he]))
    intro e he
    obtain ⟨be, hbe⟩ := hbit e (by simp [he])
    rw [drop_of_getElem ha, drop_of_getElem hbe]
    by_cases hb : ba = be
    · subst hb
      have hp : PrefixFreeFrom (d + 1) (withBitAt ba d (a :: rest)) := by cases ba <;> assumption
      have : withBitAt ba d (a :: rest) = a :: withBitAt ba d rest := by simp [withBitAt, ha]
      rw [this] at hp
      simpa [List.cons_prefix_cons] using (List.pairwise_cons.1 hp).1 e (mem_withBitAt.2 ⟨he, hbe⟩)
    · simp [List.cons_prefix_cons, hb, Ne.symm hb]

/-- The bits of a list of codewords from bit `d` on. -/
def restBits (d : Nat) (list : List CodeEntry) : Nat := (list.map fun e => e.len - d).sum

theorem restBits_withBitAt {d : Nat} {list : List CodeEntry} (hlen : ∀ e ∈ list, d < e.len) :
    (withBitAt false d list).length + restBits (d + 1) (withBitAt false d list) +
      ((withBitAt true d list).length + restBits (d + 1) (withBitAt true d list)) = restBits d list := by
  induction list with
  | nil => rfl
  | cons a rest ih =>
    have ih := ih fun e he => hlen e (by simp [he])
    have ha : d < a.len := hlen a (by simp)
    have hd : a.code[d]? = some (a.code[d]'(by simpa [CodeEntry.len] using ha)) :=
      List.getElem?_eq_getElem _
    rcases hb : a.code[d]'(by simpa [CodeEntry.len] using ha) with _ | _ <;>
    · rw [hb] at hd
      simp only [withBitAt, restBits, List.filter_cons, hd, List.map_cons, List.sum_cons] at ih ⊢
      simp at ih ⊢
      omega

theorem le_maxLen {e : CodeEntry} {list : List CodeEntry} (h : e ∈ list) : e.len ≤ maxLen list := by
  induction list with
  | nil => simp at h
  | cons a rest ih =>
    simp only [maxLen, List.foldr_cons] at *
    rcases List.mem_cons.1 h with rfl | h
    · exact Nat.le_max_left _ _
    · exact le_trans (ih h) (Nat.le_max_right _ _)

theorem insertEntry_perm (e : CodeEntry) (l : List CodeEntry) : (insertEntry e l).Perm (e :: l) := by
  induction l with
  | nil => exact List.Perm.refl _
  | cons x rest ih =>
    simp only [insertEntry]
    split
    · exact (List.Perm.cons x ih).trans (List.Perm.swap e x rest)
    · exact List.Perm.refl _

/-- The sort only reorders (R116). -/
theorem sortEntries_perm (l : List CodeEntry) : (sortEntries l).Perm l := by
  induction l with
  | nil => exact List.Perm.refl _
  | cons e rest ih => exact (insertEntry_perm e _).trans (List.Perm.cons e ih)

theorem prefixFree_perm {l₁ l₂ : List CodeEntry} (h : l₁.Perm l₂) : PrefixFree l₁ ↔ PrefixFree l₂ :=
  h.pairwise_iff fun hab => ⟨hab.2, hab.1⟩

/-! ### What `build` leaves -/

/-- `Built m k list d n`: in the memory `m` the nodes from `k` on, up to but not including `n`, are the trie of
`list` from bit `d` on, numbered as R118 numbers them, with its root at `k`. -/
inductive Built (m : List (Nat × TrieNode)) : Nat → List CodeEntry → Nat → Nat → Prop
  /-- A single entry at its full depth: a leaf. -/
  | leaf (k d : Nat) (e : CodeEntry) (hd : e.len = d)
      (hn : Memory.read nodeSpace m k = .ok ⟨true, e.sym, false, 0, false, 0⟩) : Built m k [e] d (k + 1)
  /-- Only 0-entries: the right child is absent. -/
  | left (k d n : Nat) (list : List CodeEntry) (hlen : ∀ e ∈ list, d < e.len) (h0 : withBitAt false d list ≠ [])
      (h1 : withBitAt true d list = []) (hk : k + 1 < 2 ^ 16)
      (hn : Memory.read nodeSpace m k = .ok ⟨false, 0, true, BitVec.ofNat 16 (k + 1), false, 0⟩)
      (b0 : Built m (k + 1) (withBitAt false d list) (d + 1) n) : Built m k list d n
  /-- Only 1-entries: the left child is absent. -/
  | right (k d n : Nat) (list : List CodeEntry) (hlen : ∀ e ∈ list, d < e.len) (h0 : withBitAt false d list = [])
      (h1 : withBitAt true d list ≠ []) (hk : k + 1 < 2 ^ 16)
      (hn : Memory.read nodeSpace m k = .ok ⟨false, 0, false, 0, true, BitVec.ofNat 16 (k + 1)⟩)
      (b1 : Built m (k + 1) (withBitAt true d list) (d + 1) n) : Built m k list d n
  /-- Both children: the 0-subtree is numbered before the 1-subtree. -/
  | both (k d n₁ n : Nat) (list : List CodeEntry) (hlen : ∀ e ∈ list, d < e.len) (h0 : withBitAt false d list ≠ [])
      (h1 : withBitAt true d list ≠ []) (hk : k + 1 < 2 ^ 16) (hn₁ : n₁ < 2 ^ 16)
      (hn : Memory.read nodeSpace m k =
        .ok ⟨false, 0, true, BitVec.ofNat 16 (k + 1), true, BitVec.ofNat 16 n₁⟩)
      (b0 : Built m (k + 1) (withBitAt false d list) (d + 1) n₁)
      (b1 : Built m n₁ (withBitAt true d list) (d + 1) n) : Built m k list d n

theorem Built.lt {m : List (Nat × TrieNode)} {k d n : Nat} {list : List CodeEntry} (h : Built m k list d n) :
    k < n := by
  induction h <;> omega

/-- `Built` speaks only about the nodes it numbers. -/
theorem Built.congr {m m' : List (Nat × TrieNode)} {k d n : Nat} {list : List CodeEntry}
    (h : Built m k list d n)
    (hm : ∀ j, k ≤ j → j < n → Memory.read nodeSpace m' j = Memory.read nodeSpace m j) :
    Built m' k list d n := by
  induction h with
  | leaf k d e hd hn => exact .leaf k d e hd (by rw [hm k (by omega) (by omega), hn])
  | left k d n list hlen h0 h1 hk hn b0 ih =>
    have := b0.lt
    exact .left k d n list hlen h0 h1 hk (by rw [hm k (by omega) (by omega), hn])
      (ih fun j h₁ h₂ => hm j (by omega) h₂)
  | right k d n list hlen h0 h1 hk hn b1 ih =>
    have := b1.lt
    exact .right k d n list hlen h0 h1 hk (by rw [hm k (by omega) (by omega), hn])
      (ih fun j h₁ h₂ => hm j (by omega) h₂)
  | both k d n₁ n list hlen h0 h1 hk hn₁ hn b0 b1 ih0 ih1 =>
    have := b0.lt
    have := b1.lt
    exact .both k d n₁ n list hlen h0 h1 hk hn₁ (by rw [hm k (by omega) (by omega), hn])
      (ih0 fun j h₁ h₂ => hm j (by omega) (by omega)) (ih1 fun j h₁ h₂ => hm j (by omega) h₂)

theorem writeNode_ok {k : BitVec 16} {n : TrieNode} {s : State} (hk : k.toNat < 65281) :
    writeNode k n s = .ok () { s with node := Memory.put nodeSpace s.node k.toNat n } := by
  simp [writeNode, Memory.write_ok (sp := nodeSpace) (show k.toNat < nodeSpace.size from hk)]

/-- THE SPEC LEMMA OF `build`. Given fuel and room for the nodes, and codewords that reach down to `d`: it answers
the index it allocated first and leaves the trie of the list, exactly when no codeword of the list is a prefix
of another from `d` on, and raises 0x16 in the other case. It changes nothing but `NNODE` and `NODE`, and no node
below the one it allocated first. -/
theorem build_cases (fuel : Nat) (list : List CodeEntry) (d : Nat) (s : State)
    (hne : list ≠ []) (hlen : ∀ e ∈ list, d ≤ e.len) (hfuel : ∀ e ∈ list, e.len < fuel + d)
    (hroom : s.nnode.toNat + 1 + restBits d list ≤ 65281) (hwf : Memory.wf nodeSpace s.node = true) :
    (PrefixFreeFrom d list → ∃ nnode node,
      build fuel list d s = .ok (BitVec.ofNat 16 s.nnode.toNat) { s with nnode := nnode, node := node } ∧
      nnode.toNat ≤ s.nnode.toNat + 1 + restBits d list ∧ Memory.wf nodeSpace node = true ∧
      (∀ j, j < s.nnode.toNat → Memory.read nodeSpace node j = Memory.read nodeSpace s.node j) ∧
      Built node s.nnode.toNat list d nnode.toNat) ∧
    (¬ PrefixFreeFrom d list → ∃ t, build fuel list d s = .raised .mhNotPrefixFree t ∧ t.out = s.out ∧
      t.input = s.input ∧ t.draws = s.draws) := by
  induction fuel generalizing list d s with
  | zero =>
    obtain ⟨e, he⟩ := List.exists_mem_of_ne_nil _ hne
    have := hlen e he; have := hfuel e he; omega
  | succ fuel ih =>
    have hk17 : (s.nnode + 1).toNat = s.nnode.toNat + 1 := by
      rw [BitVec.toNat_add]; simp; omega
    have hk16 : (s.nnode.setWidth 16).toNat = s.nnode.toNat := by
      simp [BitVec.toNat_setWidth]; omega
    have hkk : s.nnode.setWidth 16 = BitVec.ofNat 16 s.nnode.toNat := by
      apply BitVec.eq_of_toNat_eq; rw [hk16]; simp; omega
    by_cases hleaf : list.length = 1 ∧ list.all (fun e => e.len = d) = true
    · -- a single entry at its full depth
      obtain ⟨e, rfl⟩ := List.length_eq_one_iff.1 hleaf.1
      have hed : e.len = d := by simpa using hleaf.2
      constructor
      · intro _
        refine ⟨s.nnode + 1, Memory.put nodeSpace s.node s.nnode.toNat ⟨true, e.sym, false, 0, false, 0⟩, ?_, ?_, ?_,
          ?_, ?_⟩
        · simp only [build, hleaf, and_self, if_true]
          rw [writeNode_ok (by rw [hk16]; omega)]
          simp only [hk16]; rw [← hkk]; rfl
        · rw [hk17]; omega
        · exact Memory.wf_put _ hwf (show s.nnode.toNat < 65281 by omega)
        · intro j hj; exact Memory.read_put_other _ (by omega)
        · rw [hk17]
          exact .leaf _ _ e hed (Memory.read_put_same _ hwf (show s.nnode.toNat < 65281 by omega))
      · intro h; exact absurd (List.pairwise_singleton _ _) h
    · by_cases hshort : list.any (fun e => e.len ≤ d) = true
      · -- an entry ends here and is not alone
        constructor
        · intro hpf
          exfalso
          obtain ⟨e, he, hed⟩ := List.any_eq_true.1 hshort
          have hed : e.code.drop d = [] := by
            exact List.drop_eq_nil_of_le (of_decide_eq_true hed)
          have hed' : e.len = d := le_antisymm (by simpa [CodeEntry.len] using List.drop_eq_nil_iff.1 hed) (hlen e he)
          match list, hne with
          | [x], _ =>
            obtain rfl : e = x := by simpa using he
            exact hleaf ⟨rfl, by simp [hed']⟩
          | x :: y :: rest, _ =>
            have hx := List.pairwise_cons.1 hpf
            rcases List.mem_cons.1 he with rfl | he
            · have := (hx.1 y (by simp)).1
              simp [hed] at this
            · have := (hx.1 e he).2
              simp [hed] at this
        · intro _
          refine ⟨{ s with nnode := s.nnode + 1 }, ?_, rfl, rfl, rfl⟩
          simp only [build, hleaf, if_false, hshort, if_true]
      · -- an internal node
        have hlong : ∀ e ∈ list, d < e.len := by
          intro e he
          by_contra hc
          exact hshort (List.any_eq_true.2 ⟨e, he, by simpa using hc⟩)
        have hsum := restBits_withBitAt hlong
        have hunfold : build (fuel + 1) list d s =
            ((build.buildChild (build fuel) (withBitAt false d list) (d + 1) { s with nnode := s.nnode + 1 }).bind
              fun c0 s' => (build.buildChild (build fuel) (withBitAt true d list) (d + 1) s').bind
              fun c1 s' => (writeNode (s.nnode.setWidth 16)
                ⟨false, 0, c0.isSome, c0.getD 0, c1.isSome, c1.getD 0⟩ s').bind
              fun _ s' => .ok (s.nnode.setWidth 16) s') := by
          simp only [build, hleaf, if_false, hshort]; rfl
        -- the two children
        have child : ∀ (b : Bool) (s' : State), s'.nnode.toNat + (withBitAt b d list).length +
            restBits (d + 1) (withBitAt b d list) ≤ 65281 → Memory.wf nodeSpace s'.node = true →
            withBitAt b d list ≠ [] →
            (PrefixFreeFrom (d + 1) (withBitAt b d list) → ∃ nnode node,
              build.buildChild (build fuel) (withBitAt b d list) (d + 1) s' =
                .ok (some (BitVec.ofNat 16 s'.nnode.toNat)) { s' with nnode := nnode, node := node } ∧
              nnode.toNat ≤ s'.nnode.toNat + (withBitAt b d list).length + restBits (d + 1) (withBitAt b d list) ∧
              Memory.wf nodeSpace node = true ∧
              (∀ j, j < s'.nnode.toNat → Memory.read nodeSpace node j = Memory.read nodeSpace s'.node j) ∧
              Built node s'.nnode.toNat (withBitAt b d list) (d + 1) nnode.toNat) ∧
            (¬ PrefixFreeFrom (d + 1) (withBitAt b d list) → ∃ t,
              build.buildChild (build fuel) (withBitAt b d list) (d + 1) s' = .raised .mhNotPrefixFree t ∧
              t.out = s'.out ∧ t.input = s'.input ∧ t.draws = s'.draws) := by
          intro b s' hr hw hnil
          have hpos : 1 ≤ (withBitAt b d list).length := List.length_pos_iff.2 hnil
          have := ih (withBitAt b d list) (d + 1) s' hnil
            (fun e he => hlong e (mem_withBitAt.1 he).1)
            (fun e he => by have := hfuel e (mem_withBitAt.1 he).1; omega) (by omega) hw
          refine ⟨fun hpf => ?_, fun hpf => ?_⟩
          · obtain ⟨nnode, node, h₁, h₂, h₃, h₄, h₅⟩ := this.1 hpf
            exact ⟨nnode, node, by simp [build.buildChild, hnil, h₁], by omega, h₃, h₄, h₅⟩
          · obtain ⟨t, h₁, h₂⟩ := this.2 hpf
            exact ⟨t, by simp [build.buildChild, hnil, h₁], h₂⟩
        have absent : ∀ (b : Bool) (s' : State), withBitAt b d list = [] →
            build.buildChild (build fuel) (withBitAt b d list) (d + 1) s' = .ok none s' := by
          intro b s' hnil; simp [build.buildChild, hnil]
        have hpfnil : ∀ b, withBitAt b d list = [] → PrefixFreeFrom (d + 1) (withBitAt b d list) := by
          intro b hb; rw [hb]; exact List.Pairwise.nil
        have hsome : withBitAt false d list ≠ [] ∨ withBitAt true d list ≠ [] := by
          obtain ⟨e, he⟩ := List.exists_mem_of_ne_nil _ hne
          have hd := List.getElem?_eq_getElem (show d < e.code.length from hlong e he)
          generalize e.code[d]'(hlong e he) = b at hd
          cases b
          · exact .inl (List.ne_nil_of_mem (mem_withBitAt.2 ⟨he, hd⟩))
          · exact .inr (List.ne_nil_of_mem (mem_withBitAt.2 ⟨he, hd⟩))
        have hkb : s.nnode.toNat < 65281 := by omega
        have e1 : ∀ x : BitVec 17, (s.nnode + 1) = x → x.toNat = s.nnode.toNat + 1 := by
          rintro x rfl; exact hk17
        by_cases p0 : PrefixFreeFrom (d + 1) (withBitAt false d list)
        · by_cases h0 : withBitAt false d list = []
          · -- no 0-entries
            have h1 : withBitAt true d list ≠ [] := hsome.resolve_left (by simpa using h0)
            have hlen0 : (withBitAt false d list).length = 0 := by simp [h0]
            obtain ⟨good, bad⟩ := child true { s with nnode := s.nnode + 1 } (by show (s.nnode+1).toNat + _ + _ ≤ _; rw [hk17]; omega) hwf h1
            constructor
            · intro hpf
              obtain ⟨nnode, node, g₁, g₂, g₃, g₄, g₅⟩ := good (prefixFreeFrom_withBitAt true hpf)
              simp only [hk17] at g₁ g₂ g₄ g₅
              refine ⟨nnode, Memory.put nodeSpace node s.nnode.toNat
                ⟨false, 0, false, 0, true, BitVec.ofNat 16 (s.nnode.toNat + 1)⟩, ?_, by omega,
                Memory.wf_put _ g₃ hkb, ?_, ?_⟩
              · rw [hunfold, absent false _ h0]
                simp only [Result.bind_ok, g₁]
                rw [writeNode_ok (by rw [hk16]; omega)]
                simp only [hk16]; rw [← hkk]; rfl
              · intro j hj
                rw [Memory.read_put_other _ (by omega), g₄ j (by omega)]
              · refine .right _ _ _ _ hlong h0 h1 (by omega) (Memory.read_put_same _ g₃ hkb) ?_
                exact g₅.congr fun j h₁ _ => Memory.read_put_other _ (by omega)
            · intro hpf
              have p1 : ¬ PrefixFreeFrom (d + 1) (withBitAt true d list) := fun p1 =>
                hpf (prefixFreeFrom_of_split hlong p0 p1)
              obtain ⟨t, g₁, g₂⟩ := bad p1
              exact ⟨t, by rw [hunfold, absent false _ h0]; simp only [Result.bind_ok, g₁]; rfl, g₂⟩
          · obtain ⟨good0, -⟩ := child false { s with nnode := s.nnode + 1 } (by show (s.nnode+1).toNat + _ + _ ≤ _; rw [hk17]; omega) hwf h0
            obtain ⟨n0, m0, f₁, f₂, f₃, f₄, f₅⟩ := good0 p0
            simp only [hk17] at f₁ f₂ f₄ f₅
            by_cases h1 : withBitAt true d list = []
            · -- no 1-entries
              have hpf : PrefixFreeFrom d list := prefixFreeFrom_of_split hlong p0 (hpfnil true h1)
              have hlen1 : (withBitAt true d list).length = 0 := by simp [h1]
              refine ⟨fun _ => ?_, fun h => absurd hpf h⟩
              refine ⟨n0, Memory.put nodeSpace m0 s.nnode.toNat
                ⟨false, 0, true, BitVec.ofNat 16 (s.nnode.toNat + 1), false, 0⟩, ?_, by omega,
                Memory.wf_put _ f₃ hkb, ?_, ?_⟩
              · rw [hunfold, f₁]
                simp only [Result.bind_ok, absent true _ h1]
                rw [writeNode_ok (by rw [hk16]; omega)]
                simp only [hk16]; rw [← hkk]; rfl
              · intro j hj
                rw [Memory.read_put_other _ (by omega), f₄ j (by omega)]
              · refine .left _ _ _ _ hlong h0 h1 (by omega) (Memory.read_put_same _ f₃ hkb) ?_
                exact f₅.congr fun j h₁ _ => Memory.read_put_other _ (by omega)
            · obtain ⟨good, bad⟩ := child true
                { s with nnode := n0, node := m0 } (by show n0.toNat + _ + _ ≤ _; omega) f₃ h1
              constructor
              · intro hpf
                obtain ⟨nnode, node, g₁, g₂, g₃, g₄, g₅⟩ := good (prefixFreeFrom_withBitAt true hpf)
                simp only at g₁ g₂ g₄ g₅
                have := f₅.lt
                have := g₅.lt
                have hpos : 1 ≤ (withBitAt true d list).length := List.length_pos_iff.2 h1
                refine ⟨nnode, Memory.put nodeSpace node s.nnode.toNat
                  ⟨false, 0, true, BitVec.ofNat 16 (s.nnode.toNat + 1), true, BitVec.ofNat 16 n0.toNat⟩, ?_, by omega,
                  Memory.wf_put _ g₃ hkb, ?_, ?_⟩
                · rw [hunfold, f₁]
                  simp only [Result.bind_ok, g₁]
                  rw [writeNode_ok (by rw [hk16]; omega)]
                  simp only [hk16]; rw [← hkk]; rfl
                · intro j hj
                  rw [Memory.read_put_other _ (by omega), g₄ j (by omega), f₄ j (by omega)]
                · refine .both _ _ n0.toNat _ _ hlong h0 h1 (by omega) (by omega) (Memory.read_put_same _ g₃ hkb) ?_ ?_
                  · exact f₅.congr fun j h₁ h₂ => by
                      rw [Memory.read_put_other _ (by omega), g₄ j (by omega)]
                  · exact g₅.congr fun j h₁ _ => Memory.read_put_other _ (by omega)
              · intro hpf
                have p1 : ¬ PrefixFreeFrom (d + 1) (withBitAt true d list) := fun p1 =>
                  hpf (prefixFreeFrom_of_split hlong p0 p1)
                obtain ⟨t, g₁, g₂⟩ := bad p1
                exact ⟨t, by rw [hunfold, f₁]; simp only [Result.bind_ok, g₁]; rfl, g₂⟩
        · -- the 0-subtree faults
          have h0 : withBitAt false d list ≠ [] := fun h0 => p0 (hpfnil false h0)
          obtain ⟨-, bad⟩ := child false { s with nnode := s.nnode + 1 } (by show (s.nnode+1).toNat + _ + _ ≤ _; rw [hk17]; omega) hwf h0
          obtain ⟨t, f₁, f₂⟩ := bad p0
          refine ⟨fun hpf => absurd (prefixFreeFrom_withBitAt false hpf) p0, fun _ => ⟨t, ?_, f₂⟩⟩
          rw [hunfold, f₁]; rfl

/-! ### The paths of a built trie -/

@[simp] theorem walkTrie_nil (m : List (Nat × TrieNode)) (k : Nat) : walkTrie m k [] = some k := rfl

/-- One step of a path, from a node whose content is known. -/
theorem walkTrie_cons {m : List (Nat × TrieNode)} {k : Nat} {n : TrieNode}
    (hn : Memory.read nodeSpace m k = .ok n) (b : Bool) (q : Bits) :
    walkTrie m k (b :: q) = (n.child b).bind fun t => walkTrie m t.toNat q := by
  simp only [walkTrie, hn]
  cases n.child b <;> rfl

theorem walkTrie_append (m : List (Nat × TrieNode)) (k : Nat) (p q : Bits) :
    walkTrie m k (p ++ q) = (walkTrie m k p).bind fun t => walkTrie m t q := by
  induction p generalizing k with
  | nil => rfl
  | cons b rest ih =>
    simp only [List.cons_append, walkTrie]
    cases Memory.read nodeSpace m k with
    | error f => rfl
    | ok n =>
      cases h : n.child b with
      | none => simp [h]
      | some t => simp [h, ih]

theorem cons_prefix_drop {code : Bits} {d : Nat} {b : Bool} {q : Bits} :
    b :: q <+: code.drop d ↔ code[d]? = some b ∧ q <+: code.drop (d + 1) := by
  by_cases h : d < code.length
  · rw [List.drop_eq_getElem_cons h, List.cons_prefix_cons, List.getElem?_eq_getElem h]
    simp [eq_comm]
  · rw [List.drop_eq_nil_of_le (by omega), List.getElem?_eq_none (by omega)]
    simp

/-- The two children of a built node: each is absent, with no path through it, where no entry has its bit, and is
built otherwise; the nodes of the 0-subtree stand before those of the 1-subtree. -/
theorem Built.children {m : List (Nat × TrieNode)} {k d n : Nat} {list : List CodeEntry}
    (h : Built m k list d n) :
    ∃ mid, ∀ b, (withBitAt b d list = [] ∧ ∀ q, walkTrie m k (b :: q) = none) ∨
      (∃ k' n', withBitAt b d list ≠ [] ∧ k < k' ∧ n' ≤ n ∧ (b = false → n' ≤ mid) ∧ (b = true → mid ≤ k') ∧
        Built m k' (withBitAt b d list) (d + 1) n' ∧ ∀ q, walkTrie m k (b :: q) = walkTrie m k' q) := by
  cases h with
  | leaf _ _ e hd hn =>
    have he : e.code[d]? = none := by simp [← hd, CodeEntry.len]
    exact ⟨0, fun b => .inl ⟨by simp [withBitAt, he], fun q => by rw [walkTrie_cons hn]; cases b <;> rfl⟩⟩
  | left _ _ _ _ hlen h0 h1 hk hn b0 =>
    refine ⟨n, fun b => ?_⟩
    cases b
    · exact .inr ⟨k + 1, n, h0, by omega, le_refl _, fun _ => le_refl _, by simp, b0, fun q => by
        rw [walkTrie_cons hn]; simp [TrieNode.child, Nat.mod_eq_of_lt (show k + 1 < 65536 from hk)]⟩
    · exact .inl ⟨h1, fun q => by rw [walkTrie_cons hn]; rfl⟩
  | right _ _ _ _ hlen h0 h1 hk hn b1 =>
    refine ⟨0, fun b => ?_⟩
    cases b
    · exact .inl ⟨h0, fun q => by rw [walkTrie_cons hn]; rfl⟩
    · exact .inr ⟨k + 1, n, h1, by omega, le_refl _, by simp, by simp, b1, fun q => by
        rw [walkTrie_cons hn]; simp [TrieNode.child, Nat.mod_eq_of_lt (show k + 1 < 65536 from hk)]⟩
  | both _ _ n₁ _ _ hlen h0 h1 hk hn₁ hn b0 b1 =>
    have := b0.lt
    have := b1.lt
    refine ⟨n₁, fun b => ?_⟩
    cases b
    · exact .inr ⟨k + 1, n₁, h0, by omega, by omega, fun _ => le_refl _, by simp, b0, fun q => by
        rw [walkTrie_cons hn]; simp [TrieNode.child, Nat.mod_eq_of_lt (show k + 1 < 65536 from hk)]⟩
    · exact .inr ⟨n₁, n, h1, by omega, le_refl _, by simp, fun _ => le_refl _, b1, fun q => by
        rw [walkTrie_cons hn]; simp [TrieNode.child, Nat.mod_eq_of_lt (show n₁ < 65536 from hn₁)]⟩

/-- Where a path from a built node leads, there is a built node for the entries that have the path. -/
theorem Built.walk_built {m : List (Nat × TrieNode)} {k d n : Nat} {list : List CodeEntry}
    (h : Built m k list d n) (q : Bits) {j : Nat} (hj : walkTrie m k q = some j) :
    ∃ sub n', Built m j sub (d + q.length) n' ∧ k ≤ j ∧ n' ≤ n ∧
      (∀ e, e ∈ sub ↔ e ∈ list ∧ q <+: e.code.drop d) := by
  induction q generalizing k d n list with
  | nil =>
    obtain rfl : k = j := by simpa using hj
    exact ⟨list, n, h, le_refl _, le_refl _, by simp⟩
  | cons b q ih =>
    obtain ⟨mid, hc⟩ := h.children
    rcases hc b with ⟨_, hw⟩ | ⟨k', n', _, hk', hn', _, _, hb, hw⟩
    · rw [hw] at hj; cases hj
    · rw [hw] at hj
      obtain ⟨sub, n'', h₁, h₂, h₃, h₄⟩ := ih hb hj
      refine ⟨sub, n'', by simpa [Nat.add_assoc, Nat.add_comm 1] using h₁, by omega, by omega, fun e => ?_⟩
      rw [h₄ e, mem_withBitAt, cons_prefix_drop, and_assoc]

theorem Built.walk_range {m : List (Nat × TrieNode)} {k d n : Nat} {list : List CodeEntry}
    (h : Built m k list d n) {q : Bits} {j : Nat} (hj : walkTrie m k q = some j) : k ≤ j ∧ j < n := by
  obtain ⟨sub, n', h₁, h₂, h₃, _⟩ := h.walk_built q hj
  have := h₁.lt
  omega

/-- The paths of a built trie are the prefixes of the codewords, from bit `d` on. -/
theorem Built.walk_isSome {m : List (Nat × TrieNode)} {k d n : Nat} {list : List CodeEntry}
    (h : Built m k list d n) (hne : list ≠ []) (q : Bits) :
    (walkTrie m k q).isSome = true ↔ ∃ e ∈ list, q <+: e.code.drop d := by
  induction q generalizing k d n list with
  | nil =>
    obtain ⟨e, he⟩ := List.exists_mem_of_ne_nil _ hne
    simp only [walkTrie_nil, Option.isSome_some, true_iff]
    exact ⟨e, he, List.nil_prefix⟩
  | cons b q ih =>
    simp only [cons_prefix_drop]
    obtain ⟨mid, hc⟩ := h.children
    rcases hc b with ⟨hnil, hw⟩ | ⟨k', n', hW, _, _, _, _, hb, hw⟩
    · rw [hw]
      simp only [Option.isSome_none, Bool.false_eq_true, false_iff, not_exists, not_and]
      intro e he hd
      exact absurd (mem_withBitAt.2 ⟨he, hd⟩) (by simp [hnil])
    · rw [hw, ih hb hW]
      constructor
      · rintro ⟨e, he, hq⟩
        obtain ⟨he, hbit⟩ := mem_withBitAt.1 he
        exact ⟨e, he, hbit, hq⟩
      · rintro ⟨e, he, hbit, hq⟩
        exact ⟨e, mem_withBitAt.2 ⟨he, hbit⟩, hq⟩

/-- Different paths lead to different nodes. -/
theorem Built.walk_injective {m : List (Nat × TrieNode)} {k d n : Nat} {list : List CodeEntry}
    (h : Built m k list d n) {p q : Bits} {j : Nat} (hp : walkTrie m k p = some j)
    (hq : walkTrie m k q = some j) : p = q := by
  induction p generalizing k d n list q with
  | nil =>
    obtain rfl : k = j := by simpa using hp
    cases q with
    | nil => rfl
    | cons b q =>
      obtain ⟨mid, hc⟩ := h.children
      rcases hc b with ⟨_, hw⟩ | ⟨k', n', _, hk', _, _, _, hb, hw⟩
      · rw [hw] at hq; cases hq
      · rw [hw] at hq; have := hb.walk_range hq; omega
  | cons a p ih =>
    obtain ⟨mid, hc⟩ := h.children
    rcases hc a with ⟨_, hw⟩ | ⟨k', n', _, hk', _, ha0, ha1, hb, hw⟩
    · rw [hw] at hp; cases hp
    · rw [hw] at hp
      have hr := hb.walk_range hp
      cases q with
      | nil =>
        obtain rfl : k = j := by simpa using hq
        omega
      | cons b q =>
        by_cases hab : a = b
        · subst hab
          rw [hw] at hq
          rw [ih hb hp hq]
        · exfalso
          rcases hc b with ⟨_, hw'⟩ | ⟨k'', n'', _, hk'', _, hb0, hb1, hb', hw'⟩
          · rw [hw'] at hq; cases hq
          · rw [hw'] at hq
            have hr' := hb'.walk_range hq
            cases a <;> cases b <;> simp_all <;> omega

/-- Every node of a built trie is reached by a path. -/
theorem Built.walk_onto {m : List (Nat × TrieNode)} {k d n : Nat} {list : List CodeEntry}
    (h : Built m k list d n) {j : Nat} (h₁ : k ≤ j) (h₂ : j < n) : ∃ q, walkTrie m k q = some j := by
  induction h with
  | leaf k d e hd hn => exact ⟨[], by simp; omega⟩
  | left k d n list hlen h0 h1 hk hn b0 ih =>
    rcases Nat.eq_or_lt_of_le h₁ with rfl | hlt
    · exact ⟨[], rfl⟩
    · obtain ⟨q, hq⟩ := ih hlt h₂
      exact ⟨false :: q, by
        rw [walkTrie_cons hn]; simpa [TrieNode.child, Nat.mod_eq_of_lt (show k + 1 < 65536 from hk)] using hq⟩
  | right k d n list hlen h0 h1 hk hn b1 ih =>
    rcases Nat.eq_or_lt_of_le h₁ with rfl | hlt
    · exact ⟨[], rfl⟩
    · obtain ⟨q, hq⟩ := ih hlt h₂
      exact ⟨true :: q, by
        rw [walkTrie_cons hn]; simpa [TrieNode.child, Nat.mod_eq_of_lt (show k + 1 < 65536 from hk)] using hq⟩
  | both k d n₁ n list hlen h0 h1 hk hn₁ hn b0 b1 ih0 ih1 =>
    rcases Nat.eq_or_lt_of_le h₁ with rfl | hlt
    · exact ⟨[], rfl⟩
    · by_cases hj : j < n₁
      · obtain ⟨q, hq⟩ := ih0 hlt hj
        exact ⟨false :: q, by
          rw [walkTrie_cons hn]; simpa [TrieNode.child, Nat.mod_eq_of_lt (show k + 1 < 65536 from hk)] using hq⟩
      · obtain ⟨q, hq⟩ := ih1 (by omega) h₂
        exact ⟨true :: q, by
          rw [walkTrie_cons hn]; simpa [TrieNode.child, Nat.mod_eq_of_lt (show n₁ < 65536 from hn₁)] using hq⟩

/-- The content of a built node: the leaf of a single entry that ends here, or an internal node whose entries all
go on. -/
theorem Built.node {m : List (Nat × TrieNode)} {k d n : Nat} {list : List CodeEntry} (h : Built m k list d n) :
    (∃ e, list = [e] ∧ e.len = d ∧ Memory.read nodeSpace m k = .ok ⟨true, e.sym, false, 0, false, 0⟩) ∨
    (∃ c0v c0 c1v c1, (∀ e ∈ list, d < e.len) ∧ (c0v = true ∨ c1v = true) ∧ (c0v = false → c0 = 0) ∧
      (c1v = false → c1 = 0) ∧ Memory.read nodeSpace m k = .ok ⟨false, 0, c0v, c0, c1v, c1⟩) := by
  cases h with
  | leaf _ _ e hd hn => exact .inl ⟨e, rfl, hd, hn⟩
  | left _ _ _ _ hlen h0 h1 hk hn b0 => exact .inr ⟨_, _, _, _, hlen, .inl rfl, by simp, by simp, hn⟩
  | right _ _ _ _ hlen h0 h1 hk hn b1 => exact .inr ⟨_, _, _, _, hlen, .inr rfl, by simp, by simp, hn⟩
  | both _ _ n₁ _ _ hlen h0 h1 hk hn₁ hn b0 b1 => exact .inr ⟨_, _, _, _, hlen, .inl rfl, by simp, by simp, hn⟩

theorem PrefixFree.distinct {list : List CodeEntry} (h : PrefixFree list) : (list.map CodeEntry.code).Nodup := by
  rw [List.nodup_iff_pairwise_ne, List.pairwise_map]
  exact List.Pairwise.imp (fun hab heq => hab.1 (by rw [heq])) h

/-- A trie built from the root has the shape of R29. -/
theorem Built.trieShape {m : List (Nat × TrieNode)} {n : Nat} {list table : List CodeEntry}
    (h : Built m 0 list 0 n) (hne : list ≠ []) (hpos : ∀ e ∈ list, e.len ≠ 0) (hpf : PrefixFree table)
    (hmem : ∀ e, e ∈ list ↔ e ∈ table) : TrieShape m n table := by
  have hnode : ∀ j, j < n → ∃ q sub n', walkTrie m 0 q = some j ∧ Built m j sub q.length n' ∧
      ∀ e, e ∈ sub ↔ e ∈ table ∧ q <+: e.code := by
    intro j hj
    obtain ⟨q, hq⟩ := h.walk_onto (Nat.zero_le j) hj
    obtain ⟨sub, n', h₁, _, _, h₄⟩ := h.walk_built q hq
    exact ⟨q, sub, n', hq, by simpa using h₁, fun e => by rw [h₄ e, hmem]; simp⟩
  refine ⟨fun p => ?_, fun p q k hp hq => h.walk_injective hp hq, fun k => ?_, fun p k hp => ?_, hpf.distinct, ?_,
    fun k n hk hn hl => ?_, fun k n hk hn hl => ?_⟩
  · rw [h.walk_isSome hne]; simp [hmem]
  · exact ⟨fun hk => h.walk_onto (Nat.zero_le k) hk, fun ⟨p, hp⟩ => (h.walk_range hp).2⟩
  · obtain ⟨sub, n', h₁, _, _, h₄⟩ := h.walk_built p hp
    rcases h₁.node with ⟨e, rfl, hd, hn⟩ | ⟨c0v, c0, c1v, c1, hlong, _, _, _, hn⟩
    · have he : ∀ e', e' ∈ table → e'.code = p → e' = e := by
        intro e' he' hc
        simpa using (h₄ e').2 ⟨(hmem e').2 he', by simp [hc]⟩
      have hmem' : e ∈ list ∧ p <+: e.code := by simpa using (h₄ e).1 (by simp)
      have hcode : e.code = p := by
        obtain ⟨r, hr⟩ := hmem'.2
        have : r = [] := by
          have := congrArg List.length hr
          simp only [CodeEntry.len] at hd
          exact List.eq_nil_of_length_eq_zero (by simp at this; omega)
        simpa [this] using hr.symm
      refine ⟨_, hn, ?_, ?_⟩
      · simp only [true_iff]; exact ⟨e, (hmem e).1 hmem'.1, hcode⟩
      · intro e' he' hc; rw [he e' he' hc]
    · refine ⟨_, hn, ?_, ?_⟩
      · simp only [Bool.false_eq_true, false_iff, not_exists, not_and]
        intro e he hc
        have := hlong e ((h₄ e).2 ⟨(hmem e).2 he, by simp [hc]⟩)
        simp [CodeEntry.len, hc] at this
      · intro e he hc
        have := hlong e ((h₄ e).2 ⟨(hmem e).2 he, by simp [hc]⟩)
        simp [CodeEntry.len, hc] at this
  · rcases h.node with ⟨e, rfl, hd, _⟩ | ⟨_, _, _, _, _, _, _, _, hn⟩
    · exact absurd hd (hpos e (by simp))
    · exact ⟨_, hn, rfl⟩
  · obtain ⟨q, sub, n', _, hb, _⟩ := hnode k hk
    rcases hb.node with ⟨e, _, _, hn'⟩ | ⟨_, _, _, _, _, _, _, _, hn'⟩
    · rw [hn] at hn'; cases hn'; exact ⟨rfl, rfl, rfl, rfl⟩
    · rw [hn] at hn'; cases hn'; cases hl
  · obtain ⟨q, sub, n', _, hb, _⟩ := hnode k hk
    rcases hb.node with ⟨e, _, _, hn'⟩ | ⟨_, _, _, _, _, h₁, h₂, h₃, hn'⟩
    · rw [hn] at hn'; cases hn'; cases hl
    · rw [hn] at hn'; cases hn'; exact ⟨rfl, h₁, h₂, h₃⟩

/-! ### The fuel of `build` -/

/-- More fuel than the codewords are long changes nothing: `build` satisfies R118's recursion without it. -/
theorem build_fuel_irrelevant (fuel extra : Nat) (list : List CodeEntry) (d : Nat) (s : State)
    (hne : list ≠ []) (hlen : ∀ e ∈ list, d ≤ e.len) (hfuel : ∀ e ∈ list, e.len < fuel + d) :
    build (fuel + extra) list d s = build fuel list d s := by
  induction fuel generalizing list d s with
  | zero =>
    obtain ⟨e, he⟩ := List.exists_mem_of_ne_nil _ hne
    have := hlen e he; have := hfuel e he; omega
  | succ fuel ih =>
    rw [show fuel + 1 + extra = (fuel + extra) + 1 by omega]
    by_cases hshort : list.any (fun e => e.len ≤ d) = true
    · simp only [build, hshort, if_true]
    · have hlong : ∀ e ∈ list, d < e.len := by
        intro e he
        by_contra hc
        exact hshort (List.any_eq_true.2 ⟨e, he, by simpa using hc⟩)
      have child : ∀ b s', build.buildChild (build (fuel + extra)) (withBitAt b d list) (d + 1) s' =
          build.buildChild (build fuel) (withBitAt b d list) (d + 1) s' := by
        intro b s'
        by_cases hb : withBitAt b d list = []
        · simp [build.buildChild, hb]
        · simp only [build.buildChild, hb, if_false]
          rw [ih _ _ _ hb (fun e he => hlong e (mem_withBitAt.1 he).1)
            (fun e he => by have := hfuel e (mem_withBitAt.1 he).1; omega)]
      simp only [build, child]

end Sys2Proof.Machine
end

