-- ==== Sys2Proof/Laws/Rests.lean ====
section
/-! SUPPORT. The decoders from a state at rest (spec/10_state.md R36, R37): they never stop the machine, and where they
raise no fault they leave a state at rest that differs only in the registers of their kind and in `OUT`. -/

namespace Sys2Proof.Machine

/-- The result does not stop the machine, and where it runs to its end it ends in a state with `R`. -/
def Result.Completes (R : State → Prop) (r : Result Unit) : Prop :=
  match r with
  | .ok _ t => R t
  | .raised _ _ => True
  | .stop _ => False

theorem Result.Completes.bind {R S : State → Prop} {r : Result Unit} {f : Unit → State → Result Unit}
    (h : r.Completes R) (hf : ∀ t, R t → (f () t).Completes S) : (r.bind f).Completes S := by
  cases r <;> simp_all [Result.Completes, Result.bind]

theorem Result.Completes.mono {R S : State → Prop} {r : Result Unit} (h : r.Completes R) (hf : ∀ t, R t → S t) :
    r.Completes S := by
  cases r <;> simp_all [Result.Completes]

theorem forEach_completes {α : Type} {R : State → Prop} {f : α → State → Result Unit}
    (hf : ∀ a s, R s → (f a s).Completes R) (l : List α) (s : State) (h : R s) : (forEach f l s).Completes R := by
  induction l generalizing s with
  | nil => exact h
  | cons a l ih => exact (hf a s h).bind fun t ht => ih t ht

/-- The prefix walker at rest, in a state that differs from `s` only in `CURSOR` and `OUT`. -/
def PrefixRest (s t : State) : Prop := CursorRests t ∧ ∃ c o, t = { s with cursor := c, out := o }

/-- The carry register at rest, in a state that differs from `s` only in `CARRY`, `CCNT` and `OUT`. -/
def FixedRest (s t : State) : Prop := CarryRests t ∧ ∃ c k o, t = { s with carry := c, ccnt := k, out := o }

/-- `PSTEP` on a trie of R29 (R171, R172). -/
theorem pstep_rests {table : List CodeEntry} (s0 : State) (hT : TrieShape s0.node s0.nnode.toNat table) (b : Bool)
    (s : State) (h : PrefixRest s0 s) : Result.Completes (PrefixRest s0) (pstep b s) := by
  obtain ⟨⟨h1, n, hn, hl⟩, c, o, rfl⟩ := h
  dsimp only at h1 hn
  rcases pstep_eq (b := b) (s := { s0 with cursor := c, out := o }) hn with
      ⟨_, h⟩ | ⟨t, m, hc, hm, hml, h⟩ | ⟨t, m, hc, hm, hml, h⟩ | ⟨t, f, hc, hm, h⟩ <;>
    rw [h]
  · trivial
  · refine ⟨⟨?_, hT.root⟩, 0, _, rfl⟩
    dsimp only; simp; omega
  · refine ⟨⟨?_, m, hm, hml⟩, _, _, rfl⟩
    dsimp only
    rw [hT.indices]
    obtain ⟨p, hp⟩ := (hT.indices _).1 h1
    refine ⟨p ++ [b], ?_⟩
    rw [walkTrie_append, hp]; simp [walkTrie, hn, hc]
  · exfalso
    obtain ⟨p, hp⟩ := (hT.indices _).1 h1
    have hp' : walkTrie s0.node 0 (p ++ [b]) = some t.toNat := by
      rw [walkTrie_append, hp]; simp [walkTrie, hn, hc]
    obtain ⟨n', hn', _⟩ := hT.leaves _ _ hp'
    dsimp only at hm
    rw [hn'] at hm; cases hm

/-- `LOOKUP` (R183). -/
theorem lookupSymbol_rests (v : Byte) (s0 s : State) (h : FixedRest s0 s) :
    Result.Completes (FixedRest s0) (lookupSymbol v s) := by
  obtain ⟨d, _, he⟩ := lookupSymbol_eq v s
  rw [he]
  cases d.valid
  · trivial
  · obtain ⟨h, c, k, o, rfl⟩ := h
    exact ⟨h, _, _, _, rfl⟩
/-- `FSTEP` (R182). -/
theorem fstep_rests (b : Bool) (s0 s : State) (h : FixedRest s0 s) : Result.Completes (FixedRest s0) (fstep b s) := by
  obtain ⟨⟨h1, h2, h3⟩, c, k, o, rfl⟩ := h
  dsimp only at h1 h2 h3
  simp only [fstep, completeCarry]
  have hk : (k + 1).toNat = k.toNat + 1 := by simp [Config.lfixMax] at h2; rw [BitVec.toNat_add]; simp; omega
  split
  · next he =>
    refine lookupSymbol_rests _ _ _ ⟨⟨?_, h2, ?_⟩, _, _, _, rfl⟩
    · show 0 < s0.l.toNat; omega
    · show 0 < 1; omega
  · next he =>
    refine ⟨⟨?_, h2, ?_⟩, _, _, _, rfl⟩
    · dsimp only at he ⊢; rw [hk]
      have : (k+1).toNat ≠ s0.l.toNat := fun h => he (BitVec.eq_of_toNat_eq h)
      omega
    · dsimp only; rw [hk]
      have : c.toNat < 2^7 := lt_of_lt_of_le h3
        (Nat.pow_le_pow_right (by omega) (by simp [Config.lfixMax] at h2; omega))
      have : (c <<< 1 ||| BitVec.ofNat 8 b.toNat).toNat = 2 * c.toNat + b.toNat := by
        cases b
        · simp; omega
        · simp only [BitVec.toNat_or, BitVec.toNat_shiftLeft, Nat.shiftLeft_eq]
          simp
          rw [Nat.mod_eq_of_lt (by omega)]
          rw [show c.toNat * 2 = c.toNat <<< 1 by rw [Nat.shiftLeft_eq],
            ← Nat.shiftLeft_add_eq_or_of_lt (by norm_num)]
          rw [Nat.shiftLeft_eq]; omega
      rw [this, Nat.pow_succ]; have := Bool.toNat_le b; omega

/-- The loop of `FBYTE` (R181, R185): it ends, and nothing overflows. -/
theorem fbyteLoop_rests (B : Byte) (u : Nat) (s0 : State) :
    ∀ fuel pos s, FixedRest s0 s → u ≤ pos + fuel → u ≤ 8 →
      Result.Completes (FixedRest s0) (fbyteLoop B u fuel pos s) := by
  intro fuel
  induction fuel with
  | zero => intro pos s h hu _; unfold fbyteLoop; rw [if_neg (by omega)]; exact h
  | succ fuel ih =>
    intro pos s h hu hu8
    unfold fbyteLoop
    split
    · next hlt =>
      have h' := h
      obtain ⟨⟨h1, h2, h3⟩, c, k, o, rfl⟩ := h
      dsimp only at h1 h2 h3 ⊢
      simp only [Config.lfixMax] at h2
      split
      · next hk0 =>
        set t := min (s0.l.toNat - k.toNat) (u - pos) with ht
        have ht1 : 1 ≤ t := by omega
        have hkt : (k + BitVec.ofNat 4 t).toNat = k.toNat + t := by
          rw [BitVec.toNat_add, BitVec.toNat_ofNat, Nat.mod_eq_of_lt (a := t) (by omega), Nat.mod_eq_of_lt (by omega)]
        have hc : (c <<< t ||| bitField B pos t).toNat < 2 ^ (k.toNat + t) := by
          rw [BitVec.toNat_or]
          refine Nat.or_lt_two_pow ?_ ?_
          · rw [BitVec.toNat_shiftLeft]
            refine lt_of_le_of_lt (Nat.mod_le _ _) ?_
            rw [Nat.shiftLeft_eq, Nat.pow_add]; exact Nat.mul_lt_mul_of_pos_right h3 (by positivity)
          · simp only [bitField, BitVec.toNat_ofNat]
            refine lt_of_le_of_lt (Nat.mod_le _ _) (lt_of_lt_of_le (Nat.mod_lt _ (by positivity))
              (Nat.pow_le_pow_right (by omega) (by omega)))
        refine Result.Completes.bind (R := FixedRest s0) ?_ fun t' ht' => ih _ _ ht' (by omega) hu8
        simp only [completeCarry]
        split
        · refine lookupSymbol_rests _ _ _ ⟨⟨?_, h2, ?_⟩, _, _, _, rfl⟩
          · show 0 < s0.l.toNat; omega
          · show 0 < 1; omega
        · next he =>
          refine ⟨⟨?_, h2, ?_⟩, _, _, _, rfl⟩
          · dsimp only at he ⊢; rw [hkt]
            have : (k + BitVec.ofNat 4 t).toNat ≠ s0.l.toNat := fun h => he (BitVec.eq_of_toNat_eq h)
            omega
          · dsimp only; rw [hkt]; exact hc
      · next hk0 =>
        split
        · refine Result.Completes.bind (lookupSymbol_rests _ _ _ h') fun t' ht' => ih _ _ ht' (by omega) hu8
        · refine ⟨⟨?_, h2, ?_⟩, _, _, _, rfl⟩
          · dsimp only; rw [BitVec.toNat_ofNat, Nat.mod_eq_of_lt (by omega)]; omega
          · dsimp only; rw [BitVec.toNat_ofNat, Nat.mod_eq_of_lt (by omega)]
            simp only [bitField, BitVec.toNat_ofNat]
            exact lt_of_le_of_lt (Nat.mod_le _ _) (Nat.mod_lt _ (by positivity))
    · exact h


/-- `BIT` and `BYTE` with a prefix code, from a cursor at rest on a trie of R29. -/
theorem byteStep_rests_prefix {s : State} {table : List CodeEntry} (hk : s.kind = .prefixCode)
    (hT : TrieShape s.node s.nnode.toNat table) (hC : CursorRests s) :
    (∀ b, (bitStep b s).Completes (PrefixRest s)) ∧ (∀ B u, (byteStep B u s).Completes (PrefixRest s)) := by
  have h0 : PrefixRest s s := ⟨hC, s.cursor, s.out, rfl⟩
  simp only [byteStep, bitStep, hk]
  exact ⟨fun b => pstep_rests s hT b s h0, fun B u => forEach_completes (fun a t => pstep_rests s hT a t) _ _ h0⟩

/-- `BIT` and `BYTE` with a fixed-width code, from a carry register at rest. -/
theorem byteStep_rests_fixed {s : State} (hk : s.kind = .fixedCode) (hC : CarryRests s) :
    (∀ b, (bitStep b s).Completes (FixedRest s)) ∧ (∀ B u, u ≤ 8 → (byteStep B u s).Completes (FixedRest s)) := by
  have h0 : FixedRest s s := ⟨hC, s.carry, s.ccnt, s.out, rfl⟩
  simp only [byteStep, bitStep, hk, fbyte]
  exact ⟨fun b => fstep_rests b s s h0, fun B u hu => fbyteLoop_rests B u s u 0 s h0 (by omega) hu⟩

end Sys2Proof.Machine
end

