-- ==== Sys2Proof/Laws/Step.lean ====
section
/-! SUPPORT. What a step can do (spec/20_memory.md R51, spec/30_encoding.md R74, spec/60_exceptions.md R255,
spec/70_reset_and_hazards.md R270), and the word that `withFetchWord` presents. -/

namespace Sys2Proof.Machine

@[simp] theorem State.dropInput_present (w : Word) (s : State) : (s.present w).dropInput = s := rfl

theorem step_waits {s : State} (h : s.input = []) : step s = .next s := by simp [step, stepOnce, h]

theorem step_hardReset {s : State} {rest : List HostInput} (h : s.input = .hardReset :: rest) :
    step s = .next { s with input := rest }.resetSession := by
  simp [step, stepOnce, h, State.dropInput]

theorem step_word {s : State} {w : Word} {rest : List HostInput} (h : s.input = .word w :: rest) :
    step s = runWord w { s with input := rest } := by
  simp [step, stepOnce, h, State.dropInput]

theorem runWord_ok {w : Word} {i : Instr} {s : State} (h : decode w = .ok i) : runWord w s = exec i s := by
  simp [runWord, h]

theorem runWord_error {w : Word} {e : DecodeError} {s : State} (h : decode w = .error e) :
    runWord w s = .next (rejectWord e s) := by simp [runWord, h]

/-- Everything a step can do. -/
theorem step_cases {s : State} {o : Host.Outcome State Fault Refusal} (h : step s = o) :
    (s.input = [] ∧ o = .next s) ∨
    (∃ rest, s.input = .hardReset :: rest ∧ o = .next { s with input := rest }.resetSession) ∨
    (∃ w rest i, s.input = .word w :: rest ∧ decode w = .ok i ∧ o = exec i { s with input := rest }) ∨
    (∃ w rest e, s.input = .word w :: rest ∧ decode w = .error e ∧
      o = .next (rejectWord e { s with input := rest })) := by
  subst h
  rcases hi : s.input with _ | ⟨x, rest⟩
  · exact .inl ⟨rfl, step_waits hi⟩
  · cases x with
    | hardReset => exact .inr (.inl ⟨rest, rfl, step_hardReset hi⟩)
    | word w =>
      cases hd : decode w with
      | ok i => exact .inr (.inr (.inl ⟨w, rest, i, rfl, hd, by rw [step_word hi, runWord_ok hd]⟩))
      | error e => exact .inr (.inr (.inr ⟨w, rest, e, rfl, hd, by rw [step_word hi, runWord_error hd]⟩))

/-- A word placed with `withFetchWord` is the one the next step runs. -/
theorem step_withFetchWord (s : State) (nbits w : Nat) :
    step (s.withFetchWord nbits w) = runWord (BitVec.ofNat 16 (w % 2 ^ nbits)) s := rfl

/-- The pseudocode that the meaning of an instruction runs after the checks of R74. -/
def pseudocode (i : Instr) (s : State) : Result Unit :=
  match i with
  | .nop => .ok () s
  | .rst => .ok () s.resetSession
  | .cfg arg => .ok () { s with mode := argMode arg, phase := .load }
  | .ent arg => entBody arg s
  | .cwb arg => cwbBody arg s
  | .bld => bldBody s
  | .dat arg => datBody arg s
  | .endBody => endBodyBody s

/-- Every meaning is the shared checks and then its pseudocode (R74). -/
theorem exec_eq_command (i : Instr) (s : State) : exec i s = command i.opcode i.arg (pseudocode i) s := by
  cases i <;> rfl

/-- In phase `FAULT` every instruction but `RST` is ignored (R81). -/
theorem exec_in_fault {i : Instr} {s : State} (h : s.phase = .fault) (hi : i ≠ .rst) : exec i s = .next s := by
  rw [exec_eq_command, command_in_fault h]
  cases i <;> simp [Instr.opcode] at hi ⊢

/-- `RST` in every phase (R102). -/
theorem exec_rst (s : State) : exec .rst s = .next s.resetSession :=
  (exec_eq_command .rst s).trans
    (command_legal (op := .rst) (arg := 0) (body := pseudocode .rst) (fun _ => rfl) (by decide) rfl)

/-- A well-formed instruction in a phase in which it is legal runs its pseudocode. -/
theorem exec_legal {i : Instr} {s : State} (hf : s.phase ≠ .fault) (hw : i.wellFormed = true)
    (hl : legalIn i.opcode s.phase = true) : exec i s = (pseudocode i s).finish := by
  rw [exec_eq_command, command_legal (fun h => absurd h hf) hw hl]

/-- No step is refused: every instruction has its meaning. -/
theorem exec_not_refused (i : Instr) (s : State) (r : Refusal) : exec i s ≠ .refused r := by
  cases i <;> simp only [exec, execNop, execRst, execCfg, execEnt, execCwb, execBld, execDat, execEndBody] <;>
    exact command_not_refused r

end Sys2Proof.Machine
end

