-- ==== Sys2Proof/Laws/Table.lean ====
section
/-! SUPPORT. The spec lemmas of the table commands (spec/41_table_build.md R111 to R115, R121): the code table as a
list, and everything `ENT`, `CWB`, the two validations and the array build can do. -/

namespace Sys2Proof.Machine

/-! ### The code table as a list -/

theorem readEntries_eq_ok {ct : List (Nat × CodeEntry)} {i n : Nat} {table : List CodeEntry} :
    readEntries ct i n = .ok table ↔
      table.length = n ∧ ∀ j (h : j < table.length), Memory.read ctSpace ct (i + j) = .ok table[j] := by
  induction n generalizing i table with
  | zero =>
    simp only [readEntries, Except.ok.injEq]
    constructor
    · rintro rfl; simp
    · rintro ⟨h, _⟩; exact (List.eq_nil_of_length_eq_zero h).symm
  | succ n ih =>
    simp only [readEntries]
    cases hr : Memory.read ctSpace ct i with
    | error f =>
      simp only [reduceCtorEq, false_iff, not_and]
      intro hl hall
      have := hall 0 (by omega)
      simp [hr] at this
    | ok e =>
      cases table with
      | nil =>
        simp only [List.length_nil]
        constructor
        · intro h
          cases hrest : readEntries ct (i + 1) n <;> simp [hrest] at h
        · rintro ⟨h, _⟩; omega
      | cons a rest =>
        have ih' := @ih (i + 1) rest
        cases hrest : readEntries ct (i + 1) n with
        | error f =>
          simp only [reduceCtorEq, false_iff, not_and]
          intro hl hall
          rw [hrest] at ih'
          simp only [reduceCtorEq, false_iff, not_and] at ih'
          refine ih' (by simpa using hl) fun j hj => ?_
          have := hall (j + 1) (by simpa using hj)
          simpa [Nat.add_assoc, Nat.add_comm 1] using this
        | ok es =>
          rw [hrest] at ih'
          simp only [Except.ok.injEq, List.cons.injEq]
          constructor
          · rintro ⟨rfl, rfl⟩
            obtain ⟨hl, hall⟩ := ih'.1 rfl
            refine ⟨by simpa using hl, fun j hj => ?_⟩
            cases j with
            | zero => simpa using hr
            | succ j =>
              have := hall j (by simpa using hj)
              simpa [Nat.add_assoc, Nat.add_comm 1] using this
          · rintro ⟨hl, hall⟩
            have h0 := hall 0 (by simp)
            simp only [Nat.add_zero, List.getElem_cons_zero, hr, Except.ok.injEq] at h0
            refine ⟨h0, ?_⟩
            have := ih'.2 ⟨by simpa using hl, fun j hj => by
              have := hall (j + 1) (by simpa using hj)
              simpa [Nat.add_assoc, Nat.add_comm 1] using this⟩
            simpa using this

/-- The code table is the list of the elements below `NENT` (R110). -/
theorem State.table_eq_ok {s : State} {table : List CodeEntry} :
    s.table = .ok table ↔ table.length = s.nent.toNat ∧
      ∀ j (h : j < table.length), Memory.read ctSpace s.ct j = .ok table[j] := by
  simp [State.table, readEntries_eq_ok]

/-! ### ENT and CWB -/

theorem writeCT_ok {i : Nat} {e : CodeEntry} {s : State} (hi : i < 256) :
    writeCT i e s = .ok () { s with ct := Memory.put ctSpace s.ct i e } := by
  simp [writeCT, Memory.write_ok (sp := ctSpace) (show i < ctSpace.size from hi)]

/-- `ENT` on a table with room appends an entry with an empty codeword (R111). -/
theorem entBody_room {arg : Byte} {s : State} (h : s.nent.toNat < 256) :
    entBody arg s =
      .ok () { s with ct := Memory.put ctSpace s.ct s.nent.toNat ⟨arg, []⟩, nent := s.nent + 1 } := by
  have : ¬ s.nent.toNat = Config.nentMax := by simp [Config.nentMax]; omega
  simp [entBody, this, writeCT_ok h]

/-- `ENT` on a full table (R111). -/
theorem entBody_full {arg : Byte} {s : State} (h : s.nent.toNat = 256) :
    entBody arg s = .raised .mhTableFull s := by simp [entBody, Config.nentMax, h]

/-- `CWB` on a table with no entry (R112). -/
theorem cwbBody_empty {arg : Byte} {s : State} (h : s.nent = 0) : cwbBody arg s = .raised .icNoOpenEntry s := by
  simp [cwbBody, h]

/-- `CWB` on a table whose last entry is known (R112). -/
theorem cwbBody_open {arg : Byte} {s : State} {e : CodeEntry} (h : s.nent ≠ 0) (hn : s.nent.toNat ≤ 256)
    (he : Memory.read ctSpace s.ct (s.nent.toNat - 1) = .ok e) :
    cwbBody arg s =
      if e.len = 255 then .raised .mhCodeTooLong s
      else .ok () { s with ct := Memory.put ctSpace s.ct (s.nent.toNat - 1) ⟨e.sym, e.code ++ [argBit arg]⟩ } := by
  simp only [cwbBody, h, if_false, he, Result.ofExcept_ok, Result.bind_ok, Config.cwMax]
  rw [writeCT_ok (by omega)]

/-! ### Validation -/

/-- Common validation passes exactly a table with no empty codeword that is not empty (R114). -/
theorem validateCommon_eq_none {table : List CodeEntry} :
    validateCommon table = none ↔ table ≠ [] ∧ ∀ e ∈ table, e.len ≠ 0 := by
  simp only [validateCommon]
  by_cases h : table = []
  · simp [h]
  · simp [h]

/-- Fixed-width validation passes exactly a table of one length up to 8 (R115). -/
theorem fixedLength_eq_ok {table : List CodeEntry} {len : Nat} (hne : table ≠ []) :
    fixedLength table = .ok len ↔ (∀ e ∈ table, e.len = len) ∧ len ≤ 8 := by
  cases table with
  | nil => exact absurd rfl hne
  | cons e rest =>
    simp only [fixedLength, Config.lfixMax]
    split
    · next h =>
      simp only [List.any_eq_true, decide_eq_true_eq] at h
      obtain ⟨x, hx, hxl⟩ := h
      simp only [reduceCtorEq, List.mem_cons, forall_eq_or_imp, false_iff, not_and]
      intro h₁ _
      exact absurd (h₁.2 x hx) (by rw [← h₁.1]; simpa using hxl)
    · next h =>
      simp only [List.any_eq_true, decide_eq_true_eq, not_exists, not_and, not_not] at h
      split
      · simp only [reduceCtorEq, List.mem_cons, forall_eq_or_imp, false_iff, not_and]
        intro h₁; have := h₁.1; omega
      · simp only [Except.ok.injEq, List.mem_cons, forall_eq_or_imp]
        constructor
        · rintro rfl; exact ⟨⟨rfl, h⟩, by omega⟩
        · rintro ⟨h₁, _⟩; exact h₁.1

theorem bitsVal_append (c : Bits) (b : Bool) : bitsVal (c ++ [b]) = 2 * bitsVal c + b.toNat := by
  simp [bitsVal]

theorem bitsVal_lt (c : Bits) : bitsVal c < 2 ^ c.length := by
  induction c using List.reverseRecOn with
  | nil => simp [bitsVal]
  | append_singleton c b ih =>
    rw [bitsVal_append, List.length_append, List.length_singleton, Nat.pow_succ]
    have := Bool.toNat_le b
    omega

/-- Codewords of one length are equal when their values are. -/
theorem bitsVal_injective {c d : Bits} (hlen : c.length = d.length) (h : bitsVal c = bitsVal d) : c = d := by
  induction c using List.reverseRecOn generalizing d with
  | nil => exact (List.eq_nil_of_length_eq_zero hlen.symm).symm
  | append_singleton c b ih =>
    rcases List.eq_nil_or_concat' d with rfl | ⟨d, b', rfl⟩
    · simp at hlen
    · rw [bitsVal_append, bitsVal_append] at h
      have hb : b = b' := by cases b <;> cases b' <;> simp at h ⊢ <;> omega
      subst hb
      rw [ih (by simpa using hlen) (by omega)]

/-! ### The code→symbol array -/

theorem writeDemux_ok {v : Nat} {d : DemuxElem} {s : State} (hv : v < 256) :
    writeDemux v d s = .ok () { s with demux := Memory.put demuxSpace s.demux v d } := by
  simp [writeDemux, Memory.write_ok (sp := demuxSpace) (show v < demuxSpace.size from hv)]

/-- The loop of R121 with the values below 256: it runs to its end exactly when the values are distinct and none is
taken already, and raises 0x17 in the other case; what the array then holds; it changes nothing but `DEMUX`. -/
theorem demuxEntries_cases (table : List CodeEntry) (s : State) (hv : ∀ e ∈ table, bitsVal e.code < 256)
    (hwf : Memory.wf demuxSpace s.demux = true) :
    ((∃ demux, forEach demuxEntry table s = .ok () { s with demux := demux } ∧ Memory.wf demuxSpace demux = true ∧
        (table.map fun e => bitsVal e.code).Nodup ∧
        (∀ e ∈ table, ∀ d, Memory.read demuxSpace s.demux (bitsVal e.code) = .ok d → d.valid = false) ∧
        (∀ e ∈ table, Memory.read demuxSpace demux (bitsVal e.code) = .ok ⟨true, e.sym⟩) ∧
        (∀ v, (∀ e ∈ table, bitsVal e.code ≠ v) →
          Memory.read demuxSpace demux v = Memory.read demuxSpace s.demux v)) ∨
     (∃ t, forEach demuxEntry table s = .raised .mhDupCode t ∧ t.out = s.out ∧ t.input = s.input ∧
        t.draws = s.draws ∧
        ¬ ((table.map fun e => bitsVal e.code).Nodup ∧
          ∀ e ∈ table, ∀ d, Memory.read demuxSpace s.demux (bitsVal e.code) = .ok d → d.valid = false))) := by
  induction table generalizing s with
  | nil => exact .inl ⟨s.demux, rfl, hwf, by simp, by simp, by simp, by simp⟩
  | cons e rest ih =>
    have hve : bitsVal e.code < 256 := hv e (by simp)
    obtain ⟨d, hd⟩ := read_demux_ok (m := s.demux) hve
    cases hdv : d.valid with
    | true =>
      right
      refine ⟨s, by simp [demuxEntry, hd, hdv], rfl, rfl, rfl, fun h => ?_⟩
      have := h.2 e (by simp) d hd
      simp [hdv] at this
    | false =>
      have hstep : demuxEntry e s = .ok () { s with demux := Memory.put demuxSpace s.demux (bitsVal e.code) ⟨true, e.sym⟩ } := by
        simp [demuxEntry, hd, hdv, writeDemux_ok hve]
      have hsame : Memory.read demuxSpace (Memory.put demuxSpace s.demux (bitsVal e.code) ⟨true, e.sym⟩)
          (bitsVal e.code) = .ok ⟨true, e.sym⟩ := Memory.read_put_same _ hwf hve
      have hwf' := Memory.wf_put (sp := demuxSpace) ⟨true, e.sym⟩ hwf hve
      rcases ih { s with demux := Memory.put demuxSpace s.demux (bitsVal e.code) ⟨true, e.sym⟩ }
        (fun e' he' => hv e' (by simp [he']))
        hwf' with
        ⟨demux, h₁, h₂, h₃, h₄, h₅, h₆⟩ | ⟨t, h₁, h₂, h₃, h₄, h₅⟩
      · left
        dsimp only at h₄ h₅ h₆
        have hnew : ∀ e' ∈ rest, bitsVal e'.code ≠ bitsVal e.code := by
          intro e' he' heq
          have := h₄ e' he' ⟨true, e.sym⟩ (by rw [heq]; exact hsame)
          simp at this
        refine ⟨demux, by rw [forEach_cons, hstep]; exact h₁, h₂, ?_, ?_, ?_, ?_⟩
        · rw [List.map_cons, List.nodup_cons]
          refine ⟨fun hmem => ?_, h₃⟩
          obtain ⟨e', he', heq⟩ := List.mem_map.1 hmem
          exact hnew e' he' heq
        · intro e' he' d' hd'
          rcases List.mem_cons.1 he' with rfl | he'
          · rw [hd] at hd'; cases hd'; exact hdv
          · refine h₄ e' he' d' ?_
            rw [Memory.read_put_other _ (hnew e' he')]; exact hd'
        · intro e' he'
          rcases List.mem_cons.1 he' with rfl | he'
          · rw [h₆ _ fun e' he' => hnew e' he']; exact hsame
          · exact h₅ e' he'
        · intro v hne
          rw [h₆ v fun e' he' => hne e' (by simp [he'])]
          exact Memory.read_put_other _ (fun h => hne e (by simp) h.symm)
      · right
        dsimp only at h₅
        refine ⟨t, by rw [forEach_cons, hstep]; exact h₁, h₂, h₃, h₄, fun h => h₅ ⟨?_, ?_⟩⟩
        · exact (List.nodup_cons.1 h.1).2
        · intro e' he' d' hd'
          have hne : bitsVal e'.code ≠ bitsVal e.code := by
            intro heq
            exact (List.nodup_cons.1 h.1).1 (List.mem_map.2 ⟨e', he', heq⟩)
          have hd'' : Memory.read demuxSpace s.demux (bitsVal e'.code) = .ok d' := by
            rw [← hd']; exact (Memory.read_put_other _ hne).symm
          exact h.2 e' (by simp [he']) d' hd''

end Sys2Proof.Machine
end

