-- ==== Sys2Proof/Tests/Slice0.lean ====
section
/-! SUPPORT. The model's own tests: words written out from spec/30_encoding.md, one-step tests whose expected results
come from spec/95_test_vectors.md and the worked builds of R124, and for each obligation that has hypotheses a
witness that meets them (`witness_<obligation>`). -/

namespace Sys2Proof.Tests

open Sys2Proof.Machine

/-- The next state an answer gives, if it is one. -/
def nextOf (o : Host.Outcome State Fault Refusal) : Option State :=
  match o with
  | .next t => some t
  | .fault _ => none
  | .refused _ => none

/-- What a word does in a state, as the host sees it. -/
def seen (w : Word) (s : State) : Option Observation := observed (step (s.present w))

/-! ### Well-formedness: reserved operand bits (R72, R76) -/

theorem test_cfg_reserved_refused : (Instr.cfg 0x04).wellFormed = false := by decide
theorem test_cwb_reserved_refused : (Instr.cwb 0x02).wellFormed = false := by decide
theorem test_wellFormed_accepts :
    (Instr.cfg 0x03).wellFormed = true ∧ (Instr.cwb 0x01).wellFormed = true ∧ (Instr.ent 0xFF).wellFormed = true ∧
      (Instr.dat 0xFF).wellFormed = true := by decide

/-! ### Decoding: words written out from R71 to R73, bits 15..8 `op`, bits 7..0 `arg` -/

theorem test_decode_nop : decodeTableWord 16 0b0000000000000000 = some .nop := by decide
theorem test_decode_rst : decodeTableWord 16 0b0000000100000000 = some .rst := by decide
theorem test_decode_cfg : decodeTableWord 16 0b0000001000000010 = some (.cfg 0x02) := by decide
theorem test_decode_ent : decodeTableWord 16 0b0000001101100001 = some (.ent 0x61) := by decide
theorem test_decode_cwb : decodeTableWord 16 0b0000010000000001 = some (.cwb 0x01) := by decide
theorem test_decode_bld : decodeTableWord 16 0b0000010100000000 = some .bld := by decide
theorem test_decode_dat : decodeTableWord 16 0b0000011010110111 = some (.dat 0xB7) := by decide
theorem test_decode_end : decodeTableWord 16 0b0000011100000000 = some .endBody := by decide
theorem test_decode_rejects :
    decode 0x0800 = .error .undefinedOpcode ∧ decode 0xFFFF = .error .undefinedOpcode ∧
    decode 0x0501 = .error .reservedBits ∧ decode 0x0101 = .error .reservedBits ∧
    decode 0x0402 = .error .reservedBits ∧ decode 0x0204 = .error .reservedBits := by decide

/-! ### Small states -/

/-- The table a `0`, b `10` (V10): bit 1 twice is a dead end. -/
def tableAB : List CodeEntry := [⟨0x61, [false]⟩, ⟨0x62, [true, false]⟩]

/-- Its trie, numbered as R118 numbers it. -/
def nodeAB : List (Nat × TrieNode) :=
  [(0, ⟨false, 0, true, 1, true, 2⟩), (1, ⟨true, 0x61, false, 0, false, 0⟩),
   (2, ⟨false, 0, true, 3, false, 0⟩), (3, ⟨true, 0x62, false, 0, false, 0⟩)]

/-- Phase `LOAD` in a mode, with a table loaded. -/
def loaded (mode : BitVec 2) (table : List CodeEntry) : State :=
  { State.reset with phase := .load, mode := mode, nent := BitVec.ofNat 9 table.length,
                     ct := table.zipIdx.map fun c => (c.2, c.1) }

/-- Phase `RUN`, prefix code of `tableAB`, in a format. -/
def runAB (mode : BitVec 2) : State :=
  { loaded mode tableAB with phase := .run, nnode := 4, node := nodeAB }

/-- The table e `100`, d `011` of V6. -/
def tableDE : List CodeEntry := [⟨0x65, [true, false, false]⟩, ⟨0x64, [false, true, true]⟩]

/-- Phase `RUN`, fixed-width code of `tableDE`, in a format. -/
def runDE (mode : BitVec 2) : State :=
  { loaded mode tableDE with phase := .run, l := 3, demux := [(3, ⟨true, 0x64⟩), (4, ⟨true, 0x65⟩)] }

/-- Phase `FAULT` with cause 0x30. -/
def faulted : State := { State.reset with phase := .fault, cause := 0x30 }

/-! ### One step of each command -/

/-- V24: `NOP` in `RUN` with `CURSOR = 2`. -/
theorem test_nop : nextOf (exec .nop { runAB 2 with cursor := 2 }) = some { runAB 2 with cursor := 2 } := by decide

/-- V24: `RST` in `FAULT` and in `RUN`. -/
theorem test_rst_from_fault : nextOf (exec .rst faulted) = some State.reset := by decide
theorem test_rst_from_run :
    nextOf (exec .rst { runAB 2 with pvalid := true, holdv := true, out := [0x61] }) = some State.reset := by decide

/-- V24: `CFG FIXED, BINARY` in `IDLE`, and `CFG` again in `LOAD`. -/
theorem test_cfg : nextOf (exec (.cfg 3) State.reset) = some { State.reset with phase := .load, mode := 3 } := by decide
theorem test_cfg_again : seen 0x0202 (loaded 2 []) = some ⟨[], .fault, 0x32⟩ := by decide

/-- R111: `ENT` after one entry. -/
theorem test_ent :
    nextOf (exec (.ent 0x62) (loaded 2 [⟨0x61, [false]⟩])) = some (loaded 2 [⟨0x61, [false]⟩, ⟨0x62, []⟩]) := by
  decide

/-- V18: the 257th `ENT`. -/
theorem test_ent_full :
    seen 0x0300 { loaded 2 [] with nent := 256 } = some ⟨[], .fault, 0x13⟩ := by decide

/-- R112: the second bit of the last codeword; V18: `CWB` straight after `CFG`. -/
theorem test_cwb :
    nextOf (exec (.cwb 0) (loaded 2 [⟨0x61, [false]⟩, ⟨0x62, [true]⟩])) = some (loaded 2 tableAB) := by decide
theorem test_cwb_no_entry : seen 0x0401 (loaded 2 []) = some ⟨[], .fault, 0x33⟩ := by decide

/-- The table of R124 (b), the one where the source's literal build fails (conflict C1). -/
def tableC1 : List CodeEntry :=
  [⟨0x61, [false, false]⟩, ⟨0x62, [false, true, false]⟩, ⟨0x63, [false, true, true]⟩, ⟨0x64, [true, false]⟩,
   ⟨0x65, [true, true, false]⟩, ⟨0x66, [true, true, true]⟩]

/-- R124 (b): the eleven nodes. -/
theorem test_bld_trie :
    (nextOf (exec .bld (loaded 2 tableC1))).map (fun t => (t.phase, t.nnode, t.node)) = some (.run, 11,
      [(0, ⟨false, 0, true, 1, true, 6⟩), (1, ⟨false, 0, true, 2, true, 3⟩), (2, ⟨true, 0x61, false, 0, false, 0⟩),
       (3, ⟨false, 0, true, 4, true, 5⟩), (4, ⟨true, 0x62, false, 0, false, 0⟩),
       (5, ⟨true, 0x63, false, 0, false, 0⟩), (6, ⟨false, 0, true, 7, true, 8⟩),
       (7, ⟨true, 0x64, false, 0, false, 0⟩), (8, ⟨false, 0, true, 9, true, 10⟩),
       (9, ⟨true, 0x65, false, 0, false, 0⟩), (10, ⟨true, 0x66, false, 0, false, 0⟩)]) := by decide

/-- V18 for the fixed-width array: the same codeword twice. -/
theorem test_bld_duplicate :
    seen 0x0500 (loaded 1 [⟨0x61, [false, true]⟩, ⟨0x62, [false, true]⟩]) = some ⟨[], .fault, 0x17⟩ := by decide

/-- V3: `DAT` decodes the held byte, most significant bit first, and holds its own. Here 0x58 = `0 10 11…` over the
table a `0`, b `10`: a, b, then the dead end `11` (R171). -/
theorem test_dat_dead_end :
    seen 0x0600 { runAB 2 with pvalid := true, holdv := true, hold := 0x58 } =
      some ⟨[0x61, 0x62], .fault, 0x21⟩ := by decide

/-- V27: `L = 3`, `FBYTE(0x8D, 8)` looks up `100` and `011` and carries `01`/2. -/
theorem test_dat_carry :
    (nextOf (exec (.dat 0x10) { runDE 3 with pvalid := true, holdv := true, hold := 0x8D })).map
      (fun t => (t.out, t.carry, t.ccnt, t.hold)) = some ([0x65, 0x64], 1, 2, 0x10) := by decide

/-- V9: body 0x00, 0x8D ends with two bits carried; with `P = 2` and 0x8C it is done. -/
theorem test_end_partial :
    seen 0x0700 { runDE 3 with pvalid := true, holdv := true, hold := 0x8D } =
      some ⟨[0x65, 0x64], .fault, 0x24⟩ := by decide
theorem test_end_done :
    seen 0x0700 { runDE 3 with pvalid := true, p := 2, holdv := true, hold := 0x8C } =
      some ⟨[0x65, 0x64], .done, 0⟩ := by decide

/-- V20: in `FAULT` 0x0202 and 0x0101 are ignored. V19: 0x0501 in `IDLE` is 0x31, 0x0601 is 0x32, 0x0800 is 0x30. -/
theorem test_fault_ignores :
    nextOf (step (faulted.present 0x0202)) = some faulted ∧ nextOf (step (faulted.present 0x0101)) = some faulted := by
  decide
theorem test_priority :
    seen 0x0501 State.reset = some ⟨[], .fault, 0x31⟩ ∧ seen 0x0601 State.reset = some ⟨[], .fault, 0x32⟩ ∧
    seen 0x0800 State.reset = some ⟨[], .fault, 0x30⟩ := by decide

/-- A word placed with `withFetchWord` is the one the next step runs. -/
theorem test_withFetchWord :
    nextOf (step (State.reset.withFetchWord 16 0x0201)) = some { State.reset with phase := .load, mode := 1 } := by
  decide

/-- The canonical form of the memories at reset. -/
theorem test_reset_memories_wf : MemoriesWf State.reset := ⟨rfl, rfl, rfl⟩

/-! ### Host-side reference (V26, V29, R207) -/

/-- The bytes of `"abracadabra"`. -/
def abracadabra : List Byte := [0x61, 0x62, 0x72, 0x61, 0x63, 0x61, 0x64, 0x61, 0x62, 0x72, 0x61]

theorem test_fano_code :
    produceTable .prefixCode abracadabra = .ok
      [⟨0x61, [false]⟩, ⟨0x62, [true, false]⟩, ⟨0x72, [true, true, false]⟩, ⟨0x63, [true, true, true, false]⟩,
       ⟨0x64, [true, true, true, true]⟩] := by decide

theorem test_header_text :
    headerText [⟨0x61, [false]⟩, ⟨0x20, [true, false]⟩] =
      [0x32, 0x0A, 0x61, 0x20, 0x30, 0x0A, 0x33, 0x32, 0x20, 0x31, 0x30, 0x0A] := by decide

/-- `"1\na <TAB>0 \r\n"`: whitespace-delimited (R219); `"1\na\n"`: no codeword (Scenario C, R219). -/
theorem test_header_whitespace :
    parseHeader [0x31, 0x0A, 0x61, 0x20, 0x09, 0x30, 0x20, 0x0D, 0x0A] = .ok [⟨0x61, [false]⟩] ∧
    parseHeader [0x31, 0x0A, 0x61, 0x0A] = .error .malformedHeader := by decide

/-- A count of 1 with two lines, and of 2 with one (R220, D38). -/
theorem test_header_count :
    parseHeader [0x31, 0x0A, 0x61, 0x20, 0x30, 0x0A, 0x62, 0x20, 0x31, 0x0A] = .error .malformedHeader ∧
    parseHeader [0x32, 0x0A, 0x61, 0x20, 0x30, 0x0A] = .error .malformedHeader := by decide

/-- `HEADER` is one `CODE` per entry line and no `BLD` (R89). -/
theorem test_header_commands :
    headerCommands [0x31, 0x0A, 0x61, 0x20, 0x30, 0x0A] = .ok [.ent 0x61, .cwb 0] := by decide

/-- The total byte count, and `EmptyInput` (R201). -/
theorem test_frequency_total :
    (frequencyTable abracadabra).total = 11 ∧ produceTable .fixedCode [] = .error .emptyInput := by decide

/-- The codewords of `"aaab"` (R208): a text body stands directly after the header where the layout joins them (R215),
and in its own stream where it does not (R221); a binary body stands apart from a joined text layout's header. -/
theorem test_file_layout :
    encodeInput .joinedText .prefixCode .text [0x61, 0x61, 0x61, 0x62] = .ok
      ⟨[0x32, 0x0A, 0x61, 0x20, 0x30, 0x0A, 0x62, 0x20, 0x31, 0x0A, 0x30, 0x30, 0x30, 0x31], []⟩ ∧
    encodeInput .separate .prefixCode .text [0x61, 0x61, 0x61, 0x62] = .ok
      ⟨[0x32, 0x0A, 0x61, 0x20, 0x30, 0x0A, 0x62, 0x20, 0x31, 0x0A], [0x30, 0x30, 0x30, 0x31]⟩ ∧
    encodeInput .joinedText .prefixCode .binary [0x61, 0x61, 0x61, 0x62] = .ok
      ⟨[0x32, 0x0A, 0x61, 0x20, 0x30, 0x0A, 0x62, 0x20, 0x31, 0x0A], [0x04, 0x10]⟩ := by decide

/-- Only the bytes after the last header line are the body (R280), a byte 0x0A among them (the text `1`, line `a 0`). -/
theorem test_body_after_header :
    readStreams .joined .binary [0x31, 0x0A, 0x61, 0x20, 0x30, 0x0A, 0x04, 0x0A] [] =
      .ok ([⟨0x61, [false]⟩], [0x04, 0x0A]) := by decide

/-- A sign, before a symbol's literal and before the count (log entry 9); a last line with no terminator (log
entry 9). -/
theorem test_header_choices :
    parseToken [0x2B, 0x35] = .error .invalidToken ∧ parseCount [0x2B, 0x35] = .error .malformedHeader ∧
    parseHeader [0x31, 0x0A, 0x61, 0x20, 0x30] = .ok [⟨0x61, [false]⟩] := by decide

/-- The kinds of R241 as errors of a call (R222); the symbols before the fault stay written. -/
theorem test_call_result :
    Observation.result ⟨[0x7A, 0x7A], .fault, 0x21⟩ = some ⟨[0x7A, 0x7A], some .corruptStream⟩ ∧
    Observation.result ⟨[], .fault, 0x16⟩ = some ⟨[], some .malformedHeader⟩ ∧
    Observation.result ⟨[0x61], .done, 0⟩ = some ⟨[0x61], none⟩ := by decide

/-! ### Witnesses: states and operands that meet the hypotheses of each obligation -/

/-- `nodeAB` has the shape of R29 for `tableAB`. -/
theorem trieShape_AB : TrieShape nodeAB 4 tableAB := by
  have hb : Built nodeAB 0 tableAB 0 4 :=
    .both 0 0 2 4 tableAB (by decide) (by decide) (by decide) (by decide) (by decide) rfl
      (.leaf 1 1 ⟨0x61, [false]⟩ rfl rfl)
      (.left 2 1 4 _ (by decide) (by decide) (by decide) (by decide) rfl (.leaf 3 2 ⟨0x62, [true, false]⟩ rfl rfl))
  refine hb.trieShape (by decide) (by decide) ?_ (fun _ => Iff.rfl)
  unfold PrefixFree
  decide

/-- The array of `runDE` has the shape of R32 for `tableDE`. -/
theorem demuxShape_DE (mode : BitVec 2) : DemuxShape (runDE mode).demux 3 tableDE := by
  refine ⟨by decide, fun v hv => ?_, by decide⟩
  by_cases h3 : v = 3
  · subst h3; exact ⟨_, rfl, by decide, by decide, by decide⟩
  · by_cases h4 : v = 4
    · subst h4; exact ⟨_, rfl, by decide, by decide, by decide⟩
    · refine ⟨⟨false, 0⟩, ?_, ?_, ?_, fun _ => rfl⟩
      · simp [runDE, Memory.read, Memory.lookup, demuxSpace, Config.demuxMax, hv, Ne.symm h3, Ne.symm h4]
      · simp [tableDE, bitsVal]; omega
      · simp [tableDE, bitsVal]; omega

/-- A state of phase `LOAD` meets the invariant. -/
theorem inv_loaded : SessionInvariant { loaded 2 tableAB with input := [.word 0x0401] } :=
  { memories := ⟨by decide, by decide, by decide⟩
    noFault := fun _ => rfl
    faulted := fun h => absurd h (by decide)
    live := fun _ => ⟨tableAB,
      { entries := by decide, listed := rfl, lengths := by decide, held := by decide, textIdle := by decide
        idle := by decide, load := fun _ => rfl, run := fun h => absurd h (by decide) }⟩ }

/-- A state of phase `RUN` with a prefix code and a byte held, in the middle of a codeword, meets the invariant. -/
theorem inv_run :
    SessionInvariant { runAB 2 with pvalid := true, p := 7, holdv := true, hold := 0x80, cursor := 2,
                                    input := [.word 0x0600] } :=
  { memories := ⟨by decide, by decide, by decide⟩
    noFault := fun _ => rfl
    faulted := fun h => absurd h (by decide)
    live := fun _ => ⟨tableAB,
      { entries := by decide, listed := rfl, lengths := by decide, held := by decide, textIdle := by decide
        idle := by decide, load := fun h => absurd h (by decide)
        run := fun _ => ⟨by decide, by decide,
          fun _ => ⟨trieShape_AB, ⟨by decide, _, rfl, rfl⟩, rfl, rfl, rfl, rfl⟩, fun h => absurd h (by decide)⟩ }⟩ }

/-- A state of phase `RUN` with a fixed-width code meets the invariant. -/
theorem inv_run_fixed : SessionInvariant { runDE 1 with carry := 2, ccnt := 2, input := [.word 0x0630] } :=
  { memories := ⟨by decide, by decide, by decide⟩
    noFault := fun _ => rfl
    faulted := fun h => absurd h (by decide)
    live := fun _ => ⟨tableDE,
      { entries := by decide, listed := rfl, lengths := by decide, held := by decide, textIdle := by decide
        idle := by decide, load := fun h => absurd h (by decide)
        run := fun _ => ⟨by decide, by decide, fun h => absurd h (by decide),
          fun _ => ⟨demuxShape_DE 1, by unfold CarryRests; decide, rfl, rfl, rfl⟩⟩ }⟩ }

theorem witness_ResetPutsEveryPieceOfState :
    { faulted with input := [.hardReset] }.input = .hardReset :: [] := rfl

theorem witness_StepKeepsSessionInvariant :
    ∃ s t, SessionInvariant s ∧ s.phase = .run ∧ step s = .next t :=
  ⟨_, _, inv_run_fixed, rfl, rfl⟩

theorem witness_StepNeverStopsFromInvariantStates : ∃ s, SessionInvariant s ∧ s.phase = .run := ⟨_, inv_run, rfl⟩

theorem witness_StepRunsDecodedInstruction :
    (State.reset.present 0x0203).input = .word 0x0203 :: [] ∧ decode 0x0203 = .ok (.cfg 3) := by decide

theorem witness_StepWaitsWithNothingPresented : (runAB 2).input = [] := rfl

theorem witness_DecodeFollowsOpcodeMap : decode 0x0203 = .ok (.cfg 3) ∧ decode 0x03FF = .ok (.ent 0xFF) := by decide

theorem witness_DecodeOfEncodeIsTheInstruction :
    (Instr.cfg 3).wellFormed = true ∧ (Instr.cwb 1).wellFormed = true ∧ Instr.endBody.wellFormed = true := by decide

theorem witness_EncodeOfDecodeIsTheWord : decode 0x0401 = .ok (.cwb 1) := by decide

/-- The smallest and the largest undefined opcode. -/
theorem witness_UndefinedOpcodeRaises30 :
    0x07 < ((0x0800 : Word).extractLsb' 8 8).toNat ∧ 0x07 < ((0xFFFF : Word).extractLsb' 8 8).toNat ∧
    (State.reset.present 0x0800).phase ≠ .fault ∧ (State.reset.present 0x0800).input = [.word 0x0800] := by decide

/-- One word for each of the three kinds of reserved bits, at the lowest reserved bit. -/
theorem witness_ReservedBitRaises31 :
    ((0x0101 : Word).extractLsb' 8 8 ∈ [0x00#8, 0x01#8, 0x05#8, 0x07#8] ∧ (0x0101 : Word).extractLsb' 0 8 ≠ 0) ∧
    ((0x0204 : Word).extractLsb' 8 8 = 0x02#8 ∧ (0x0204 : Word).extractLsb' 2 6 ≠ 0) ∧
    ((0x0402 : Word).extractLsb' 8 8 = 0x04#8 ∧ (0x0402 : Word).extractLsb' 1 7 ≠ 0) ∧
    (State.reset.present 0x0101).phase ≠ .fault ∧ (State.reset.present 0x0101).input = [.word 0x0101] := by decide

/-- A legal step, an illegal phase, the phase `FAULT`, and `CWB` on an empty table. -/
theorem witness_LegalityTable :
    (Instr.cfg 3).wellFormed = true ∧ State.reset.phase ∈ okPhases (.cfg 3) ∧
    (∃ t, exec (.cfg 3) State.reset = .next t) ∧
    (runAB 2).phase ≠ .fault ∧ (runAB 2).phase ∉ okPhases (.cfg 3) ∧
    faulted.phase = .fault ∧ Instr.cfg 3 ≠ .rst ∧
    (Instr.cwb 1).wellFormed = true ∧ (loaded 2 []).phase = .load ∧ (loaded 2 []).nent = 0 :=
  ⟨by decide, by decide, ⟨_, rfl⟩, by decide, by decide, rfl, by decide, by decide, rfl, rfl⟩

theorem witness_FaultPhaseIgnoresEveryOtherWord :
    (faulted.present 0x0101).phase = .fault ∧ (0x0101 : Word) ≠ 0x0100 ∧
    (faulted.present 0x0101).input = [.word 0x0101] := by decide

theorem witness_FaultIsSticky :
    (faulted.present 0x0202).phase = .fault ∧
    ∀ x ∈ (faulted.present 0x0202).input, ∃ w, x = .word w ∧ w ≠ 0x0100 := by
  refine ⟨rfl, fun x hx => ⟨0x0202, ?_, by decide⟩⟩
  simpa [faulted, State.present, State.reset] using hx

theorem witness_OnlyResetLeavesFault :
    (faulted.present 0x0100).phase = .fault ∧ (∃ t, step (faulted.present 0x0100) = .next t) ∧
    (faulted.present 0x0101).phase = .fault ∧ (∃ t, step (faulted.present 0x0101) = .next t) :=
  ⟨rfl, ⟨_, rfl⟩, rfl, ⟨_, rfl⟩⟩

theorem witness_CauseIsWrittenByFaultEntryAndReset :
    (∃ t, exec .bld (loaded 1 []) = .next t ∧ t.phase = .fault ∧ t.cause = 0x12) ∧
    (∃ t, exec .rst faulted = .next t) ∧ (∃ t, exec .nop faulted = .next t) :=
  ⟨⟨_, rfl, rfl, rfl⟩, ⟨_, rfl⟩, ⟨_, rfl⟩⟩

/-- Two states in `FAULT` that differ in a register that R246 leaves unspecified, with a reset presented. -/
theorem witness_UnspecifiedValuesAreUnobservable :
    Alike (faulted.present 0x0100) ({ faulted with nent := 7, draws := 1 }.present 0x0100) ∧
    ∃ t, Host.Core.run core 1 (faulted.present 0x0100) = .next t :=
  ⟨by unfold Alike; decide, _, rfl⟩

theorem witness_OutOnlyGrowsBetweenResets :
    ∃ t, step ((runAB 0).present 0x0630) = .next t ∧ t.out ≠ [] := ⟨_, rfl, by decide⟩

theorem witness_AtMostEightSymbolsACommand :
    (∃ t, exec (.dat 0x30) (runAB 0) = .next t) ∧ Instr.dat 0x30 ≠ .rst ∧
    (∃ t, exec .nop (runAB 0) = .next t) ∧ (∀ a, Instr.nop ≠ .dat a) ∧ Instr.nop ≠ .endBody :=
  ⟨⟨_, rfl⟩, by decide, ⟨_, rfl⟩, by simp, by decide⟩

/-- A next state outside phase `FAULT`, for each command. -/
theorem witness_CommandsWriteOnlyWhatTheMatrixMarks :
    ([(.nop, runAB 2), (.rst, runAB 2), (.cfg 3, State.reset), (.ent 0x61, loaded 2 []), (.cwb 1, loaded 2 tableAB),
      (.bld, loaded 2 tableAB), (.bld, loaded 3 tableDE), (.dat 0, runAB 2), (.dat 0x30, runAB 0),
      (.dat 0x30, runDE 1), (.endBody, runAB 0), (.endBody, runDE 1)] : List (Instr × State)).all
        (fun c => match exec c.1 c.2 with
          | .next t => t.phase ≠ .fault
          | .fault _ => false
          | .refused _ => false) = true := by decide

theorem witness_NopChangesNothing :
    (0x0001 : Word).extractLsb' 8 8 = 0x00#8 ∧ (0x0001 : Word).extractLsb' 0 8 ≠ 0 ∧
    (State.reset.present 0x0001).phase ≠ .fault ∧ (State.reset.present 0x0001).input = [.word 0x0001] := by decide

theorem witness_CfgSelectsModeAndOpensTable :
    (0x03 : Byte).extractLsb' 2 6 = 0 ∧ State.reset.phase = .idle ∧ (0x04 : Byte).extractLsb' 2 6 ≠ 0 ∧
    State.reset.phase ≠ .fault ∧ (runAB 2).phase ≠ .fault ∧ (runAB 2).phase ≠ .idle := by decide

/-- One entry short of full, and full. -/
theorem witness_EntAppendsAnEntry :
    { loaded 2 [] with nent := 255 }.nent.toNat < 256 ∧ { loaded 2 [] with nent := 256 }.nent.toNat = 256 ∧
    (loaded 2 []).phase = .load ∧ (loaded 2 tableAB).table = .ok tableAB ∧
    (runAB 2).phase ≠ .fault ∧ (runAB 2).phase ≠ .load := by decide

/-- A full codeword, one bit short of full, and the other three clauses. -/
theorem witness_CwbAppendsABit :
    (∀ n, n = 254 ∨ n = 255 → ∃ e : CodeEntry, Memory.read ctSpace
      (loaded 2 [⟨0x61, List.replicate n false⟩]).ct ((loaded 2 [⟨0x61, List.replicate n false⟩]).nent.toNat - 1) =
        .ok e ∧ e.code.length = n ∧ (loaded 2 [⟨0x61, List.replicate n false⟩]).nent ≠ 0 ∧
        (loaded 2 [⟨0x61, List.replicate n false⟩]).nent.toNat ≤ 256) ∧
    (0x01 : Byte).extractLsb' 1 7 = 0 ∧ (0x02 : Byte).extractLsb' 1 7 ≠ 0 ∧
    (loaded 2 []).phase = .load ∧ (loaded 2 []).nent = 0 ∧ (runAB 2).phase ≠ .load ∧ (runAB 2).phase ≠ .fault := by
  refine ⟨fun n _ => ⟨⟨0x61, List.replicate n false⟩, rfl, by simp, ?_, ?_⟩, by decide⟩
  · simp [loaded]
  · simp [loaded]

theorem witness_CodeCommandsLoadTheEntry :
    (loaded 2 tableAB).phase = .load ∧ (loaded 2 tableAB).nent.toNat < 256 ∧
    (loaded 2 tableAB).table = .ok tableAB ∧ (⟨0x61, List.replicate 255 true⟩ : CodeEntry).code.length ≤ 255 :=
  ⟨rfl, by decide, rfl, (List.length_replicate).le⟩

theorem loadedTable_AB : LoadedTable (loaded 2 tableAB) tableAB := by unfold LoadedTable; decide

theorem prefixFree_AB : PrefixFree tableAB := by unfold PrefixFree; decide

theorem witness_BldBuildsTheTrie :
    (loaded 2 tableAB).phase = .load ∧ (loaded 2 tableAB).kind = .prefixCode ∧
    (loaded 2 tableAB).nent.toNat ≤ 256 ∧ (loaded 2 tableAB).table = .ok tableAB ∧ (∀ e ∈ tableAB, e.len ≤ 255) ∧
    Memory.wf nodeSpace (loaded 2 tableAB).node = true ∧
    (∃ t, exec .bld (loaded 2 tableAB) = .next t ∧ t.phase ≠ .fault) ∧
    tableAB ≠ [] ∧ (∀ e ∈ tableAB, e.len ≠ 0) ∧ PrefixFree tableAB :=
  ⟨rfl, rfl, by decide, rfl, by decide, rfl, ⟨_, rfl, by decide⟩, by decide, by decide, prefixFree_AB⟩

/-- A table that is not prefix-free (V13) and one that is. -/
theorem witness_BldRefusesExactlyNonPrefixFreeTables :
    LoadedTable (loaded 2 [⟨0x78, [false]⟩, ⟨0x79, [false, true]⟩]) [⟨0x78, [false]⟩, ⟨0x79, [false, true]⟩] ∧
    (∃ (i j : Nat) (a b : CodeEntry), i ≠ j ∧
      ([⟨0x78, [false]⟩, ⟨0x79, [false, true]⟩] : List CodeEntry)[i]? = some a ∧
      ([⟨0x78, [false]⟩, ⟨0x79, [false, true]⟩] : List CodeEntry)[j]? = some b ∧ a.code <+: b.code) ∧
    LoadedTable (loaded 2 tableAB) tableAB ∧ PrefixFree tableAB :=
  ⟨by unfold LoadedTable; decide, ⟨0, 1, _, _, by decide, rfl, rfl, by decide⟩, loadedTable_AB, prefixFree_AB⟩

/-- A code of 3 bits, and one of 8 bits, the largest length. -/
theorem witness_BldBuildsTheArray :
    ∀ c ∈ ([(tableDE, 3), ([⟨0x41, bitsOf 8 0x41⟩, ⟨0x42, bitsOf 8 0x42⟩], 8)] : List (List CodeEntry × Nat)),
      (loaded 3 c.1).phase = .load ∧ (loaded 3 c.1).kind = .fixedCode ∧ LoadedTable (loaded 3 c.1) c.1 ∧
      (loaded 3 c.1).demux = [] ∧ (∀ e ∈ c.1, e.len = c.2) ∧ c.2 ≤ 8 ∧ (c.1.map CodeEntry.code).Nodup := by
  unfold LoadedTable; decide

/-- The tables of V18, one for each clause; 9 bits is the smallest length that is too wide. -/
theorem witness_BldFaultsInOrder :
    (∀ table ∈ ([[], [⟨0x61, []⟩], [⟨0x61, [false, false]⟩, ⟨0x62, [false]⟩], [⟨0x61, bitsOf 9 0⟩],
        [⟨0x61, [false, true]⟩, ⟨0x62, [false, true]⟩]] : List (List CodeEntry)),
      (loaded 1 table).phase = .load ∧ (loaded 1 table).nent.toNat ≤ 256 ∧ (loaded 1 table).table = .ok table ∧
      (loaded 1 table).demux = [] ∧ (loaded 1 table).kind = .fixedCode) ∧
    (⟨0x61, []⟩ : CodeEntry).len = 0 ∧
    (⟨0x61, [false, false]⟩ : CodeEntry).len ≠ (⟨0x62, [false]⟩ : CodeEntry).len ∧
    (⟨0x61, bitsOf 9 0⟩ : CodeEntry).len = 9 ∧ (⟨0x61, [false, true]⟩ : CodeEntry).len = 2 ∧
    ¬ (([⟨0x61, [false, true]⟩, ⟨0x62, [false, true]⟩] : List CodeEntry).map CodeEntry.code).Nodup := by decide

theorem witness_TrieDoesNotDependOnTableOrder :
    (loaded 2 tableAB).phase = .load ∧ (loaded 2 tableAB).kind = .prefixCode ∧
    (loaded 0 tableAB.reverse).phase = .load ∧ (loaded 0 tableAB.reverse).kind = .prefixCode ∧
    LoadedTable (loaded 2 tableAB) tableAB ∧ LoadedTable (loaded 0 tableAB.reverse) tableAB.reverse ∧
    tableAB.Perm tableAB.reverse ∧ Memory.wf nodeSpace (loaded 2 tableAB).node = true ∧
    Memory.wf nodeSpace (loaded 0 tableAB.reverse).node = true := by unfold LoadedTable; decide

theorem witness_TrieIsTheAbstractTrie : TrieShape nodeAB 4 tableAB := trieShape_AB

theorem witness_TrieFitsTheNodeMemory :
    (loaded 2 tableAB).phase = .load ∧ (loaded 2 tableAB).kind = .prefixCode ∧
    LoadedTable (loaded 2 tableAB) tableAB ∧ Memory.wf nodeSpace (loaded 2 tableAB).node = true ∧
    ∃ t, exec .bld (loaded 2 tableAB) = .next t ∧ t.phase = .run := ⟨rfl, rfl, loadedTable_AB, rfl, _, rfl, rfl⟩

/-- At the root and at the node of path `1`: a leaf, an internal node, and no node for the next bit; and entries of
the table to concatenate. -/
theorem witness_PstepFollowsTheAbstractTrie :
    TrieShape (runAB 2).node (runAB 2).nnode.toNat tableAB ∧ (runAB 2).cursor = 0 ∧
    walkTrie (runAB 2).node 0 [] = some (runAB 2).cursor.toNat ∧ nodeView (runAB 2).node [] = some .internal ∧
    trieView tableAB ([] ++ [false]) = some (.leaf 0x61) ∧ trieView tableAB ([] ++ [true]) = some .internal ∧
    walkTrie { runAB 2 with cursor := 2 }.node 0 [true] = some { runAB 2 with cursor := 2 }.cursor.toNat ∧
    nodeView { runAB 2 with cursor := 2 }.node [true] = some .internal ∧
    trieView tableAB ([true] ++ [true]) = none ∧ (∀ e ∈ tableAB ++ tableAB, e ∈ tableAB) :=
  ⟨trieShape_AB, by decide⟩

/-- One bit short of a codeword with a valid and with an invalid value, and three bits short. -/
theorem witness_FstepTakesOneBit :
    (CarryRests (runDE 1) ∧ (runDE 1).ccnt.toNat + 1 < (runDE 1).l.toNat) ∧
    ∃ s : State, CarryRests s ∧ s.ccnt.toNat + 1 = s.l.toNat ∧
      Memory.read demuxSpace s.demux (2 * s.carry.toNat + false.toNat) = .ok ⟨true, 0x65⟩ ∧
      Memory.read demuxSpace s.demux (2 * s.carry.toNat + true.toNat) = .ok ⟨false, 0⟩ :=
  ⟨by unfold CarryRests; decide, { runDE 1 with carry := 2, ccnt := 2 }, by unfold CarryRests; decide⟩

theorem witness_FbyteIsItsFsteps :
    CarryRests { runDE 1 with carry := 3, ccnt := 2 } ∧ 1 ≤ 1 ∧ 1 ≤ 8 ∧ 8 ≤ 8 := by unfold CarryRests; decide

theorem witness_EightBitCodesAreBytes :
    ∃ s : State, s.l = 8 ∧ s.ccnt = 0 ∧ s.phase = .run ∧ s.kind = .fixedCode ∧ s.fmt = .binary ∧ s.pvalid = true ∧
      s.holdv = true ∧ s.p ≠ 0 :=
  ⟨{ runDE 3 with l := 8, pvalid := true, holdv := true, p := 7 }, by decide⟩

theorem witness_TextBytesAreBitsOrSkipped :
    (runAB 0).phase = .run ∧ (runAB 0).fmt = .text ∧ (0x20 : Byte) ≠ 0x30 ∧ (0x20 : Byte) ≠ 0x31 := by decide

/-- The largest legal padding count and the smallest illegal one. -/
theorem witness_FirstBinaryByteIsThePaddingCount :
    (runAB 2).phase = .run ∧ (runAB 2).fmt = .binary ∧ (runAB 2).pvalid = false ∧ (0x07 : Byte).toNat ≤ 7 ∧
    7 < (0x08 : Byte).toNat := by decide

theorem witness_FirstDataByteIsHeld :
    ∃ s : State, s.phase = .run ∧ s.fmt = .binary ∧ s.pvalid = true ∧ s.holdv = false :=
  ⟨{ runAB 2 with pvalid := true }, by decide⟩

theorem kind_runAB : (runAB 2).kind = .prefixCode := by decide
theorem kind_runDE : (runDE 3).kind = .fixedCode := by decide
theorem carryRests_DE : CarryRests (runDE 3) := by unfold CarryRests; decide
theorem carryRests_10 : CarryRests { runDE 3 with carry := 2, ccnt := 2 } := by unfold CarryRests; decide

/-- From path `1`, with the held byte 0x00 (the bits complete) and 0x80 (they reach the dead end `11`). -/
theorem witness_DatWalksThePrefixCode :
    ∀ c ∈ ([(0x00, none), (0x80, some .csDeadEnd)] : List (Byte × Option Cause)), ∃ s : State,
      s.phase = .run ∧ s.kind = .prefixCode ∧ (s.fmt = .binary → s.pvalid = true) ∧
      TrieShape s.node s.nnode.toNat tableAB ∧ walkTrie s.node 0 [true] = some s.cursor.toNat ∧
      nodeView s.node [true] = some .internal ∧ (walkBits tableAB [true] [] (datBits s 0)).fault = c.2 := by
  intro c hc
  refine ⟨{ runAB 2 with pvalid := true, holdv := true, hold := c.1, cursor := 2 }, rfl, kind_runAB, fun _ => rfl,
    trieShape_AB, rfl, rfl, ?_⟩
  revert c
  decide

/-- From the carried bits `10`, with the held byte 0x39 (`100`, `011`, `100` and one bit left) and 0x80 (`101`,
which no codeword has). -/
theorem witness_DatCutsTheFixedCode :
    ∀ c ∈ ([(0x39, none), (0x80, some .csUnmapped)] : List (Byte × Option Cause)), ∃ s : State,
      s.phase = .run ∧ s.kind = .fixedCode ∧ (s.fmt = .binary → s.pvalid = true) ∧
      DemuxShape s.demux s.l.toNat tableDE ∧ CarryRests s ∧ [true, false].length = s.ccnt.toNat ∧
      bitsVal [true, false] = s.carry.toNat ∧
      (cutBits tableDE s.l.toNat [true, false] [] (datBits s 0)).fault = c.2 := by
  intro c hc
  refine ⟨{ runDE 3 with pvalid := true, holdv := true, hold := c.1, carry := 2, ccnt := 2 }, rfl, kind_runDE,
    fun _ => rfl, demuxShape_DE 3, carryRests_10, rfl, rfl, ?_⟩
  revert c
  decide

/-- The three ends of a prefix-code body: at the root, inside a codeword (V10), at a dead end. -/
theorem witness_EndFinishesThePrefixCode :
    ∀ c ∈ ([(7, 0x00, ⟨[], [0x61], none⟩), (7, 0x80, ⟨[true], [], none⟩),
        (0, 0xC0, ⟨[true], [], some .csDeadEnd⟩)] : List (BitVec 3 × Byte × Consumed)), ∃ s : State,
      s.phase = .run ∧ s.kind = .prefixCode ∧ (s.fmt = .binary → s.pvalid = true ∧ s.holdv = true) ∧
      TrieShape s.node s.nnode.toNat tableAB ∧ walkTrie s.node 0 [] = some s.cursor.toNat ∧
      nodeView s.node [] = some .internal ∧ walkBits tableAB [] [] (endBits s) = c.2.2 := by
  intro c hc
  refine ⟨{ runAB 2 with pvalid := true, p := c.1, holdv := true, hold := c.2.1 }, rfl, kind_runAB, fun _ => ⟨rfl, rfl⟩,
    trieShape_AB, rfl, rfl, ?_⟩
  revert c
  decide

/-- The three ends of a fixed-width body: no bit carried (V9), bits carried, an unmapped value (V27). -/
theorem witness_EndFinishesTheFixedCode :
    ∀ c ∈ ([(2, 0x8C, ⟨[], [0x65, 0x64], none⟩), (7, 0x80, ⟨[true], [], none⟩),
        (0, 0xE0, ⟨[], [], some .csUnmapped⟩)] : List (BitVec 3 × Byte × Consumed)), ∃ s : State,
      s.phase = .run ∧ s.kind = .fixedCode ∧ (s.fmt = .binary → s.pvalid = true ∧ s.holdv = true) ∧
      DemuxShape s.demux s.l.toNat tableDE ∧ CarryRests s ∧ ([] : Bits).length = s.ccnt.toNat ∧
      bitsVal [] = s.carry.toNat ∧ cutBits tableDE s.l.toNat [] [] (endBits s) = c.2.2 := by
  intro c hc
  refine ⟨{ runDE 3 with pvalid := true, p := c.1, holdv := true, hold := c.2.1 }, rfl, kind_runDE, fun _ => ⟨rfl, rfl⟩,
    demuxShape_DE 3, carryRests_DE, rfl, rfl, ?_⟩
  revert c
  decide

/-- A binary body with padding 0, with padding 1, with no padding byte, and a text body. -/
theorem witness_BodiesWithoutData :
    ∀ s ∈ [{ runAB 2 with pvalid := true }, { runAB 2 with pvalid := true, p := 1 }, runAB 2, runAB 0],
      s.phase = .run ∧ s.holdv = false ∧ s.cursor = 0 ∧ s.ccnt = 0 ∧ s.out = [] := by decide

/-- With `P = 4` the low four bits of the last byte differ. -/
theorem witness_FillerBitsAreNotLookedAt :
    ∃ s : State, s.phase = .run ∧ s.fmt = .binary ∧ s.hold ≠ 0x1F ∧
      ∀ i, i < 8 → s.p.toNat ≤ i → (0x1F : Byte).getLsbD i = s.hold.getLsbD i :=
  ⟨{ runAB 2 with pvalid := true, p := 4, holdv := true, hold := 0x10 }, by decide⟩

theorem witness_PrefixSessionIsDecodePrefix :
    (runAB 2).phase = .run ∧ (runAB 2).cause = 0 ∧ (runAB 2).kind = .prefixCode ∧
    TrieShape (runAB 2).node (runAB 2).nnode.toNat tableAB ∧ (runAB 2).cursor = 0 ∧ (runAB 2).pvalid = false ∧
    (runAB 2).holdv = false ∧ (runAB 2).out = [] := ⟨rfl, rfl, rfl, trieShape_AB, rfl, rfl, rfl, rfl⟩

theorem witness_FixedSessionIsDecodeFixed :
    (runDE 3).phase = .run ∧ (runDE 3).cause = 0 ∧ (runDE 3).kind = .fixedCode ∧
    DemuxShape (runDE 3).demux (runDE 3).l.toNat tableDE ∧ (runDE 3).carry = 0 ∧ (runDE 3).ccnt = 0 ∧
    (runDE 3).pvalid = false ∧ (runDE 3).holdv = false ∧ (runDE 3).out = [] :=
  ⟨rfl, rfl, rfl, demuxShape_DE 3, rfl, rfl, rfl, rfl, rfl⟩

theorem witness_DecodeOfEncodeIsTheInput : abracadabra ≠ [] ∧ tableAB.reverse.Perm tableAB := by decide

theorem witness_FanoCodewordsAreShort :
    (⟨0x61, [false]⟩ : CodeEntry) ∈ fanoCode (probabilityList [0x61, 0x61, 0x62]) := by decide

theorem witness_FixedCodeIsDense : ([0x00, 0xFF] : List Byte) ≠ [] := by decide

theorem witness_HeaderRoundTrip :
    ∀ e ∈ ([⟨0x00, [false]⟩, ⟨0x05, [true, false]⟩, ⟨0x20, [true, true]⟩] : List CodeEntry), e.code ≠ [] := by decide

/-- A space and a tab before, between and after, and a codeword. -/
theorem witness_HeaderLinesAreWhitespaceDelimited :
    (∀ b ∈ ([0x20] ++ [0x20, 0x09] ++ [0x0D] : List Byte), isWhitespace b = true) ∧
    ([0x20, 0x09] : List Byte) ≠ [] ∧ (⟨0x61, [false]⟩ : CodeEntry).code ≠ [] := by decide

/-- One more and one fewer than the table's length. -/
theorem witness_HeaderCountMustMatchTheLines :
    (∀ e ∈ tableAB, e.code ≠ []) ∧ 1 ≠ tableAB.length ∧ 3 ≠ tableAB.length := by decide

theorem witness_DecodeCallReturnsTheInput : abracadabra ≠ [] := by decide

/-- A header with a bad count, and one that can be parsed, in its own stream and before its body. -/
theorem witness_DecodeCallAlwaysAnswers :
    readStreams .separate .text [0x78, 0x0A] [] = .error .malformedHeader ∧
    readStreams .joined .text [0x78, 0x0A] [] = .error .malformedHeader ∧
    readStreams .separate .text [0x31, 0x0A, 0x61, 0x20, 0x30, 0x0A] [0x30] = .ok ([⟨0x61, [false]⟩], [0x30]) ∧
    readStreams .joined .text [0x31, 0x0A, 0x61, 0x20, 0x30, 0x0A, 0x30] [] = .ok ([⟨0x61, [false]⟩], [0x30]) := by
  decide

theorem witness_StreamsGiveHeaderAndBodyBack : FileLayout.joins .joinedText .text = true := rfl

end Sys2Proof.Tests
end

section
/-! PROOF. The length of a Fano codeword (spec/00_scope.md R10): both parts of a split are non-empty (R205), so each
bit appended to a codeword goes with a range that is at least one entry shorter (R206). -/

namespace Sys2Proof.Machine

/-- The scan stops at the last entry: the right part of the split keeps one. -/
theorem splitScan_le (left right : Nat) (entries : List ProbEntry) :
    splitScan left right entries ≤ entries.length - 1 := by
  fun_induction splitScan left right entries with
  | case1 _ _ _ _ _ _ ih => simpa using ih
  | case2 => exact Nat.zero_le _
  | case3 => exact Nat.zero_le _

theorem splitSize_pos (range : List ProbEntry) : 0 < splitSize range := Nat.succ_pos _

theorem splitSize_lt_length {range : List ProbEntry} (h : 2 ≤ range.length) : splitSize range < range.length := by
  have hscan := splitScan_le (countSum (range.take 1)) (countSum (range.drop 1)) (range.drop 1)
  rw [List.length_drop] at hscan
  unfold splitSize
  omega

/-- A range of `n` entries adds at most `n − 1` bits to the codeword accumulated so far. -/
theorem length_code_lt_of_mem_fanoAssign {fuel : Nat} {range : List ProbEntry} {code : Bits} {e : CodeEntry}
    (he : e ∈ fanoAssign fuel range code) : e.code.length < code.length + range.length := by
  fun_induction fanoAssign fuel range code with
  | case1 => cases he
  | case2 _ x code =>
    obtain rfl := List.mem_singleton.mp he
    exact Nat.lt_succ_self code.length
  | case3 => cases he
  | case4 _ range code hnil hsingle ihLeft ihRight =>
    have htwo : 2 ≤ range.length := by
      match range, hnil, hsingle with
      | [], hnil, _ => exact absurd rfl hnil
      | [x], _, hsingle => exact absurd rfl (hsingle x)
      | _ :: _ :: _, _, _ => simp
    have hpos := splitSize_pos range
    have hlt := splitSize_lt_length htwo
    rcases List.mem_append.mp he with hleft | hright
    · have hlen := ihLeft hleft
      simp only [List.length_append, List.length_singleton, List.length_take] at hlen
      omega
    · have hlen := ihRight hright
      simp only [List.length_append, List.length_singleton, List.length_drop] at hlen
      omega

/-- Settles O52: a single entry has the codeword `"0"`, and every other list is one range with no bit so far. -/
theorem fanoCodewordsAreShort : Obligations.FanoCodewordsAreShort := by
  unfold Obligations.FanoCodewordsAreShort
  intro list e he
  unfold fanoCode at he
  split at he
  next =>
    obtain rfl := List.mem_singleton.mp he
    exact Nat.le_max_left 1 _
  next =>
    have hlen := length_code_lt_of_mem_fanoAssign he
    rw [List.length_nil, Nat.zero_add] at hlen
    exact le_max_of_le_right (Nat.le_sub_one_of_lt hlen)

end Sys2Proof.Machine
end

section
/-! PROOF. What one instruction can do, said once (spec/30_encoding.md R74, R80, R81; spec/60_exceptions.md R246):
the three ways `exec` answers a next state, the causes the pseudocode of each command can raise (R241), and the state
it can write (spec/10_state.md R45), from any state at all. -/

namespace Sys2Proof.Machine

/-! ### The answers of `exec` -/

/-- `exec` answers a next state by ignoring the command (R81), by entering `FAULT` from another phase (R246), or by
running the pseudocode to its end. -/
theorem exec_next_cases {i : Instr} {s t : State} (h : exec i s = .next t) :
    (s.phase = .fault ∧ t = s) ∨
    (s.phase ≠ .fault ∧ ∃ c u, t = u.enterFault c ∧
      ((c = .icReservedBits ∧ i.wellFormed = false ∧ u = s) ∨
       (c = .icWrongPhase ∧ legalIn i.opcode s.phase = false ∧ u = s) ∨ pseudocode i s = .raised c u)) ∨
    ((s.phase = .fault → i = .rst) ∧ legalIn i.opcode s.phase = true ∧ pseudocode i s = .ok () t) := by
  by_cases hrst : i = .rst
  · subst hrst
    rw [exec_rst, Host.Outcome.next.injEq] at h
    exact .inr (.inr ⟨fun _ => rfl, rfl, by rw [← h]; rfl⟩)
  · by_cases hf : s.phase = .fault
    · rw [exec_in_fault hf hrst, Host.Outcome.next.injEq] at h
      exact .inl ⟨hf, h.symm⟩
    · rw [exec_eq_command] at h
      rcases command_cases h with ⟨hfault, _, _⟩ | ⟨hres, ht⟩ | ⟨hill, ht⟩ | ⟨_, hl, _, ht⟩
      · exact absurd hfault hf
      · exact .inr (.inl ⟨hf, _, _, by simpa using ht, .inl ⟨rfl, hres, rfl⟩⟩)
      · exact .inr (.inl ⟨hf, _, _, by simpa using ht, .inr (.inl ⟨rfl, hill, rfl⟩)⟩)
      · rcases Result.finish_eq_next.1 ht.symm with hok | ⟨c, u, hraised, ht⟩
        · exact .inr (.inr ⟨fun hp => absurd hp hf, hl, hok⟩)
        · exact .inr (.inl ⟨hf, c, u, ht, .inr (.inr hraised)⟩)

/-! ### Causes and frames of pseudocode -/

/-- The result, if it is no stop, ends in a state with `R`, and raises no cause outside `C`. -/
def Result.Within {α : Type} (C : List Cause) (R : State → Prop) (r : Result α) : Prop :=
  match r with
  | .ok _ t => R t
  | .raised c t => c ∈ C ∧ R t
  | .stop _ => True

namespace Result.Within

variable {α β : Type} {C D : List Cause} {R S : State → Prop} {r : Result α}

theorem bind {f : α → State → Result β} (h : r.Within C R) (hR : ∀ t, R t → S t)
    (hf : ∀ a t, R t → (f a t).Within C S) : (r.bind f).Within C S := by
  cases r with
  | ok a t => exact hf a t h
  | raised c t => exact ⟨h.1, hR t h.2⟩
  | stop g => trivial

theorem imp (h : r.Within C R) (hR : ∀ t, R t → S t) : r.Within C S := by
  cases r with
  | ok a t => exact hR t h
  | raised c t => exact ⟨h.1, hR t h.2⟩
  | stop g => trivial

theorem mono (h : r.Within C R) (hC : C ⊆ D) : r.Within D R := by
  cases r with
  | ok a t => exact h
  | raised c t => exact ⟨hC h.1, h.2⟩
  | stop g => trivial

theorem of_ok {a : α} {t : State} (h : r.Within C R) (e : r = .ok a t) : R t := by
  subst e; exact h

theorem of_raised {c : Cause} {t : State} (h : r.Within C R) (e : r = .raised c t) : c ∈ C ∧ R t := by
  subst e; exact h

end Result.Within

/-- A value read from a memory never raises: the sequence is within what its continuation is within. -/
theorem Result.ofExcept_bind_within {α β : Type} {C : List Cause} {R : State → Prop} {e : Except Fault α} {s : State}
    {f : α → State → Result β} (hf : ∀ a, e = .ok a → (f a s).Within C R) :
    ((Result.ofExcept e s).bind f).Within C R := by
  cases e with
  | ok a => exact hf a rfl
  | error g => trivial

theorem forEach_within {α : Type} {C : List Cause} {R : State → State → Prop} {f : α → State → Result Unit}
    (refl : ∀ s, R s s) (trans : ∀ s t u, R s t → R t u → R s u) (hf : ∀ a s, (f a s).Within C (R s)) (l : List α)
    (s : State) : (forEach f l s).Within C (R s) := by
  induction l generalizing s with
  | nil => exact refl s
  | cons a rest ih =>
    exact (hf a s).bind (fun _ h => h) fun _ t ht => (ih t).imp fun u => trans s t u ht

/-! ### The decoders -/

/-- `t` differs from `s` only in `CURSOR` and in symbols appended to `OUT`. -/
def Walks (s t : State) : Prop := ∃ cursor extra, t = { s with cursor := cursor, out := s.out ++ extra }

/-- `t` differs from `s` only in `CARRY`, `CCNT` and in symbols appended to `OUT`. -/
def Cuts (s t : State) : Prop :=
  ∃ carry ccnt extra, t = { s with carry := carry, ccnt := ccnt, out := s.out ++ extra }

theorem Walks.refl (s : State) : Walks s s := ⟨s.cursor, [], by simp⟩

theorem Walks.trans (s t u : State) (h : Walks s t) (h' : Walks t u) : Walks s u := by
  obtain ⟨_, x, rfl⟩ := h
  obtain ⟨c, y, rfl⟩ := h'
  exact ⟨c, x ++ y, by simp⟩

theorem Cuts.refl (s : State) : Cuts s s := ⟨s.carry, s.ccnt, [], by simp⟩

theorem Cuts.trans (s t u : State) (h : Cuts s t) (h' : Cuts t u) : Cuts s u := by
  obtain ⟨_, _, x, rfl⟩ := h
  obtain ⟨c, k, y, rfl⟩ := h'
  exact ⟨c, k, x ++ y, by simp⟩

theorem Cuts.of_carry (s : State) (carry : Byte) (ccnt : BitVec 4) : Cuts s { s with carry := carry, ccnt := ccnt } :=
  ⟨carry, ccnt, [], by simp⟩

/-- The causes of the decoders (R171, R183). -/
def decoderCauses : List Cause := [.csDeadEnd, .csUnmapped]

theorem pstep_within (b : Bool) (s : State) : (pstep b s).Within decoderCauses (Walks s) := by
  refine Result.ofExcept_bind_within fun n hn => ?_
  split
  · exact ⟨by decide, Walks.refl s⟩
  · next t _ =>
    refine Result.ofExcept_bind_within fun m hm => ?_
    split
    · exact ⟨0, [m.sym], rfl⟩
    · exact ⟨t, [], by simp⟩

theorem lookupSymbol_within (v : Byte) (s : State) : (lookupSymbol v s).Within decoderCauses (Cuts s) := by
  obtain ⟨d, _, h⟩ := lookupSymbol_eq v s
  rw [h]
  split
  · exact ⟨s.carry, s.ccnt, [d.sym], rfl⟩
  · exact ⟨by decide, Cuts.refl s⟩

theorem completeCarry_within (s : State) : (completeCarry s).Within decoderCauses (Cuts s) := by
  unfold completeCarry
  split
  · exact (lookupSymbol_within _ _).imp fun t => Cuts.trans _ _ t (Cuts.of_carry s 0 0)
  · exact Cuts.refl s

/-- Bits shifted into the carry register, and the lookup of a codeword they complete. -/
theorem completeCarry_shifted_within (s : State) (carry : Byte) (ccnt : BitVec 4) :
    (completeCarry { s with carry := carry, ccnt := ccnt }).Within decoderCauses (Cuts s) :=
  (completeCarry_within _).imp fun t => Cuts.trans _ _ t (Cuts.of_carry s carry ccnt)

theorem fbyteLoop_within (B : Byte) (u fuel pos : Nat) (s : State) :
    (fbyteLoop B u fuel pos s).Within decoderCauses (Cuts s) := by
  induction fuel generalizing pos s with
  | zero =>
    unfold fbyteLoop
    split
    · trivial
    · exact Cuts.refl s
  | succ fuel ih =>
    have rest (pos : Nat) (t : State) (ht : Cuts s t) : (fbyteLoop B u fuel pos t).Within decoderCauses (Cuts s) :=
      (ih pos t).imp fun v => Cuts.trans s t v ht
    unfold fbyteLoop
    split
    · dsimp only
      split
      · exact (completeCarry_shifted_within s _ _).bind (fun _ h => h) fun _ t ht => rest _ t ht
      · split
        · exact (lookupSymbol_within _ s).bind (fun _ h => h) fun _ t ht => rest _ t ht
        · exact Cuts.of_carry s _ _
    · exact Cuts.refl s

/-- What one of the two decoders may write (R45): the registers of its kind, and symbols appended to `OUT`. -/
def Decoding (s t : State) : Prop :=
  match s.kind with
  | .prefixCode => Walks s t
  | .fixedCode => Cuts s t

theorem Decoding.refl (s : State) : Decoding s s := by
  unfold Decoding
  cases s.kind
  · exact Walks.refl s
  · exact Cuts.refl s

theorem bitStep_within (b : Bool) (s : State) : (bitStep b s).Within decoderCauses (Decoding s) := by
  unfold bitStep Decoding
  cases s.kind
  · exact pstep_within b s
  · exact completeCarry_shifted_within s _ _

theorem byteStep_within (B : Byte) (u : Nat) (s : State) : (byteStep B u s).Within decoderCauses (Decoding s) := by
  unfold byteStep Decoding
  cases s.kind
  · exact forEach_within Walks.refl Walks.trans pstep_within _ s
  · exact fbyteLoop_within B u u 0 s

/-- A decoder leaves the registers of the other kind alone (R45), and `OUT` only grows (R39). -/
theorem Decoding.registers {s t : State} (h : Decoding s t) :
    t = { s with cursor := t.cursor, carry := t.carry, ccnt := t.ccnt, out := t.out } ∧ s.out <+: t.out ∧
    (s.kind = .prefixCode → t.carry = s.carry ∧ t.ccnt = s.ccnt) ∧ (s.kind = .fixedCode → t.cursor = s.cursor) := by
  unfold Decoding at h
  cases hk : s.kind <;> rw [hk] at h
  · obtain ⟨c, x, rfl⟩ := h
    exact ⟨rfl, List.prefix_append _ _, fun _ => ⟨rfl, rfl⟩, nofun⟩
  · obtain ⟨c, k, x, rfl⟩ := h
    exact ⟨rfl, List.prefix_append _ _, nofun, fun _ => rfl⟩

/-! ### BLD -/

/-- `build` writes nothing but `NNODE` and `NODE`, and raises only 0x16 (R118), whatever list it is given. -/
def Plants (s t : State) : Prop := t = { s with nnode := t.nnode, node := t.node }

theorem Plants.trans (s t u : State) (h : Plants s t) (h' : Plants t u) : Plants s u := by
  unfold Plants at *
  rw [h', h]

theorem writeNode_within (C : List Cause) (k : BitVec 16) (n : TrieNode) (s : State) :
    (writeNode k n s).Within C (Plants s) := by
  unfold writeNode
  split
  · rfl
  · trivial

theorem build_within (fuel : Nat) (list : List CodeEntry) (d : Nat) (s : State) :
    (build fuel list d s).Within [.mhNotPrefixFree] (Plants s) := by
  induction fuel generalizing list d s with
  | zero => trivial
  | succ fuel ih =>
    -- every further piece of the node's pseudocode starts from a state that planting can reach
    have node (k : BitVec 16) (n : TrieNode) (t : State) (ht : Plants s t) :
        ((writeNode k n t).bind fun _ u => Result.ok k u).Within [.mhNotPrefixFree] (Plants s) :=
      ((writeNode_within _ k n t).imp fun u => Plants.trans s t u ht).bind (fun _ h => h)
        fun _ _ hu => hu
    have child (sub : List CodeEntry) (t : State) (ht : Plants s t) :
        (build.buildChild (build fuel) sub (d + 1) t).Within [.mhNotPrefixFree] (Plants s) := by
      unfold build.buildChild
      split
      · exact ht
      · exact ((ih sub (d + 1) t).imp fun u => Plants.trans s t u ht).bind (fun _ h => h)
          fun _ _ hu => hu
    have start : Plants s { s with nnode := s.nnode + 1 } := rfl
    unfold build
    split
    · exact node _ _ _ start
    · split
      · exact ⟨by simp, start⟩
      · exact (child _ _ start).bind (fun _ h => h) fun _ t ht =>
          (child _ t ht).bind (fun _ h => h) fun _ u hu => node _ _ u hu

theorem buildTrie_within (table : List CodeEntry) (s : State) :
    (buildTrie table s).Within [.mhNotPrefixFree] (Plants s) := by
  have start : Plants s { s with nnode := 0 } := rfl
  exact ((build_within _ _ 0 _).imp fun t => Plants.trans s _ t start).bind (fun _ h => h) fun _ _ ht => ht

/-- The array build writes nothing but `L` and `DEMUX` (R115, R121). -/
def Fills (s t : State) : Prop := t = { s with l := t.l, demux := t.demux }

theorem Fills.trans (s t u : State) (h : Fills s t) (h' : Fills t u) : Fills s u := by
  unfold Fills at *
  rw [h', h]

theorem demuxEntry_within (e : CodeEntry) (s : State) : (demuxEntry e s).Within [.mhDupCode] (Fills s) := by
  refine Result.ofExcept_bind_within fun d hd => ?_
  split
  · exact ⟨by simp, rfl⟩
  · unfold writeDemux
    split
    · rfl
    · trivial

theorem fixedLength_error {table : List CodeEntry} {c : Cause} (h : fixedLength table = .error c) :
    c ∈ [Cause.mhEmptyTable, .mhLenMismatch, .mhFixedTooWide] := by
  unfold fixedLength at h
  split at h
  · cases h; simp
  · split at h
    · cases h; simp
    · split at h
      · cases h; simp
      · cases h

theorem buildDemux_within (table : List CodeEntry) (s : State) :
    (buildDemux table s).Within [.mhEmptyTable, .mhLenMismatch, .mhFixedTooWide, .mhDupCode] (Fills s) := by
  unfold buildDemux
  split
  · next c hc => exact ⟨List.mem_append_left [Cause.mhDupCode] (fixedLength_error hc), rfl⟩
  · next len _ =>
    have loop := forEach_within (R := Fills) (fun _ => rfl) Fills.trans demuxEntry_within table
      { s with l := BitVec.ofNat 4 len }
    exact (loop.mono (by decide)).imp fun t => Fills.trans s _ t rfl

theorem validateCommon_mem {table : List CodeEntry} {c : Cause} (h : validateCommon table = some c) :
    c ∈ [Cause.mhEmptyTable, .mhNoCodeword] := by
  unfold validateCommon at h
  split at h
  · cases h; simp
  · split at h
    · cases h; simp
    · cases h

/-! ### Every command -/

/-- The causes that the pseudocode of a command can raise (R241). -/
def raisedBy : Instr → List Cause
  | .nop => []
  | .rst => []
  | .cfg _ => []
  | .ent _ => [.mhTableFull]
  | .cwb _ => [.icNoOpenEntry, .mhCodeTooLong]
  | .bld => [.mhEmptyTable, .mhNoCodeword, .mhLenMismatch, .mhFixedTooWide, .mhDupCode, .mhNotPrefixFree]
  | .dat _ => .csBadPadding :: decoderCauses
  | .endBody => [.csNoPaddingByte, .csPaddingNoData, .csDeadEnd, .csUnmapped, .csMidCodeword, .csPartialCode]

/-- What R45 marks `w` for a command, as a relation between the states before and after it. -/
def MatrixFrame (i : Instr) (s t : State) : Prop :=
  match i with
  | .nop => t = s
  | .rst => t.input = s.input
  | .cfg _ => t = { s with phase := t.phase, mode := t.mode }
  | .ent _ => t = { s with nent := t.nent, ct := t.ct }
  | .cwb _ => t = { s with ct := t.ct }
  | .bld =>
    t = { s with phase := t.phase, nnode := t.nnode, node := t.node, l := t.l, demux := t.demux,
                 cursor := t.cursor, carry := t.carry, ccnt := t.ccnt } ∧
    (s.kind = .prefixCode → t.l = s.l ∧ t.demux = s.demux) ∧
    (s.kind = .fixedCode → t.nnode = s.nnode ∧ t.node = s.node)
  | .dat _ =>
    t = { s with pvalid := t.pvalid, p := t.p, holdv := t.holdv, hold := t.hold, cursor := t.cursor,
                 carry := t.carry, ccnt := t.ccnt, out := t.out } ∧
    (s.fmt = .text → t.pvalid = s.pvalid ∧ t.p = s.p ∧ t.holdv = s.holdv ∧ t.hold = s.hold) ∧
    (s.kind = .prefixCode → t.carry = s.carry ∧ t.ccnt = s.ccnt) ∧
    (s.kind = .fixedCode → t.cursor = s.cursor)
  | .endBody =>
    t = { s with phase := t.phase, holdv := t.holdv, cursor := t.cursor, carry := t.carry, ccnt := t.ccnt,
                 out := t.out } ∧
    (s.fmt = .text → t.holdv = s.holdv ∧ t.out = s.out) ∧
    (s.kind = .prefixCode → t.carry = s.carry ∧ t.ccnt = s.ccnt) ∧
    (s.kind = .fixedCode → t.cursor = s.cursor)

/-- What the pseudocode of a command may do to the state, however it ends: it writes what the matrix marks (R45), and
unless it is `RST` it removes nothing from `OUT` (R39). -/
def Writes (i : Instr) (s t : State) : Prop := MatrixFrame i s t ∧ (i ≠ .rst → s.out <+: t.out)

/-- Between two states with the same `OUT` the frame is all. -/
theorem Writes.of_out_eq {i : Instr} {s t : State} (h : MatrixFrame i s t) (hout : t.out = s.out) : Writes i s t :=
  ⟨h, fun _ => hout ▸ List.prefix_rfl⟩

theorem entBody_within (arg : Byte) (s : State) :
    (entBody arg s).Within (raisedBy (.ent arg)) (Writes (.ent arg) s) := by
  unfold entBody writeCT
  split
  · exact ⟨by simp [raisedBy], .of_out_eq rfl rfl⟩
  · split
    · exact .of_out_eq rfl rfl
    · trivial

theorem cwbBody_within (arg : Byte) (s : State) :
    (cwbBody arg s).Within (raisedBy (.cwb arg)) (Writes (.cwb arg) s) := by
  unfold cwbBody
  split
  · exact ⟨by simp [raisedBy], .of_out_eq rfl rfl⟩
  · refine Result.ofExcept_bind_within fun e _ => ?_
    split
    · exact ⟨by simp [raisedBy], .of_out_eq rfl rfl⟩
    · unfold writeCT
      split
      · exact .of_out_eq rfl rfl
      · trivial

/-- What a build may write (R45): the structure of its kind. -/
def Building (s t : State) : Prop :=
  match s.kind with
  | .prefixCode => Plants s t
  | .fixedCode => Fills s t

/-- `BLD` writes the structure of its kind, the stream registers and `PHASE`. -/
theorem Building.writes_bld {s u : State} (hu : Building s u) (phase : Phase) (cursor : BitVec 16) (carry : Byte)
    (ccnt : BitVec 4) : Writes .bld s { u with phase := phase, cursor := cursor, carry := carry, ccnt := ccnt } := by
  unfold Building at hu
  cases hk : s.kind <;> rw [hk] at hu <;> rw [hu]
  · exact .of_out_eq ⟨rfl, fun _ => ⟨rfl, rfl⟩, fun h => nomatch hk.symm.trans h⟩ rfl
  · exact .of_out_eq ⟨rfl, fun h => (nomatch hk.symm.trans h), fun _ => ⟨rfl, rfl⟩⟩ rfl

theorem bldBody_within (s : State) : (bldBody s).Within (raisedBy .bld) (Writes .bld s) := by
  unfold bldBody
  refine Result.ofExcept_bind_within fun table _ => ?_
  split
  · next c hc =>
    exact ⟨List.mem_append_left [Cause.mhLenMismatch, .mhFixedTooWide, .mhDupCode, .mhNotPrefixFree]
      (validateCommon_mem hc), .of_out_eq ⟨rfl, fun _ => ⟨rfl, rfl⟩, fun _ => ⟨rfl, rfl⟩⟩ rfl⟩
  · refine Result.Within.bind (R := Building s) ?_ (fun t ht => ht.writes_bld t.phase t.cursor t.carry t.ccnt)
      fun _ t ht => ht.writes_bld .run 0 0 0
    unfold Building
    cases s.kind
    · exact (buildTrie_within table s).mono (by decide)
    · exact (buildDemux_within table s).mono (by decide)

/-- `DAT` writes what its decoder writes, and in `BINARY` format the padding and lookahead registers. -/
theorem Decoding.writes_dat {arg : Byte} {s u t : State} (hu : Decoding s u)
    (ht : t = { u with pvalid := t.pvalid, p := t.p, holdv := t.holdv, hold := t.hold })
    (htext : s.fmt = .text → t = u) : Writes (.dat arg) s t := by
  obtain ⟨hreg, hout, hpre, hfix⟩ := hu.registers
  refine ⟨⟨?_, fun hf => ?_, ?_, ?_⟩, fun _ => ?_⟩
  · rw [ht, hreg]
  · rw [htext hf, hreg]; exact ⟨rfl, rfl, rfl, rfl⟩
  · rw [ht]; exact hpre
  · rw [ht]; exact hfix
  · rw [ht]; exact hout

theorem datBody_within (arg : Byte) (s : State) :
    (datBody arg s).Within (raisedBy (.dat arg)) (Writes (.dat arg) s) := by
  have decoded (t : State) (ht : Decoding s t) : Writes (.dat arg) s t := ht.writes_dat rfl fun _ => rfl
  unfold datBody
  split
  · unfold textByte
    split
    · exact ((bitStep_within _ s).mono (List.subset_cons_self _ _)).imp decoded
    · exact decoded s (Decoding.refl s)
  · next hf =>
    have notText {p : Prop} : s.fmt = .text → p := fun h => nomatch hf.symm.trans h
    split
    · unfold paddingByte
      split
      · exact ⟨by simp [raisedBy], decoded s (Decoding.refl s)⟩
      · exact (Decoding.refl s).writes_dat rfl notText
    · split
      · exact (Decoding.refl s).writes_dat rfl notText
      · exact ((byteStep_within s.hold 8 s).mono (List.subset_cons_self _ _)).bind decoded
          fun _ t ht => ht.writes_dat rfl notText

/-- `END` writes what its decoder writes, and `HOLDV` and `PHASE`. -/
theorem Decoding.writes_endBody {s u t : State} (hu : Decoding s u)
    (ht : t = { u with phase := t.phase, holdv := t.holdv })
    (htext : s.fmt = .text → t.holdv = s.holdv ∧ t.out = s.out) : Writes .endBody s t := by
  obtain ⟨hreg, hout, hpre, hfix⟩ := hu.registers
  refine ⟨⟨?_, htext, ?_, ?_⟩, fun _ => ?_⟩
  · rw [ht, hreg]
  · rw [ht]; exact hpre
  · rw [ht]; exact hfix
  · rw [ht]; exact hout

/-- The part of `END` before its end checks. -/
theorem lastByte_within (s : State) :
    (lastByte s).Within (raisedBy .endBody)
      fun t => ∃ u, Decoding s u ∧ t = { u with holdv := t.holdv } ∧ (s.fmt = .text → t = s) := by
  unfold lastByte
  split
  · exact ⟨s, Decoding.refl s, rfl, fun _ => rfl⟩
  · next hf =>
    have notText {p : Prop} : s.fmt = .text → p := fun h => nomatch hf.symm.trans h
    have start : ∃ u, Decoding s u ∧ s = { u with holdv := s.holdv } ∧ (s.fmt = .text → s = s) :=
      ⟨s, Decoding.refl s, rfl, fun _ => rfl⟩
    split
    · exact ⟨by simp [raisedBy], start⟩
    · split
      · split
        · exact ⟨by simp [raisedBy], start⟩
        · exact start
      · exact ((byteStep_within s.hold _ s).mono (by decide)).bind (fun t ht => ⟨t, ht, rfl, notText⟩)
          fun _ t ht => ⟨t, ht, rfl, notText⟩

theorem endCheck_mem {s : State} {c : Cause} (h : s.endCheck = some c) : c ∈ [Cause.csMidCodeword, .csPartialCode] := by
  unfold State.endCheck at h
  split at h <;> split at h <;> cases h <;> simp

theorem endBodyBody_within (s : State) : (endBodyBody s).Within (raisedBy .endBody) (Writes .endBody s) := by
  have checked {t : State} (p : Phase)
      (ht : ∃ u, Decoding s u ∧ t = { u with holdv := t.holdv } ∧ (s.fmt = .text → t = s)) :
      Writes .endBody s { t with phase := p } := by
    obtain ⟨u, hu, ht, htext⟩ := ht
    exact hu.writes_endBody (by rw [ht]) fun hf => by rw [htext hf]; exact ⟨rfl, rfl⟩
  refine (lastByte_within s).bind (fun t ht => checked t.phase ht) fun _ t ht => ?_
  split
  · next c hc =>
    exact ⟨List.mem_append_right [Cause.csNoPaddingByte, .csPaddingNoData, .csDeadEnd, .csUnmapped] (endCheck_mem hc),
      checked t.phase ht⟩
  · exact checked .done ht

/-- THE FRAME OF THE PSEUDOCODE: from any state, however it ends, it raises only what R241 lists for the command and
writes only what R45 marks for it. -/
theorem pseudocode_within (i : Instr) (s : State) : (pseudocode i s).Within (raisedBy i) (Writes i s) := by
  cases i with
  | nop => exact .of_out_eq rfl rfl
  | rst => exact ⟨rfl, fun h => absurd rfl h⟩
  | cfg arg => exact .of_out_eq rfl rfl
  | ent arg => exact entBody_within arg s
  | cwb arg => exact cwbBody_within arg s
  | bld => exact bldBody_within s
  | dat arg => exact datBody_within arg s
  | endBody => exact endBodyBody_within s

/-- A command other than `RST` whose pseudocode runs to its end moves to the phase R80 gives it and leaves `CAUSE`
alone (R25). -/
theorem pseudocode_ok_phase {i : Instr} {s t : State} (h : pseudocode i s = .ok () t) (hrst : i ≠ .rst) :
    t.phase = phaseAfter i s.phase ∧ t.cause = s.cause := by
  have hw := ((pseudocode_within i s).of_ok h).1
  cases i with
  | nop => rw [show t = s from hw]; exact ⟨rfl, rfl⟩
  | rst => exact absurd rfl hrst
  | cfg arg => cases h; exact ⟨rfl, rfl⟩
  | ent arg => rw [show t = _ from hw]; exact ⟨rfl, rfl⟩
  | cwb arg => rw [show t = _ from hw]; exact ⟨rfl, rfl⟩
  | bld =>
    refine ⟨?_, by rw [hw.1]⟩
    obtain ⟨table, u, _, h⟩ := Result.bind_eq_ok.1 h
    split at h
    · cases h
    · obtain ⟨_, v, _, h⟩ := Result.bind_eq_ok.1 h
      cases h; rfl
  | dat arg => rw [hw.1]; exact ⟨rfl, rfl⟩
  | endBody =>
    refine ⟨?_, by rw [hw.1]⟩
    obtain ⟨_, u, _, h⟩ := Result.bind_eq_ok.1 h
    split at h
    · cases h
    · cases h; rfl

/-! ### The causes of a command -/

/-- R241 lists 0x31 for the commands that have a reserved operand bit to get wrong (R76). -/
theorem reservedBits_mem_causesOf {i : Instr} (h : i.wellFormed = false) :
    Cause.icReservedBits.code ∈ causesOf i := by
  cases i with
  | cfg arg => exact List.mem_cons_self
  | cwb arg => exact List.mem_cons_self
  | ent arg => simp [Instr.wellFormed, Instr.opcode, Opcode.reservedClear, Opcode.reservedMask] at h
  | dat arg => simp [Instr.wellFormed, Instr.opcode, Opcode.reservedClear, Opcode.reservedMask] at h
  | nop => cases h
  | rst => cases h
  | bld => cases h
  | endBody => cases h

/-- R241 lists 0x32 for the commands that are not legal in every phase (R80). -/
theorem wrongPhase_mem_causesOf {i : Instr} {p : Phase} (h : legalIn i.opcode p = false) :
    Cause.icWrongPhase.code ∈ causesOf i := by
  cases i with
  | nop => cases h
  | rst => cases h
  | _ => simp [causesOf, Cause.code]

/-- R241 lists for a command what its pseudocode raises. -/
theorem raisedBy_mem_causesOf {i : Instr} {c : Cause} (h : c ∈ raisedBy i) : c.code ∈ causesOf i := by
  have key : ∀ c ∈ raisedBy i, c.code ∈ causesOf i := by cases i <;> simp only [raisedBy, causesOf] <;> decide
  exact key c h

end Sys2Proof.Machine
end

section
/-! PROOF. Who writes `CAUSE`, `OUT` and every other register (spec/10_state.md R25, R39, R42, R45): the statements
about one command, read off what its pseudocode may write. -/

namespace Sys2Proof.Machine

theorem phaseAfter_ne_fault {i : Instr} {p : Phase} (h : p ≠ .fault) : phaseAfter i p ≠ .fault := by
  cases i <;> simp [phaseAfter, h]

/-- Settles O18: fault entry takes a cause of the command; a command that runs to its end leaves `CAUSE` alone and does
not end in `FAULT`. -/
theorem causeIsWrittenByFaultEntryAndReset : Obligations.CauseIsWrittenByFaultEntryAndReset := by
  unfold Obligations.CauseIsWrittenByFaultEntryAndReset
  intro i s t h
  rcases exec_next_cases h with ⟨_, rfl⟩ | ⟨hf, c, u, rfl, hc⟩ | ⟨hrst, hlegal, hok⟩
  · exact .inr (.inr ⟨rfl, Iff.rfl⟩)
  · refine .inl ⟨rfl, hf, ?_⟩
    rcases hc with ⟨rfl, hres, _⟩ | ⟨rfl, hill, _⟩ | hraised
    · exact reservedBits_mem_causesOf hres
    · exact wrongPhase_mem_causesOf hill
    · exact raisedBy_mem_causesOf ((pseudocode_within i s).of_raised hraised).1
  · by_cases hi : i = .rst
    · subst hi; cases hok
      exact .inr (.inl ⟨rfl, rfl⟩)
    · obtain ⟨hphase, hcause⟩ := pseudocode_ok_phase hok hi
      have hs : s.phase ≠ .fault := fun hs => hi (hrst hs)
      refine .inr (.inr ⟨hcause, ?_⟩)
      rw [hphase]
      exact iff_of_false (phaseAfter_ne_fault hs) hs

/-- Settles O22: outside `FAULT` only the pseudocode has written. -/
theorem commandsWriteOnlyWhatTheMatrixMarks : Obligations.CommandsWriteOnlyWhatTheMatrixMarks := by
  unfold Obligations.CommandsWriteOnlyWhatTheMatrixMarks
  intro i s t h hphase
  have frame : MatrixFrame i s t := by
    rcases exec_next_cases h with ⟨hf, rfl⟩ | ⟨_, c, u, rfl, _⟩ | ⟨_, _, hok⟩
    · exact absurd hf hphase
    · exact absurd (State.enterFault_phase c u) hphase
    · exact ((pseudocode_within i s).of_ok hok).1
  cases i <;> exact frame

/-- `OUT` only grows over a command other than `RST` (R39). -/
theorem exec_out_prefix {i : Instr} {s t : State} (h : exec i s = .next t) (hrst : i ≠ .rst) : s.out <+: t.out := by
  rcases exec_next_cases h with ⟨_, rfl⟩ | ⟨_, c, u, rfl, hc⟩ | ⟨_, _, hok⟩
  · exact List.prefix_rfl
  · rw [State.enterFault_out]
    rcases hc with ⟨_, _, rfl⟩ | ⟨_, _, rfl⟩ | hraised
    · exact List.prefix_rfl
    · exact List.prefix_rfl
    · exact ((pseudocode_within i s).of_raised hraised).2.2 hrst
  · exact ((pseudocode_within i s).of_ok hok).2 hrst

theorem rejectWord_out (e : DecodeError) (s : State) : (rejectWord e s).out = s.out := by
  unfold rejectWord
  split <;> rfl

/-- The one word of `RST` (R73). -/
theorem decode_eq_rst {w : Word} : decode w = .ok .rst ↔ w = 0x0100 := by
  refine ⟨fun h => ?_, fun h => by rw [h]; decide⟩
  unfold decode at h
  split at h
  · cases h
  · next op hop =>
    split at h
    · next hclear =>
      obtain rfl : op = .rst := by cases op <;> simp [Opcode.toInstr] at h ⊢
      have hcode : (Word.op w).toNat = 1 := by
        unfold Opcode.ofCode at hop
        split at hop <;> simp_all
      have harg : (Word.arg w).toNat = 0 := by
        have hzero : Word.arg w &&& BitVec.allOnes 8 = 0#8 := by
          simpa [Opcode.reservedClear, Opcode.reservedMask] using hclear
        rw [BitVec.and_allOnes] at hzero
        rw [hzero]; rfl
      simp only [Word.op, Word.arg, BitVec.extractLsb'_toNat, Nat.shiftRight_eq_div_pow] at hcode harg
      apply BitVec.eq_of_toNat_eq
      have := w.isLt
      show w.toNat = 256
      omega
    · cases h

/-- Settles O20: a reset empties `OUT`, and every other step keeps what stands in it. -/
theorem outOnlyGrowsBetweenResets : Obligations.OutOnlyGrowsBetweenResets := by
  unfold Obligations.OutOnlyGrowsBetweenResets
  intro s t h
  rcases step_cases h with ⟨hin, ht⟩ | ⟨rest, hin, ht⟩ | ⟨w, rest, i, hin, hdec, ht⟩ | ⟨w, rest, e, hin, hdec, ht⟩
  · cases ht
    simp [hin]
  · cases ht
    simp [hin]
  · have hrst : i = .rst ↔ w = 0x0100 := by rw [← decode_eq_rst, hdec, Except.ok.injEq]
    by_cases hi : i = .rst
    · subst hi
      rw [exec_rst] at ht
      cases ht
      simp [hin, hrst.1 rfl]
    · have hw : w ≠ 0x0100 := fun hw => hi (hrst.2 hw)
      rw [if_neg (by simpa [hin] using hw)]
      exact exec_out_prefix (s := { s with input := rest }) ht.symm hi
  · cases ht
    have hw : w ≠ 0x0100 := fun hw => by rw [decode_eq_rst.2 hw] at hdec; cases hdec
    rw [if_neg (by simpa [hin] using hw), rejectWord_out]

theorem resetSession_atReset (s : State) : AtReset s.resetSession :=
  ⟨rfl, rfl, rfl, rfl, rfl, rfl, fun v hv => ⟨⟨false, 0⟩, by simp [Memory.read, demuxSpace, hv], rfl⟩,
    rfl, rfl, rfl, rfl, rfl, rfl, rfl, rfl⟩

/-- Settles O1: the reset state, `RST` and a hardware reset are all `State.resetSession`. -/
theorem resetPutsEveryPieceOfState : Obligations.ResetPutsEveryPieceOfState := by
  unfold Obligations.ResetPutsEveryPieceOfState
  exact ⟨resetSession_atReset State.reset, fun s => ⟨_, exec_rst s, resetSession_atReset s, rfl⟩,
    fun s rest hin => ⟨_, step_hardReset hin, resetSession_atReset _, rfl⟩⟩

end Sys2Proof.Machine
end

section
/-! PROOF. What `BLD` leaves (spec/41_table_build.md R113 to R123): the trie of R29 for `KIND = PREFIX`, the array of
R32 for `KIND = FIXED`, each said once as what the pseudocode answers from a loaded table; and the abstract trie of R30
read off the shape of R29. -/

namespace Sys2Proof.Machine

/-! ### The abstract trie -/

/-- Where a codeword of the table ends, the abstract trie has a leaf, with the symbol that every entry with this
codeword holds (R30). -/
theorem trieView_codeword {table : List CodeEntry} {path : Bits} {sym : Sym} (h : ∃ e ∈ table, e.code = path)
    (hsym : ∀ e ∈ table, e.code = path → sym = e.sym) : trieView table path = some (.leaf sym) := by
  unfold trieView
  split
  · next e he =>
    rw [hsym e (List.mem_of_find?_eq_some he) (by simpa using List.find?_some he)]
  · next hnone =>
    obtain ⟨e, he, hcode⟩ := h
    exact absurd hcode (by simpa using List.find?_eq_none.1 hnone e he)

/-- Elsewhere it is internal at the prefixes of the codewords, and undefined at every other path (R30). -/
theorem trieView_no_codeword {table : List CodeEntry} {path : Bits} (h : ¬ ∃ e ∈ table, e.code = path) :
    trieView table path = if ∃ e ∈ table, path <+: e.code then some .internal else none := by
  have hnone : table.find? (fun e => e.code = path) = none := by
    rw [List.find?_eq_none]
    intro e he hcode
    exact h ⟨e, he, by simpa using hcode⟩
  simp [trieView, hnone]

/-- Settles O33: a path that the trie has ends at a leaf or at an internal node as `leaves` says; a path that it does
not have begins no codeword. -/
theorem trieIsTheAbstractTrie : Obligations.TrieIsTheAbstractTrie := by
  unfold Obligations.TrieIsTheAbstractTrie
  intro node nnode table hT path
  have hpath := hT.paths path
  unfold nodeView
  cases hw : walkTrie node 0 path with
  | none =>
    rw [hw] at hpath
    have hno : ¬ ∃ e ∈ table, path <+: e.code := fun h => by simpa using hpath.2 h
    have hcode : ¬ ∃ e ∈ table, e.code = path := fun ⟨e, he, hc⟩ => hno ⟨e, he, hc ▸ List.prefix_rfl⟩
    rw [trieView_no_codeword hcode, if_neg hno]
  | some k =>
    rw [hw] at hpath
    obtain ⟨n, hn, hleaf, hsym⟩ := hT.leaves path k hw
    simp only [hn]
    cases hl : n.leaf with
    | true => rw [trieView_codeword (hleaf.1 hl) hsym]; rfl
    | false =>
      have hcode : ¬ ∃ e ∈ table, e.code = path := fun h => by rw [hleaf.2 h] at hl; cases hl
      rw [trieView_no_codeword hcode, if_pos (hpath.1 rfl)]; rfl

/-! ### BLD with `KIND = PREFIX` -/

/-- The codeword bits of a table (R44). -/
def codewordBits (table : List CodeEntry) : Nat := (table.map CodeEntry.len).sum

/-- A loaded table has 256 entries of 255 bits at the most (R9, R44). -/
theorem codewordBits_le {s : State} {table : List CodeEntry} (hn : s.nent.toNat ≤ 256) (htab : s.table = .ok table)
    (hlen : ∀ e ∈ table, e.len ≤ 255) : codewordBits table ≤ 65280 := by
  have hsum := List.sum_le_card_nsmul (table.map CodeEntry.len) 255 (by simpa using hlen)
  have hcount := (State.table_eq_ok.1 htab).1
  rw [List.length_map, smul_eq_mul] at hsum
  unfold codewordBits
  omega

theorem restBits_sortEntries (table : List CodeEntry) : restBits 0 (sortEntries table) = codewordBits table :=
  ((sortEntries_perm table).map CodeEntry.len).sum_eq

/-- What `BLD` leaves where it raises no fault with `KIND = PREFIX` (R29, R123). -/
def TrieBuilt (table : List CodeEntry) (s t : State) : Prop :=
  ∃ nnode node, t = { s with phase := .run, cursor := 0, carry := 0, ccnt := 0, nnode := nnode, node := node } ∧
    nnode.toNat ≤ 1 + codewordBits table ∧ Memory.wf nodeSpace node = true ∧ TrieShape node nnode.toNat table

/-- The table has at least one entry, each with a codeword (R114). -/
def Coded (table : List CodeEntry) : Prop := table ≠ [] ∧ ∀ e ∈ table, e.len ≠ 0

/-- `BLD` of a table that common validation refuses (R114). -/
theorem bldBody_not_coded {s : State} {table : List CodeEntry} (htab : s.table = .ok table) (h : ¬ Coded table) :
    ∃ c, bldBody s = .raised c s := by
  cases hv : validateCommon table with
  | none => exact absurd (validateCommon_eq_none.1 hv) h
  | some c => exact ⟨c, by simp [bldBody, htab, hv]⟩

/-- `BLD` of a table that common validation passes, with `KIND = PREFIX`. -/
theorem bldBody_prefixCode {s : State} {table : List CodeEntry} (htab : s.table = .ok table) (hc : Coded table)
    (hk : s.kind = .prefixCode) :
    bldBody s = (buildTrie table s).bind fun _ s =>
      .ok () { s with cursor := 0, carry := 0, ccnt := 0, phase := .run } := by
  simp [bldBody, htab, validateCommon_eq_none.2 hc, hk]

/-- Everything `BLD` can do with `KIND = PREFIX` (R117, R118, R123): it builds the trie of a `PrefixFree` table whose
entries have codewords, and faults on any other. -/
theorem bldBody_trie {s : State} {table : List CodeEntry} (hk : s.kind = .prefixCode) (hn : s.nent.toNat ≤ 256)
    (htab : s.table = .ok table) (hlen : ∀ e ∈ table, e.len ≤ 255) (hwf : Memory.wf nodeSpace s.node = true) :
    (Coded table ∧ PrefixFree table ∧ ∃ t, bldBody s = .ok () t ∧ TrieBuilt table s t) ∨
    (¬ (Coded table ∧ PrefixFree table) ∧ ∃ c t, bldBody s = .raised c t) := by
  by_cases hc : Coded table
  · have hperm := sortEntries_perm table
    have hroom := codewordBits_le hn htab hlen
    have hne : sortEntries table ≠ [] := fun h => hc.1 (List.nil_perm.1 (h ▸ hperm))
    obtain ⟨hgood, hbad⟩ := build_cases (maxLen table + 1) (sortEntries table) 0 { s with nnode := 0 } hne
      (fun e _ => Nat.zero_le _) (fun e he => Nat.lt_succ_of_le (le_maxLen (hperm.mem_iff.1 he)))
      (by rw [restBits_sortEntries]; show 0 + 1 + codewordBits table ≤ 65281; omega) hwf
    rw [prefixFreeFrom_zero, prefixFree_perm hperm] at hgood hbad
    rw [bldBody_prefixCode htab hc hk, buildTrie]
    by_cases hpf : PrefixFree table
    · obtain ⟨nnode, node, hb, hle, hwf', _, hbuilt⟩ := hgood hpf
      refine .inl ⟨hc, hpf, _, by rw [hb]; rfl, nnode, node, rfl, ?_, hwf', ?_⟩
      · rw [restBits_sortEntries] at hle; simpa using hle
      · exact hbuilt.trieShape hne (fun e he => hc.2 e (hperm.mem_iff.1 he)) hpf fun e => hperm.mem_iff
    · obtain ⟨t, hb, _⟩ := hbad hpf
      exact .inr ⟨fun h => hpf h.2, _, t, by rw [hb]; rfl⟩
  · obtain ⟨c, hraised⟩ := bldBody_not_coded htab hc
    exact .inr ⟨fun h => hc h.1, c, s, hraised⟩

theorem exec_bld {s : State} (h : s.phase = .load) : exec .bld s = (bldBody s).finish :=
  exec_legal (i := .bld) (by rw [h]; decide) rfl (by rw [h]; rfl)

/-- `BLD` with `KIND = PREFIX` from phase `LOAD` leaves the trie where it does not end in `FAULT`. -/
theorem exec_bld_trie {s t : State} {table : List CodeEntry} (hp : s.phase = .load) (hk : s.kind = .prefixCode)
    (hn : s.nent.toNat ≤ 256) (htab : s.table = .ok table) (hlen : ∀ e ∈ table, e.len ≤ 255)
    (hwf : Memory.wf nodeSpace s.node = true) (h : exec .bld s = .next t) (ht : t.phase ≠ .fault) :
    TrieBuilt table s t := by
  rw [exec_bld hp] at h
  rcases bldBody_trie hk hn htab hlen hwf with ⟨_, _, u, hok, hbuilt⟩ | ⟨_, c, u, hraised⟩
  · rw [hok] at h; cases h; exact hbuilt
  · rw [hraised] at h; cases h; exact absurd rfl ht

/-- Settles O28, from what `BLD` can do with `KIND = PREFIX`. -/
theorem bldBuildsTheTrie : Obligations.BldBuildsTheTrie := by
  unfold Obligations.BldBuildsTheTrie
  intro s table hp hk hn htab hlen hwf
  refine ⟨fun t h ht => ?_, fun hne hpos hpf => ?_⟩
  · obtain ⟨nnode, node, rfl, _, _, hshape⟩ := exec_bld_trie hp hk hn htab hlen hwf h ht
    exact ⟨hshape, rfl⟩
  · rcases bldBody_trie hk hn htab hlen hwf with ⟨_, _, t, hok, _, _, rfl, _⟩ | ⟨hnot, _⟩
    · exact ⟨_, by rw [exec_bld hp, hok]; rfl, rfl⟩
    · exact absurd ⟨⟨hne, hpos⟩, hpf⟩ hnot

/-- Settles O34: the build allocates at most one node more than the table has codeword bits, and 256 codewords of 255
bits have 65280. -/
theorem trieFitsTheNodeMemory : Obligations.TrieFitsTheNodeMemory := by
  unfold Obligations.TrieFitsTheNodeMemory
  intro s t table hp hk ⟨hn, htab, _, hlen⟩ hwf h ht
  obtain ⟨nnode, node, rfl, hle, _⟩ :=
    exec_bld_trie hp hk hn htab (fun e he => (hlen e he).2) hwf h (by rw [ht]; decide)
  have hbits := codewordBits_le hn htab fun e he => (hlen e he).2
  exact ⟨hle, by show nnode.toNat ≤ 65281; omega⟩

/-! ### BLD with `KIND = FIXED` -/

/-- What `BLD` leaves where it raises no fault with `KIND = FIXED` (R31, R32, R123). -/
def ArrayBuilt (table : List CodeEntry) (len : Nat) (s t : State) : Prop :=
  ∃ demux, t = { s with phase := .run, cursor := 0, carry := 0, ccnt := 0, l := BitVec.ofNat 4 len, demux := demux } ∧
    Memory.wf demuxSpace demux = true ∧ DemuxShape demux len table

/-- One length up to 8, and no codeword twice (R115, R121). -/
def FixedWidth (table : List CodeEntry) (len : Nat) : Prop :=
  (∀ e ∈ table, e.len = len) ∧ len ≤ 8 ∧ (table.map CodeEntry.code).Nodup

/-- Among codewords of one length, distinct codewords are distinct values. -/
theorem nodup_values_iff {table : List CodeEntry} {len : Nat} (hlen : ∀ e ∈ table, e.len = len) :
    (table.map fun e => bitsVal e.code).Nodup ↔ (table.map CodeEntry.code).Nodup := by
  rw [List.nodup_iff_pairwise_ne, List.nodup_iff_pairwise_ne, List.pairwise_map, List.pairwise_map]
  refine List.Pairwise.iff_of_mem fun {a b} ha hb => not_congr ⟨fun h => ?_, fun h => by rw [h]⟩
  exact bitsVal_injective ((hlen a ha).trans (hlen b hb).symm) h

theorem read_demux_nil {v : Nat} (hv : v < 256) : Memory.read demuxSpace [] v = .ok ⟨false, 0⟩ := by
  simp [Memory.read, demuxSpace, hv]

/-- `BLD` of a table that common validation passes, with `KIND = FIXED`. -/
theorem bldBody_fixedCode {s : State} {table : List CodeEntry} (htab : s.table = .ok table) (hc : Coded table)
    (hk : s.kind = .fixedCode) :
    bldBody s = (buildDemux table s).bind fun _ s =>
      .ok () { s with cursor := 0, carry := 0, ccnt := 0, phase := .run } := by
  simp [bldBody, htab, validateCommon_eq_none.2 hc, hk]

/-- Everything the array build can do on an array that is all invalid (R115, R121). -/
theorem buildDemux_cases {s : State} {table : List CodeEntry} (hc : Coded table) (hd : s.demux = []) :
    (∃ len, FixedWidth table len ∧ ∃ demux,
      buildDemux table s = .ok () { s with l := BitVec.ofNat 4 len, demux := demux } ∧
        Memory.wf demuxSpace demux = true ∧ DemuxShape demux len table) ∨
    ((∀ len, ¬ FixedWidth table len) ∧ ∃ c t, buildDemux table s = .raised c t) := by
  cases hf : fixedLength table with
  | error c =>
    refine .inr ⟨fun len h => ?_, c, s, by simp [buildDemux, hf]⟩
    rw [(fixedLength_eq_ok hc.1).2 ⟨h.1, h.2.1⟩] at hf
    cases hf
  | ok len =>
    obtain ⟨hlen, h8⟩ := (fixedLength_eq_ok hc.1).1 hf
    have hval : ∀ e ∈ table, bitsVal e.code < 256 := fun e he =>
      (bitsVal_lt e.code).trans_le (Nat.pow_le_pow_right (j := 8) Nat.two_pos ((hlen e he).trans_le h8))
    simp only [buildDemux, hf]
    rcases demuxEntries_cases table { s with l := BitVec.ofNat 4 len } hval (by rw [hd]; rfl) with
      ⟨demux, hrun, hwf, hnodup, _, hset, hkeep⟩ | ⟨t, hrun, _, _, _, hnot⟩
    · refine .inl ⟨len, ⟨hlen, h8, (nodup_values_iff hlen).1 hnodup⟩, demux, hrun, hwf,
        ⟨?_, h8, hlen⟩, fun v hv => ?_, hnodup⟩
      · obtain ⟨e, he⟩ := List.exists_mem_of_ne_nil _ hc.1
        rw [← hlen e he]
        exact Nat.one_le_iff_ne_zero.2 (hc.2 e he)
      · by_cases hex : ∃ e ∈ table, bitsVal e.code = v
        · obtain ⟨e, he, rfl⟩ := hex
          refine ⟨_, hset e he, iff_of_true rfl ⟨e, he, rfl⟩, fun e' he' hv' => ?_, nofun⟩
          rw [List.inj_on_of_nodup_map hnodup he' he hv']
        · have hread := hkeep v fun e he hv' => hex ⟨e, he, hv'⟩
          rw [show ({ s with l := BitVec.ofNat 4 len } : State).demux = [] from hd, read_demux_nil hv] at hread
          exact ⟨_, hread, iff_of_false nofun hex, fun e he hv' => absurd ⟨e, he, hv'⟩ hex, fun _ => rfl⟩
    · refine .inr ⟨fun len' h => hnot ⟨(nodup_values_iff hlen).2 h.2.2, fun e he d hread => ?_⟩, _, t, hrun⟩
      rw [show ({ s with l := BitVec.ofNat 4 len } : State).demux = [] from hd, read_demux_nil (hval e he)] at hread
      cases hread; rfl

/-- Everything `BLD` can do with `KIND = FIXED` (R115, R121, R123): it builds the array of a table of distinct
codewords of one length from 1 to 8, and faults on any other. -/
theorem bldBody_array {s : State} {table : List CodeEntry} (hk : s.kind = .fixedCode) (htab : s.table = .ok table)
    (hd : s.demux = []) :
    (Coded table ∧ ∃ len, FixedWidth table len ∧ ∃ t, bldBody s = .ok () t ∧ ArrayBuilt table len s t) ∨
    ((Coded table → ∀ len, ¬ FixedWidth table len) ∧ ∃ c t, bldBody s = .raised c t) := by
  by_cases hc : Coded table
  · rw [bldBody_fixedCode htab hc hk]
    rcases buildDemux_cases hc hd with ⟨len, hfix, demux, hb, hwf, hshape⟩ | ⟨hnot, c, t, hb⟩
    · exact .inl ⟨hc, len, hfix, _, by rw [hb]; rfl, demux, rfl, hwf, hshape⟩
    · exact .inr ⟨fun _ => hnot, c, t, by rw [hb]; rfl⟩
  · obtain ⟨c, hraised⟩ := bldBody_not_coded htab hc
    exact .inr ⟨fun h => absurd h hc, c, s, hraised⟩

/-- A non-empty table has one common length. -/
theorem FixedWidth.len_eq {table : List CodeEntry} {len len' : Nat} (hne : table ≠ []) (h : FixedWidth table len)
    (h' : ∀ e ∈ table, e.len = len') : len = len' := by
  obtain ⟨e, he⟩ := List.exists_mem_of_ne_nil _ hne
  exact (h.1 e he).symm.trans (h' e he)

theorem FixedWidth.toNat_length {table : List CodeEntry} {len : Nat} (h : FixedWidth table len) :
    (BitVec.ofNat 4 len).toNat = len := by
  have := h.2.1
  rw [BitVec.toNat_ofNat]
  omega

/-- Settles O30, from what `BLD` can do with `KIND = FIXED`. -/
theorem bldBuildsTheArray : Obligations.BldBuildsTheArray := by
  unfold Obligations.BldBuildsTheArray
  intro s table len hp hk ⟨_, htab, hne, hpos⟩ hd hlen h8 hnodup
  have hc : Coded table := ⟨hne, fun e he => (hpos e he).1⟩
  rcases bldBody_array hk htab hd with ⟨_, len', hfix, t, hok, demux, rfl, _, hshape⟩ | ⟨hnot, _⟩
  · obtain rfl := hfix.len_eq hne hlen
    exact ⟨_, by rw [exec_bld hp, hok]; rfl, hfix.toNat_length, hshape, rfl⟩
  · exact absurd ⟨hlen, h8, hnodup⟩ (hnot hc len)

end Sys2Proof.Machine
end

section
/-! PROOF. The invariant of the reachable states (spec/10_state.md R46) with R41, R43, R44 and R185: one lemma per
command says that from a state that meets it the pseudocode does not stop the machine and, where it raises no fault,
leaves a state that meets it. Both the step lemma and progress follow. -/

namespace Sys2Proof.Machine

/-! ### Reset, fault entry, and what the host presents -/

theorem resetSession_invariant (s : State) : SessionInvariant s.resetSession where
  memories := ⟨rfl, rfl, rfl⟩
  noFault _ := rfl
  faulted := nofun
  live _ := ⟨[], {
    entries := Nat.zero_le _
    listed := rfl
    lengths := nofun
    held := nofun
    textIdle := fun _ => ⟨rfl, rfl, rfl, rfl⟩
    idle := fun _ => rfl
    load := nofun
    run := nofun }⟩

/-- Settles O3: the reset state is what a reset leaves. -/
theorem resetStateIsLive : Obligations.ResetStateIsLive := by
  unfold Obligations.ResetStateIsLive
  exact resetSession_invariant State.reset

/-- After fault entry the invariant asks for a cause of R241 and for memories in canonical form only. -/
theorem enterFault_invariant (c : Cause) (s : State) : SessionInvariant (s.enterFault c) where
  memories := ⟨Memory.wf_ofCells _ _, Memory.wf_ofCells _ _, Memory.wf_ofCells _ _⟩
  noFault h := absurd rfl h
  faulted _ := ⟨c, rfl⟩
  live h := absurd rfl h

theorem LoadState.with_input {s : State} (h : LoadState s) (input : List HostInput) :
    LoadState { s with input := input } := by
  unfold LoadState
  exact congrArg (fun u : State => { u with input := input }) h

/-- The invariant does not speak of what the host has presented. -/
theorem SessionInvariant.with_input {s : State} (h : SessionInvariant s) (input : List HostInput) :
    SessionInvariant { s with input := input } where
  memories := h.memories
  noFault := h.noFault
  faulted := h.faulted
  live hp := by
    obtain ⟨table, hl⟩ := h.live hp
    exact ⟨table, {
      entries := hl.entries
      listed := hl.listed
      lengths := hl.lengths
      held := hl.held
      textIdle := hl.textIdle
      idle := fun hi => congrArg (fun u : State => { u with input := input }) (hl.idle hi)
      load := fun hi => (hl.load hi).with_input input
      run := hl.run }⟩

/-! ### Phase `LOAD` -/

/-- The invariant in phase `LOAD`, for a code table. -/
structure Loading (s : State) (table : List CodeEntry) : Prop where
  phase   : s.phase = .load
  ctWf    : Memory.wf ctSpace s.ct = true
  entries : s.nent.toNat ≤ 256
  listed  : s.table = .ok table
  lengths : ∀ e ∈ table, e.len ≤ 255
  load    : LoadState s

theorem SessionInvariant.loading {s : State} (h : SessionInvariant s) (hp : s.phase = .load) :
    ∃ table, Loading s table := by
  obtain ⟨table, hl⟩ := h.live (by rw [hp]; decide)
  exact ⟨table, hp, h.memories.1, hl.entries, hl.listed, hl.lengths, hl.load hp⟩

theorem Loading.node {s : State} {table : List CodeEntry} (h : Loading s table) : s.node = [] :=
  congrArg State.node h.load

theorem Loading.demux {s : State} {table : List CodeEntry} (h : Loading s table) : s.demux = [] :=
  congrArg State.demux h.load

/-- In phase `LOAD` the padding and lookahead registers are at their reset values (R123). -/
theorem Loading.stream {s : State} {table : List CodeEntry} (h : Loading s table) :
    s.pvalid = false ∧ s.holdv = false ∧ s.p = 0 ∧ s.hold = 0 :=
  ⟨congrArg State.pvalid h.load, congrArg State.holdv h.load, congrArg State.p h.load, congrArg State.hold h.load⟩

theorem Loading.held {s : State} {table : List CodeEntry} (h : Loading s table) :
    s.holdv = true → s.pvalid = true ∧ s.fmt = .binary := by
  rw [h.stream.2.1]; nofun

theorem Loading.memories {s : State} {table : List CodeEntry} (h : Loading s table) : MemoriesWf s :=
  ⟨h.ctWf, by rw [h.node]; rfl, by rw [h.demux]; rfl⟩

theorem Loading.invariant {s : State} {table : List CodeEntry} (h : Loading s table) : SessionInvariant s where
  memories := h.memories
  noFault _ := congrArg State.cause h.load
  faulted hp := nomatch h.phase.symm.trans hp
  live _ := ⟨table, {
    entries := h.entries
    listed := h.listed
    lengths := h.lengths
    held := h.held
    textIdle := fun _ => h.stream
    idle := fun hp => nomatch h.phase.symm.trans hp
    load := fun _ => h.load
    run := fun hp => nomatch h.phase.symm.trans hp }⟩

/-- `CFG` opens an empty table (R103). -/
theorem SessionInvariant.loading_cfg {s : State} (h : SessionInvariant s) (hp : s.phase = .idle) (mode : BitVec 2) :
    Loading { s with mode := mode, phase := .load } [] := by
  obtain ⟨table, hl⟩ := h.live (by rw [hp]; decide)
  rw [hl.idle hp]
  exact ⟨rfl, rfl, Nat.zero_le _, rfl, nofun, rfl⟩

/-- A table with other contents is a table in phase `LOAD` too: nothing else has to be checked. -/
theorem Loading.with_table {s : State} {table table' : List CodeEntry} {nent : BitVec 9} {ct : List (Nat × CodeEntry)}
    (h : Loading s table) (hwf : Memory.wf ctSpace ct = true) (hn : nent.toNat ≤ 256)
    (hlist : ({ s with nent := nent, ct := ct } : State).table = .ok table') (hlen : ∀ e ∈ table', e.len ≤ 255) :
    Loading { s with nent := nent, ct := ct } table' := by
  refine ⟨h.phase, hwf, hn, hlist, hlen, ?_⟩
  unfold LoadState
  exact congrArg (fun u : State => { u with nent := nent, ct := ct }) h.load

theorem toNat_nent_succ {nent : BitVec 9} (h : nent.toNat < 256) : (nent + 1).toNat = nent.toNat + 1 := by
  rw [BitVec.toNat_add, show (1 : BitVec 9).toNat = 1 from rfl, Nat.mod_eq_of_lt (by omega)]

/-- One entry written behind the last one. -/
theorem table_append {s : State} {table : List CodeEntry} {e : CodeEntry} (htab : s.table = .ok table)
    (hn : s.nent.toNat < 256) :
    ({ s with nent := s.nent + 1, ct := Memory.put ctSpace s.ct s.nent.toNat e } : State).table =
      .ok (table ++ [e]) := by
  obtain ⟨hlen, hread⟩ := State.table_eq_ok.1 htab
  refine State.table_eq_ok.2 ⟨?_, fun j hj => ?_⟩
  · show (table ++ [e]).length = (s.nent + 1).toNat
    rw [toNat_nent_succ hn, List.length_append, hlen, List.length_singleton]
  · show Memory.read ctSpace (Memory.put ctSpace s.ct s.nent.toNat e) j = _
    rcases Nat.lt_or_ge j table.length with hlt | hge
    · rw [Memory.read_put_other _ (by omega), hread j hlt, List.getElem_append_left hlt]
    · obtain rfl : j = s.nent.toNat := by
        rw [List.length_append, List.length_singleton] at hj
        omega
      rw [Memory.read_put_unlisted _ rfl hn]
      simp [← hlen]

/-- One entry written over. -/
theorem table_set {s : State} {table : List CodeEntry} {e : CodeEntry} {i : Nat} (htab : s.table = .ok table)
    (hi : i < 256) :
    ({ s with nent := s.nent, ct := Memory.put ctSpace s.ct i e } : State).table = .ok (table.set i e) := by
  obtain ⟨hlen, hread⟩ := State.table_eq_ok.1 htab
  refine State.table_eq_ok.2 ⟨by rw [List.length_set]; exact hlen, fun j hj => ?_⟩
  rw [List.length_set] at hj
  show Memory.read ctSpace (Memory.put ctSpace s.ct i e) j = _
  by_cases hij : i = j
  · subst hij
    rw [Memory.read_put_unlisted _ rfl hi, List.getElem_set_self]
  · rw [Memory.read_put_other _ (Ne.symm hij), hread j hj, List.getElem_set_ne hij]

theorem entBody_completes {s : State} {table : List CodeEntry} (arg : Byte) (h : Loading s table) :
    (entBody arg s).Completes SessionInvariant := by
  rcases Nat.lt_or_eq_of_le h.entries with hn | hn
  · rw [entBody_room hn]
    refine (h.with_table (Memory.wf_put _ h.ctWf hn) ?_ (table_append h.listed hn) fun e he => ?_).invariant
    · rw [toNat_nent_succ hn]; exact hn
    · rcases List.mem_append.1 he with he | he
      · exact h.lengths e he
      · rw [List.mem_singleton.1 he]; exact Nat.zero_le _
  · rw [entBody_full hn]
    trivial

theorem cwbBody_completes {s : State} {table : List CodeEntry} (arg : Byte) (h : Loading s table) :
    (cwbBody arg s).Completes SessionInvariant := by
  by_cases hn : s.nent = 0
  · rw [cwbBody_empty hn]
    trivial
  · obtain ⟨hcount, hread⟩ := State.table_eq_ok.1 h.listed
    have hpos : s.nent.toNat ≠ 0 := fun h0 => hn (BitVec.eq_of_toNat_eq h0)
    have hlast : s.nent.toNat - 1 < table.length := by omega
    have hi : s.nent.toNat - 1 < 256 := by have := h.entries; omega
    rw [cwbBody_open hn h.entries (hread _ hlast)]
    have hle := h.lengths _ (List.getElem_mem hlast)
    split
    · trivial
    · next hne =>
      refine (h.with_table (Memory.wf_put _ h.ctWf hi) h.entries (table_set h.listed hi) fun e he => ?_).invariant
      rcases List.mem_or_eq_of_mem_set he with he | rfl
      · exact h.lengths e he
      · unfold CodeEntry.len at hne hle ⊢
        rw [List.length_append, List.length_singleton]
        omega

/-! ### Phase `RUN` -/

/-- The invariant in phase `RUN`, for a code table. -/
structure Running (s : State) (table : List CodeEntry) : Prop where
  phase    : s.phase = .run
  memories : MemoriesWf s
  cause    : s.cause = 0
  entries  : s.nent.toNat ≤ 256
  listed   : s.table = .ok table
  lengths  : ∀ e ∈ table, e.len ≤ 255
  held     : s.holdv = true → s.pvalid = true ∧ s.fmt = .binary
  textIdle : s.fmt = .text → s.pvalid = false ∧ s.holdv = false ∧ s.p = 0 ∧ s.hold = 0
  coded    : Coded table
  trie     : s.kind = .prefixCode → RunsPrefix s table
  array    : s.kind = .fixedCode → RunsFixed s table

theorem SessionInvariant.running {s : State} (h : SessionInvariant s) (hp : s.phase = .run) :
    ∃ table, Running s table := by
  have hf : s.phase ≠ .fault := by rw [hp]; decide
  obtain ⟨table, hl⟩ := h.live hf
  obtain ⟨hne, hpos, htrie, harray⟩ := hl.run hp
  exact ⟨table, hp, h.memories, h.noFault hf, hl.entries, hl.listed, hl.lengths, hl.held, hl.textIdle, ⟨hne, hpos⟩,
    htrie, harray⟩

/-- A running session meets the invariant, and still does when `END` has closed it. -/
theorem Running.invariant_of_phase {s : State} {table : List CodeEntry} (h : Running s table) {phase : Phase}
    (hp : phase = .run ∨ phase = .done) : SessionInvariant { s with phase := phase } where
  memories := h.memories
  noFault _ := h.cause
  faulted hf := by
    change phase = .fault at hf
    rcases hp with rfl | rfl <;> cases hf
  live _ := ⟨table, {
    entries := h.entries
    listed := h.listed
    lengths := h.lengths
    held := h.held
    textIdle := h.textIdle
    idle := fun hf => by
      change phase = .idle at hf
      rcases hp with rfl | rfl <;> cases hf
    load := fun hf => by
      change phase = .load at hf
      rcases hp with rfl | rfl <;> cases hf
    run := fun _ => ⟨h.coded.1, h.coded.2, h.trie, h.array⟩ }⟩

theorem Running.invariant {s : State} {table : List CodeEntry} (h : Running s table) : SessionInvariant s :=
  h.invariant_of_phase (phase := s.phase) (.inl h.phase)

/-- `BLD` does not stop the machine, and starts the session (R113). -/
theorem bldBody_completes {s : State} {table : List CodeEntry} (h : Loading s table) :
    (bldBody s).Completes SessionInvariant := by
  cases hk : s.kind with
  | prefixCode =>
    have hwf : Memory.wf nodeSpace s.node = true := h.memories.2.1
    rcases bldBody_trie hk h.entries h.listed h.lengths hwf with
      ⟨hc, _, _, hok, nnode, node, rfl, _, hwf', hshape⟩ | ⟨_, c, t, hraised⟩
    · rw [hok]
      refine Running.invariant (table := table) ⟨rfl, ⟨h.ctWf, hwf', h.memories.2.2⟩, congrArg State.cause h.load,
        h.entries, h.listed, h.lengths, h.held, fun _ => h.stream, hc, fun _ => ?_, fun h' => nomatch hk.symm.trans h'⟩
      have hroot : (0 : Nat) < nnode.toNat := (hshape.indices 0).2 ⟨[], rfl⟩
      exact ⟨hshape, ⟨hroot, hshape.root⟩, congrArg State.l h.load, h.demux, rfl, rfl⟩
    · rw [hraised]
      trivial
  | fixedCode =>
    rcases bldBody_array hk h.listed h.demux with
      ⟨hc, len, hfix, _, hok, demux, rfl, hwf', hshape⟩ | ⟨_, c, t, hraised⟩
    · rw [hok]
      refine Running.invariant (table := table) ⟨rfl, ⟨h.ctWf, h.memories.2.1, hwf'⟩, congrArg State.cause h.load,
        h.entries, h.listed, h.lengths, h.held, fun _ => h.stream, hc, fun h' => (nomatch hk.symm.trans h'),
        fun _ => ?_⟩
      have hl : (BitVec.ofNat 4 len).toNat = len := hfix.toNat_length
      refine ⟨by rw [← hl] at hshape; exact hshape, ⟨?_, ?_, Nat.one_pos⟩, congrArg State.nnode h.load, h.node, rfl⟩
      · show 0 < (BitVec.ofNat 4 len).toNat
        rw [hl]; exact hshape.lengths.1
      · show (BitVec.ofNat 4 len).toNat ≤ 8
        rw [hl]; exact hfix.2.1
    · rw [hraised]
      trivial

/-- What a decoder that rests leaves: the session goes on with the same format and padding byte (R36, R37). -/
def RunsOn (table : List CodeEntry) (s t : State) : Prop :=
  Running t table ∧ t.fmt = s.fmt ∧ t.pvalid = s.pvalid

theorem Running.of_prefixRest {s t : State} {table : List CodeEntry} (h : Running s table) (hk : s.kind = .prefixCode)
    (hr : PrefixRest s t) : RunsOn table s t := by
  obtain ⟨hcursor, c, o, rfl⟩ := hr
  obtain ⟨hshape, _, hrest⟩ := h.trie hk
  exact ⟨{ h with trie := fun _ => ⟨hshape, hcursor, hrest⟩, array := fun h' => nomatch hk.symm.trans h' }, rfl, rfl⟩

theorem Running.of_fixedRest {s t : State} {table : List CodeEntry} (h : Running s table) (hk : s.kind = .fixedCode)
    (hr : FixedRest s t) : RunsOn table s t := by
  obtain ⟨hcarry, c, k, o, rfl⟩ := hr
  obtain ⟨hshape, _, hrest⟩ := h.array hk
  exact ⟨{ h with trie := fun h' => (nomatch hk.symm.trans h'), array := fun _ => ⟨hshape, hcarry, hrest⟩ }, rfl, rfl⟩

theorem Running.bitStep_completes {s : State} {table : List CodeEntry} (h : Running s table) (b : Bool) :
    (bitStep b s).Completes (RunsOn table s) := by
  cases hk : s.kind with
  | prefixCode =>
    obtain ⟨hshape, hcursor, _⟩ := h.trie hk
    exact ((byteStep_rests_prefix hk hshape hcursor).1 b).mono fun t => h.of_prefixRest hk
  | fixedCode =>
    obtain ⟨_, hcarry, _⟩ := h.array hk
    exact ((byteStep_rests_fixed hk hcarry).1 b).mono fun t => h.of_fixedRest hk

theorem Running.byteStep_completes {s : State} {table : List CodeEntry} (h : Running s table) (B : Byte) {u : Nat}
    (hu : u ≤ 8) : (byteStep B u s).Completes (RunsOn table s) := by
  cases hk : s.kind with
  | prefixCode =>
    obtain ⟨hshape, hcursor, _⟩ := h.trie hk
    exact ((byteStep_rests_prefix hk hshape hcursor).2 B u).mono fun t => h.of_prefixRest hk
  | fixedCode =>
    obtain ⟨_, hcarry, _⟩ := h.array hk
    exact ((byteStep_rests_fixed hk hcarry).2 B u hu).mono fun t => h.of_fixedRest hk

theorem Running.setPadding {s : State} {table : List CodeEntry} (h : Running s table) (hf : s.fmt = .binary)
    (v : Byte) : Running (s.setPadding v) table :=
  { h with held := fun _ => ⟨rfl, hf⟩, textIdle := fun h' => nomatch hf.symm.trans h' }

theorem Running.holdByte {s : State} {table : List CodeEntry} (h : Running s table) (hf : s.fmt = .binary)
    (hv : s.pvalid = true) (b : Byte) : Running (s.holdByte b) table :=
  { h with held := fun _ => ⟨hv, hf⟩, textIdle := fun h' => nomatch hf.symm.trans h' }

theorem Running.releaseHold {s : State} {table : List CodeEntry} (h : Running s table) (hf : s.fmt = .binary) :
    Running s.releaseHold table :=
  { h with held := nofun, textIdle := fun h' => nomatch hf.symm.trans h' }

/-- `DAT` goes on with the session (R141). -/
theorem datBody_completes {s : State} {table : List CodeEntry} (arg : Byte) (h : Running s table) :
    (datBody arg s).Completes SessionInvariant := by
  unfold datBody
  split
  · unfold textByte
    split
    · exact (h.bitStep_completes _).mono fun t ht => ht.1.invariant
    · exact h.invariant
  · next hf =>
    split
    · unfold paddingByte
      split
      · trivial
      · exact (h.setPadding hf arg).invariant
    · next hv =>
      have hv : s.pvalid = true := by simpa using hv
      split
      · exact (h.holdByte hf hv arg).invariant
      · exact (h.byteStep_completes s.hold (le_refl 8)).bind fun t ⟨ht, hfmt, hpv⟩ =>
          (ht.holdByte (hfmt.trans hf) (hpv.trans hv) arg).invariant

/-- The part of `END` before its end checks leaves the session running (R149). -/
theorem lastByte_completes {s : State} {table : List CodeEntry} (h : Running s table) :
    (lastByte s).Completes fun t => Running t table := by
  unfold lastByte
  split
  · exact h
  · next hf =>
    split
    · trivial
    · split
      · split
        · trivial
        · exact h
      · exact (h.byteStep_completes s.hold (Nat.sub_le 8 _)).bind fun t ⟨ht, hfmt, _⟩ => ht.releaseHold (hfmt.trans hf)

/-- `END` closes the session (R149). -/
theorem endBodyBody_completes {s : State} {table : List CodeEntry} (h : Running s table) :
    (endBodyBody s).Completes SessionInvariant := by
  refine (lastByte_completes h).bind fun t ht => ?_
  split
  · trivial
  · exact ht.invariant_of_phase (.inr rfl)

/-! ### Every command, every step -/

/-- The pseudocode of a command in a phase in which R80 lets it be executed, from a state that meets the invariant. -/
theorem pseudocode_completes {i : Instr} {s : State} (h : SessionInvariant s) (hl : legalIn i.opcode s.phase = true) :
    (pseudocode i s).Completes SessionInvariant := by
  cases i with
  | nop => exact h
  | rst => exact resetSession_invariant s
  | cfg arg => exact (h.loading_cfg (of_decide_eq_true hl) _).invariant
  | ent arg =>
    obtain ⟨table, hload⟩ := h.loading (of_decide_eq_true hl)
    exact entBody_completes arg hload
  | cwb arg =>
    obtain ⟨table, hload⟩ := h.loading (of_decide_eq_true hl)
    exact cwbBody_completes arg hload
  | bld =>
    obtain ⟨table, hload⟩ := h.loading (of_decide_eq_true hl)
    exact bldBody_completes hload
  | dat arg =>
    obtain ⟨table, hrun⟩ := h.running (of_decide_eq_true hl)
    exact datBody_completes arg hrun
  | endBody =>
    obtain ⟨table, hrun⟩ := h.running (of_decide_eq_true hl)
    exact endBodyBody_completes hrun

/-- A result that does not stop the machine leaves a next state, after fault entry where it raises one (R246). -/
theorem Result.Completes.finish {r : Result Unit} (h : r.Completes SessionInvariant) :
    ∃ t, r.finish = .next t ∧ SessionInvariant t := by
  cases r with
  | ok a t => exact ⟨t, rfl, h⟩
  | raised c t => exact ⟨_, rfl, enterFault_invariant c t⟩
  | stop g => exact h.elim

theorem exec_keeps_invariant (i : Instr) {s : State} (h : SessionInvariant s) :
    ∃ t, exec i s = .next t ∧ SessionInvariant t := by
  rw [exec_eq_command]
  rcases command_cases (op := i.opcode) (arg := i.arg) (body := pseudocode i) (s := s) rfl with
    ⟨_, _, ho⟩ | ⟨_, ho⟩ | ⟨_, ho⟩ | ⟨_, hl, _, ho⟩
  · exact ⟨s, ho, h⟩
  · exact ⟨_, ho, enterFault_invariant _ s⟩
  · exact ⟨_, ho, enterFault_invariant _ s⟩
  · rw [ho]
    exact (pseudocode_completes h hl).finish

theorem rejectWord_keeps_invariant (e : DecodeError) {s : State} (h : SessionInvariant s) :
    SessionInvariant (rejectWord e s) := by
  unfold rejectWord
  split
  · exact h
  · exact enterFault_invariant _ s

/-- THE STEP LEMMA AND PROGRESS IN ONE: from a state that meets the invariant a step answers a next state, and that
state meets it. -/
theorem step_keeps_invariant {s : State} (h : SessionInvariant s) : ∃ t, step s = .next t ∧ SessionInvariant t := by
  rcases step_cases (s := s) rfl with ⟨_, ho⟩ | ⟨rest, _, ho⟩ | ⟨w, rest, i, _, _, ho⟩ | ⟨w, rest, e, _, _, ho⟩
  · exact ⟨s, ho, h⟩
  · exact ⟨_, ho, resetSession_invariant _⟩
  · rw [ho]
    exact exec_keeps_invariant i (h.with_input rest)
  · exact ⟨_, ho, rejectWord_keeps_invariant e (h.with_input rest)⟩

/-- Settles O4: the step has one answer, and it meets the invariant. -/
theorem stepKeepsSessionInvariant : Obligations.StepKeepsSessionInvariant := by
  unfold Obligations.StepKeepsSessionInvariant
  intro s t h ht
  obtain ⟨u, hu, hinv⟩ := step_keeps_invariant h
  rw [hu, Host.Outcome.next.injEq] at ht
  exact ht ▸ hinv

/-- Settles O5. -/
theorem stepNeverStopsFromInvariantStates : Obligations.StepNeverStopsFromInvariantStates := by
  unfold Obligations.StepNeverStopsFromInvariantStates
  intro s h
  obtain ⟨t, ht, _⟩ := step_keeps_invariant h
  exact ⟨t, ht⟩

end Sys2Proof.Machine
end

section
/-! PROOF. The command channel and the symbol port of the memory chapter (spec/20_memory.md R51, R55): a step is `exec`
of the presented command, and how many symbols one command can emit. -/

namespace Sys2Proof.Machine

/-- Settles O6: the presented word is taken, and it decodes to the command. -/
theorem stepRunsDecodedInstruction : Obligations.StepRunsDecodedInstruction := by
  unfold Obligations.StepRunsDecodedInstruction
  intro s w rest i hin hdec
  rw [step_word hin, runWord_ok hdec]

/-- `t` has at most `n` symbols more than `s`, at the end of `OUT`. -/
def Emits (n : Nat) (s t : State) : Prop := ∃ extra, extra.length ≤ n ∧ t.out = s.out ++ extra

theorem Emits.of_out_eq {n : Nat} {s t : State} (h : t.out = s.out) : Emits n s t := ⟨[], Nat.zero_le n, by simp [h]⟩

theorem Emits.length_le {n : Nat} {s t : State} (h : Emits n s t) : t.out.length ≤ s.out.length + n := by
  obtain ⟨extra, hlen, hout⟩ := h
  rw [hout, List.length_append]
  omega

theorem Emits.out_eq {s t : State} (h : Emits 0 s t) : t.out = s.out := by
  obtain ⟨extra, hlen, hout⟩ := h
  rw [hout, List.eq_nil_of_length_eq_zero (Nat.le_zero.1 hlen), List.append_nil]

theorem Decodes.emits {n : Nat} {s t : State} (h : Decodes n s t) : Emits n s t := by
  obtain ⟨_, _, _, extra, hlen, rfl⟩ := h
  exact ⟨extra, hlen, rfl⟩

/-- How many symbols a command can emit (R55). -/
def emitLimit : Instr → Nat
  | .dat _ => 8
  | .endBody => 8
  | _ => 0

theorem emitLimit_le (i : Instr) : emitLimit i ≤ 8 := by cases i <;> simp [emitLimit]

theorem emitLimit_eq_zero {i : Instr} (hdat : ∀ a, i ≠ .dat a) (hend : i ≠ .endBody) : emitLimit i = 0 := by
  cases i with
  | dat a => exact absurd rfl (hdat a)
  | endBody => exact absurd rfl hend
  | _ => rfl

theorem Result.Within.ends {C : List Cause} {R : State → Prop} {r : Result Unit} (h : r.Within C R) : r.Ends R := by
  cases r with
  | ok a t => exact h
  | raised c t => exact h.2
  | stop g => trivial

theorem endBodyBody_emits (s : State) : (endBodyBody s).Ends (Emits 8 s) := by
  have last : (lastByte s).Ends (Emits 8 s) := (lastByte_ends s).mono fun t ht => by
    obtain ⟨_, u, hu, rfl, _⟩ := ht
    exact hu.emits
  refine last.bind (fun _ h => h) fun t ht => ?_
  split
  · exact ht
  · exact ht

/-- The pseudocode of every command but `RST`, however it ends, emits no more than the command can. -/
theorem pseudocode_emits {i : Instr} (s : State) (hrst : i ≠ .rst) : (pseudocode i s).Ends (Emits (emitLimit i) s) := by
  have frame := (pseudocode_within i s).ends
  cases i with
  | rst => exact absurd rfl hrst
  | dat arg =>
    refine (datBody_ends arg s).mono fun t ht => ?_
    obtain ⟨_, _, _, _, u, hu, rfl, _⟩ := ht
    exact hu.emits
  | endBody => exact endBodyBody_emits s
  | bld => exact frame.mono fun t ht => .of_out_eq (by rw [ht.1.1])
  | nop => exact frame.mono fun t ht => .of_out_eq (by rw [show t = s from ht.1])
  | cfg arg => exact frame.mono fun t ht => .of_out_eq (by rw [show t = _ from ht.1])
  | ent arg => exact frame.mono fun t ht => .of_out_eq (by rw [show t = _ from ht.1])
  | cwb arg => exact frame.mono fun t ht => .of_out_eq (by rw [show t = _ from ht.1])

/-- A command that is ignored or rejected emits nothing, and fault entry keeps what the pseudocode emitted (R246). -/
theorem exec_emits {i : Instr} {s t : State} (h : exec i s = .next t) (hrst : i ≠ .rst) : Emits (emitLimit i) s t := by
  rcases exec_next_cases h with ⟨_, rfl⟩ | ⟨_, c, u, rfl, ⟨_, _, rfl⟩ | ⟨_, _, rfl⟩ | hraised⟩ | ⟨_, _, hok⟩
  · exact .of_out_eq rfl
  · exact .of_out_eq rfl
  · exact .of_out_eq rfl
  · exact ((pseudocode_emits s hrst).raised hraised : Emits (emitLimit i) s u)
  · exact (pseudocode_emits s hrst).ok hok

/-- Phase `RUN`, `KIND = FIXED`, `FMT = BINARY`, the one codeword `"0"` for 0x61, and a data byte of eight zeros held
with no filler. -/
def eightZerosHeld : State :=
  { State.reset with phase := .run, mode := 3, l := 1, demux := [(0, ⟨true, 0x61⟩)], pvalid := true, holdv := true }

theorem dat_emits_eight :
    exec (.dat 0) eightZerosHeld = .next { eightZerosHeld with out := List.replicate 8 0x61 } := rfl

theorem endBody_emits_eight :
    exec .endBody eightZerosHeld =
      .next { eightZerosHeld with phase := .done, holdv := false, out := List.replicate 8 0x61 } := rfl

/-- Settles O21: the bound from `exec_emits`, and eight one-bit codewords in one byte attain it. -/
theorem atMostEightSymbolsACommand : Obligations.AtMostEightSymbolsACommand := by
  unfold Obligations.AtMostEightSymbolsACommand
  refine ⟨fun i s t h hrst => ⟨?_, fun hdat hend => ?_⟩, ⟨_, _, _, dat_emits_eight, rfl⟩,
    ⟨_, _, endBody_emits_eight, rfl⟩⟩
  · have hlen := (exec_emits h hrst).length_le
    have hlimit := emitLimit_le i
    omega
  · have hsilent := exec_emits h hrst
    rw [emitLimit_eq_zero hdat hend] at hsilent
    exact hsilent.out_eq

end Sys2Proof.Machine
end

section
/-! PROOF. The filler bits of the last byte (spec/20_memory.md R58; spec/42_body_stream.md R148, R149): a decoder reads
of its byte only the usable bits, and of the state it does not read `HOLD`, so what `END` does with two held bytes
that have the same usable bits differs in nothing but `HOLD`. -/

namespace Sys2Proof.Machine

/-! ### A decoder reads the usable bits of its byte -/

theorem usableBits_eq_iff {B B' : Byte} {u : Nat} :
    usableBits B u = usableBits B' u ↔ ∀ i < u, B.getLsbD (7 - i) = B'.getLsbD (7 - i) := by
  unfold usableBits
  rw [List.map_inj_left]
  simp only [List.mem_range]

theorem getLsbD_bitField (B : Byte) (pos t i : Nat) :
    (bitField B pos t).getLsbD i = (decide (i < 8) && (decide (i < t) && B.getLsbD (8 - pos - t + i))) := by
  rw [bitField, BitVec.getLsbD_ofNat, Nat.testBit_mod_two_pow, Nat.testBit_shiftRight, BitVec.getLsbD]

/-- A field within the usable bits is a function of them. -/
theorem bitField_congr {B B' : Byte} {u pos t : Nat} (h : usableBits B u = usableBits B' u) (hu : u ≤ 8)
    (ht : pos + t ≤ u) : bitField B pos t = bitField B' pos t := by
  apply BitVec.eq_of_getLsbD_eq
  intro i _
  rw [getLsbD_bitField, getLsbD_bitField]
  by_cases hi : i < t
  · have hbit := usableBits_eq_iff.1 h (pos + t - 1 - i) (by omega)
    rw [show 7 - (pos + t - 1 - i) = 8 - pos - t + i by omega] at hbit
    rw [hbit]
  · simp [hi]

theorem fbyteLoop_congr {B B' : Byte} {u : Nat} (h : usableBits B u = usableBits B' u) (hu : u ≤ 8) (fuel pos : Nat)
    (s : State) : fbyteLoop B u fuel pos s = fbyteLoop B' u fuel pos s := by
  induction fuel generalizing pos s with
  | zero => unfold fbyteLoop; rfl
  | succ fuel ih =>
    unfold fbyteLoop
    split
    · dsimp only
      split
      · rw [bitField_congr h hu (t := min (s.l.toNat - s.ccnt.toNat) (u - pos)) (by omega)]
        simp only [ih]
      · split
        · rw [bitField_congr h hu (t := s.l.toNat) (by omega)]
          simp only [ih]
        · rw [bitField_congr h hu (t := u - pos) (by omega)]
    · rfl

/-- `BYTE` is a function of the usable bits (R147). -/
theorem byteStep_congr {B B' : Byte} {u : Nat} (h : usableBits B u = usableBits B' u) (hu : u ≤ 8) (s : State) :
    byteStep B u s = byteStep B' u s := by
  unfold byteStep
  split
  · rw [h]
  · exact fbyteLoop_congr h hu u 0 s

/-! ### A decoder does not read `HOLD` -/

/-- The state with another value in `HOLD`. -/
def State.setHold (byte : Byte) (s : State) : State := { s with hold := byte }

/-- The same result, with another value in `HOLD` of the state it ends in. -/
def Result.setHold {α : Type} (byte : Byte) (r : Result α) : Result α :=
  match r with
  | .ok a s => .ok a (s.setHold byte)
  | .raised c s => .raised c (s.setHold byte)
  | .stop g => .stop g

section

variable {α β : Type} {byte : Byte}

/-- A sequence does not read `HOLD` when neither of its pieces does. -/
theorem Result.bind_setHold {r r' : Result α} {f f' : α → State → Result β} (hr : r' = r.setHold byte)
    (hf : ∀ a t, f' a (t.setHold byte) = (f a t).setHold byte) : r'.bind f' = (r.bind f).setHold byte := by
  subst hr
  cases r with
  | ok a t => exact hf a t
  | raised c t => rfl
  | stop g => rfl

/-- A choice does not read `HOLD` when neither the condition nor a branch does. -/
theorem Result.ite_setHold {c : Prop} [Decidable c] {r r' q q' : Result α} (hr : r' = r.setHold byte)
    (hq : q' = q.setHold byte) : (if c then r' else q') = (if c then r else q).setHold byte := by
  rw [hr, hq, apply_ite (Result.setHold byte)]

theorem Result.ofExcept_setHold (e : Except Fault α) (s : State) :
    Result.ofExcept e (s.setHold byte) = (Result.ofExcept e s).setHold byte := by
  cases e <;> rfl

theorem forEach_setHold {f : α → State → Result Unit} (hf : ∀ a s, f a (s.setHold byte) = (f a s).setHold byte)
    (l : List α) (s : State) : forEach f l (s.setHold byte) = (forEach f l s).setHold byte := by
  induction l generalizing s with
  | nil => rfl
  | cons a rest ih => exact Result.bind_setHold (hf a s) fun _ t => ih t

end

theorem pstep_setHold (byte : Byte) (b : Bool) (s : State) : pstep b (s.setHold byte) = (pstep b s).setHold byte := by
  refine Result.bind_setHold (Result.ofExcept_setHold _ s) fun n t => ?_
  cases n.child b with
  | none => rfl
  | some k => exact Result.bind_setHold (Result.ofExcept_setHold _ t) fun m u => Result.ite_setHold rfl rfl

theorem lookupSymbol_setHold (byte v : Byte) (s : State) :
    lookupSymbol v (s.setHold byte) = (lookupSymbol v s).setHold byte :=
  Result.bind_setHold (Result.ofExcept_setHold _ s) fun _ _ => Result.ite_setHold rfl rfl

theorem completeCarry_setHold (byte : Byte) (s : State) :
    completeCarry (s.setHold byte) = (completeCarry s).setHold byte :=
  Result.ite_setHold (lookupSymbol_setHold byte s.carry { s with carry := 0, ccnt := 0 }) rfl

/-- Bits shifted into the carry register, and the lookup of a codeword they complete. -/
theorem completeCarry_shifted_setHold (byte : Byte) (s : State) (carry : Byte) (ccnt : BitVec 4) :
    completeCarry { s.setHold byte with carry := carry, ccnt := ccnt } =
      (completeCarry { s with carry := carry, ccnt := ccnt }).setHold byte :=
  completeCarry_setHold byte { s with carry := carry, ccnt := ccnt }

theorem fbyteLoop_setHold (byte B : Byte) (u fuel pos : Nat) (s : State) :
    fbyteLoop B u fuel pos (s.setHold byte) = (fbyteLoop B u fuel pos s).setHold byte := by
  induction fuel generalizing pos s with
  | zero =>
    unfold fbyteLoop
    exact Result.ite_setHold rfl rfl
  | succ fuel ih =>
    unfold fbyteLoop
    refine Result.ite_setHold (Result.ite_setHold ?_ (Result.ite_setHold ?_ rfl)) rfl
    · exact Result.bind_setHold (completeCarry_shifted_setHold byte s _ _) fun _ t => ih _ t
    · exact Result.bind_setHold (lookupSymbol_setHold byte _ s) fun _ t => ih _ t

/-- `BYTE` decodes its operand, not the held byte (R147). -/
theorem byteStep_setHold (byte B : Byte) (u : Nat) (s : State) :
    byteStep B u (s.setHold byte) = (byteStep B u s).setHold byte := by
  unfold byteStep
  rw [show (s.setHold byte).kind = s.kind from rfl]
  cases s.kind
  · exact forEach_setHold (pstep_setHold byte) (usableBits B u) s
  · exact fbyteLoop_setHold byte B u u 0 s

/-! ### `END` -/

/-- With the same usable bits in the last byte (R148), `END` does the same up to its end checks. -/
theorem lastByte_setHold {byte : Byte} {s : State}
    (h : usableBits byte (8 - s.p.toNat) = usableBits s.hold (8 - s.p.toNat)) :
    lastByte (s.setHold byte) = (lastByte s).setHold byte := by
  unfold lastByte
  rw [show (s.setHold byte).fmt = s.fmt from rfl]
  cases s.fmt with
  | text => rfl
  | binary =>
    refine Result.ite_setHold rfl (Result.ite_setHold (Result.ite_setHold rfl rfl) ?_)
    refine Result.bind_setHold ?_ fun _ _ => rfl
    exact (byteStep_congr h (Nat.sub_le 8 s.p.toNat) _).trans (byteStep_setHold byte s.hold _ s)

theorem endBodyBody_setHold {byte : Byte} {s : State}
    (h : usableBits byte (8 - s.p.toNat) = usableBits s.hold (8 - s.p.toNat)) :
    endBodyBody (s.setHold byte) = (endBodyBody s).setHold byte := by
  refine Result.bind_setHold (lastByte_setHold h) fun _ t => ?_
  rw [show (t.setHold byte).endCheck = t.endCheck from rfl]
  cases t.endCheck <;> rfl

/-- The host does not see `HOLD` (R17, R47), and fault entry does not keep it (R246). -/
theorem observed_finish_setHold (byte : Byte) (r : Result Unit) :
    observed (r.setHold byte).finish = observed r.finish := by
  cases r <;> rfl

theorem exec_endBody {s : State} (h : s.phase = .run) : exec .endBody s = (endBodyBody s).finish :=
  exec_legal (i := .endBody) (by simp [h]) rfl (by simp [h, Instr.opcode, legalIn])

/-- Settles O47: bits 7 down to `P` are the `8 − P` usable bits (R148). -/
theorem fillerBitsAreNotLookedAt : Obligations.FillerBitsAreNotLookedAt := by
  unfold Obligations.FillerBitsAreNotLookedAt
  intro s byte hrun _ hbits
  have husable : usableBits byte (8 - s.p.toNat) = usableBits s.hold (8 - s.p.toNat) :=
    usableBits_eq_iff.2 fun i hi => hbits (7 - i) (by omega) (by omega)
  calc observed (exec .endBody (s.setHold byte))
      = observed (endBodyBody (s.setHold byte)).finish := by rw [exec_endBody (s := s.setHold byte) hrun]
    _ = observed (exec .endBody s) := by
      rw [endBodyBody_setHold husable, observed_finish_setHold, exec_endBody hrun]

end Sys2Proof.Machine
end

section
/-! PROOF. The decoder and the encoder (spec/30_encoding.md R71 to R76): a word is its two bytes, and it decodes to an
instruction exactly when it is the word of that instruction and the instruction is well formed. -/

namespace Sys2Proof.Machine

/-! ### A word is its two bytes -/

@[simp] theorem op_append (op arg : Byte) : Word.op (op ++ arg) = op := BitVec.extractLsb'_append_eq_left

@[simp] theorem arg_append (op arg : Byte) : Word.arg (op ++ arg) = arg := BitVec.extractLsb'_append_eq_right

theorem op_append_arg (w : Word) : Word.op w ++ Word.arg w = w := BitVec.extractLsb'_append_extractLsb' (w := 8)

theorem eq_append_iff {w : Word} {op arg : Byte} : op ++ arg = w ↔ Word.op w = op ∧ Word.arg w = arg := by
  constructor
  · rintro rfl
    exact ⟨op_append op arg, arg_append op arg⟩
  · rintro ⟨rfl, rfl⟩
    exact op_append_arg w

theorem op_and (w v : Word) : Word.op (w &&& v) = Word.op w &&& Word.op v := BitVec.extractLsb'_and

theorem arg_and (w v : Word) : Word.arg (w &&& v) = Word.arg w &&& Word.arg v := BitVec.extractLsb'_and

/-! ### Opcodes and their operands -/

@[simp] theorem ofCode_code (op : Opcode) : Opcode.ofCode op.code = some op := by cases op <;> rfl

/-- Each opcode has one code byte. -/
theorem ofCode_eq_some {b : Byte} {op : Opcode} : Opcode.ofCode b = some op ↔ b = op.code := by
  refine ⟨fun h => ?_, fun h => by rw [h, ofCode_code]⟩
  unfold Opcode.ofCode at h
  split at h <;> cases h
  all_goals exact BitVec.eq_of_toNat_eq ‹_›

/-- The bytes above 0x07 are no opcode (R75). -/
theorem ofCode_eq_none {b : Byte} (h : 7 < b.toNat) : Opcode.ofCode b = none := by
  rw [Option.eq_none_iff_forall_ne_some]
  intro op hop
  rw [ofCode_eq_some.1 hop] at h
  cases op <;> exact absurd h (by decide)

@[simp] theorem toInstr_opcode (op : Opcode) (arg : Byte) : (op.toInstr arg).opcode = op := by cases op <;> rfl

/-- An instruction is the one of its opcode and its operand. -/
@[simp] theorem opcode_toInstr_arg (i : Instr) : i.opcode.toInstr i.arg = i := by cases i <;> rfl

/-- An opcode without an operand has all its operand bits reserved (R72), so that nothing is lost with them. -/
theorem toInstr_arg {op : Opcode} {arg : Byte} (h : op.reservedClear arg = true) : (op.toInstr arg).arg = arg := by
  have wholeByte (hzero : arg &&& BitVec.allOnes 8 = 0) : 0 = arg := by
    rw [← hzero, BitVec.and_allOnes]
  simp only [Opcode.reservedClear, beq_iff_eq] at h
  cases op with
  | nop => exact wholeByte h
  | rst => exact wholeByte h
  | bld => exact wholeByte h
  | endBody => exact wholeByte h
  | cfg => rfl
  | ent => rfl
  | cwb => rfl
  | dat => rfl

/-! ### Decoding by the two bytes -/

/-- A word with an undefined opcode (R75). -/
theorem decode_undefined {w : Word} (h : 7 < (Word.op w).toNat) : decode w = .error .undefinedOpcode := by
  simp only [decode, ofCode_eq_none h]

/-- A word with a defined opcode spells a command unless a reserved bit is set (R76). -/
theorem decode_defined {w : Word} {op : Opcode} (h : Word.op w = op.code) :
    decode w = if op.reservedClear (Word.arg w) then .ok (op.toInstr (Word.arg w)) else .error .reservedBits := by
  simp only [decode, h, ofCode_code]

theorem decode_reserved {w : Word} {op : Opcode} (hop : Word.op w = op.code)
    (harg : op.reservedClear (Word.arg w) = false) : decode w = .error .reservedBits := by
  rw [decode_defined hop, harg]
  rfl

/-- A word decodes to the instruction of its two bytes, and only where no reserved bit is set (R73, R76). -/
theorem decode_eq_ok {w : Word} {i : Instr} :
    decode w = .ok i ↔ ∃ op : Opcode, Word.op w = op.code ∧ op.reservedClear (Word.arg w) = true ∧
      i = op.toInstr (Word.arg w) := by
  constructor
  · intro h
    cases hop : Opcode.ofCode (Word.op w) with
    | none => simp [decode, hop] at h
    | some op =>
      have hcode := ofCode_eq_some.1 hop
      rw [decode_defined hcode] at h
      split at h
      · next hclear => cases h; exact ⟨op, hcode, hclear, rfl⟩
      · cases h
  · rintro ⟨op, hcode, hclear, rfl⟩
    rw [decode_defined hcode, if_pos hclear]

/-- THE TWO DIRECTIONS OF THE ROUND TRIP: the words that decode to an instruction are its one encoding, where it is well
formed, and none where it is not. -/
theorem decode_eq_ok_iff_encode {w : Word} {i : Instr} : decode w = .ok i ↔ i.wellFormed = true ∧ encode i = w := by
  rw [decode_eq_ok, encode, eq_append_iff]
  constructor
  · rintro ⟨op, hcode, hclear, rfl⟩
    rw [Instr.wellFormed, toInstr_opcode, toInstr_arg hclear]
    exact ⟨hclear, hcode, rfl⟩
  · rintro ⟨hwf, hcode, harg⟩
    exact ⟨i.opcode, hcode, harg ▸ hwf, by rw [harg, opcode_toInstr_arg]⟩

/-- Settles O9. -/
theorem decodeOfEncodeIsTheInstruction : Obligations.DecodeOfEncodeIsTheInstruction := by
  unfold Obligations.DecodeOfEncodeIsTheInstruction
  exact fun i hwf => decode_eq_ok_iff_encode.2 ⟨hwf, rfl⟩

/-- Settles O10. -/
theorem encodeOfDecodeIsTheWord : Obligations.EncodeOfDecodeIsTheWord := by
  unfold Obligations.EncodeOfDecodeIsTheWord
  exact fun w i h => decode_eq_ok_iff_encode.1 h

/-- Settles O11: eleven fixed words, each evaluated by the decoder. -/
theorem workedWordsDecode : Obligations.WorkedWordsDecode := by
  unfold Obligations.WorkedWordsDecode
  decide

/-! ### The opcode map -/

/-- The row of R73 for an opcode: its code and zeros to match, under a mask of the code and the reserved bits. -/
def rowOf (op : Opcode) : OpcodeRow := ⟨op, op.code ++ 0#8, BitVec.allOnes 8 ++ op.reservedMask⟩

/-- The opcode map holds one row for each opcode. -/
theorem mem_opcodeMap {r : OpcodeRow} : r ∈ opcodeMap ↔ ∃ op, r = rowOf op := by
  constructor
  · intro h
    have rows : ∀ r ∈ opcodeMap, r = rowOf r.opcode := by decide
    exact ⟨r.opcode, rows r h⟩
  · rintro ⟨op, rfl⟩
    cases op <;> decide

/-- A word matches the row of an opcode exactly when it has its code and none of its reserved bits is set. -/
theorem and_mask_eq_value {w : Word} {op : Opcode} :
    w &&& (rowOf op).mask = (rowOf op).value ↔ Word.op w = op.code ∧ op.reservedClear (Word.arg w) = true := by
  rw [eq_comm, rowOf, eq_append_iff, op_and, arg_and, op_append, arg_append, BitVec.and_allOnes,
    Opcode.reservedClear, beq_iff_eq]
  rfl

/-- Settles O8: both sides say that the word has the code of `op` and none of its reserved bits set. -/
theorem decodeFollowsOpcodeMap : Obligations.DecodeFollowsOpcodeMap := by
  unfold Obligations.DecodeFollowsOpcodeMap
  refine fun w => ⟨fun op => ⟨?_, ?_⟩, fun i h => ?_⟩
  · rintro ⟨i, h, rfl⟩
    obtain ⟨op, hcode, hclear, rfl⟩ := decode_eq_ok.1 h
    exact ⟨rowOf op, mem_opcodeMap.2 ⟨op, rfl⟩, (toInstr_opcode op _).symm, and_mask_eq_value.2 ⟨hcode, hclear⟩⟩
  · rintro ⟨r, hr, rfl, hmatch⟩
    obtain ⟨op, rfl⟩ := mem_opcodeMap.1 hr
    obtain ⟨hcode, hclear⟩ := and_mask_eq_value.1 hmatch
    exact ⟨_, decode_eq_ok.2 ⟨op, hcode, hclear, rfl⟩, toInstr_opcode op _⟩
  · obtain ⟨op, _, hclear, rfl⟩ := decode_eq_ok.1 h
    exact toInstr_arg hclear

end Sys2Proof.Machine
end

section
/-! PROOF. Words that spell no command and commands that are not legal (spec/30_encoding.md R72, R75, R76, R80, R81): what
the step answers for a word that does not decode, which operand bits are reserved, and the legality table. -/

namespace Sys2Proof.Machine

/-! ### Rejected words -/

/-- Fault entry keeps the symbols and what the host has presented (R246). -/
theorem enterFault_faultsWith (c : Cause) (s : State) : FaultsWith (.next (s.enterFault c)) c.code s.out s :=
  ⟨_, rfl, rfl, rfl, rfl, rfl⟩

/-- Outside phase `FAULT` the step that takes a word that spells no command is a fault entry (R74, R246). -/
theorem step_faults_of_decode_error {s : State} {w : Word} {rest : List HostInput} {e : DecodeError}
    (hdec : decode w = .error e) (hf : s.phase ≠ .fault) (hin : s.input = .word w :: rest) :
    FaultsWith (step s) (decodeCause e).code s.out { s with input := rest } := by
  rw [step_word hin, runWord_error hdec, rejectWord, if_neg hf]
  exact enterFault_faultsWith (decodeCause e) { s with input := rest }

/-- Settles O12: the decoder has no command for such an opcode, whatever the operand. -/
theorem undefinedOpcodeRaises30 : Obligations.UndefinedOpcodeRaises30 := by
  unfold Obligations.UndefinedOpcodeRaises30
  intro s w rest hop
  have hdec := decode_undefined hop
  exact ⟨fun i h => (nomatch hdec.symm.trans h), step_faults_of_decode_error hdec⟩

/-! ### Reserved operand bits (R72) -/

theorem reservedClear_whole {op : Opcode} {arg : Byte} (h : op.reservedMask = BitVec.allOnes 8) :
    op.reservedClear arg = true ↔ arg = 0 := by
  rw [Opcode.reservedClear, beq_iff_eq, h, BitVec.and_allOnes]

theorem reservedClear_cfg (arg : Byte) : Opcode.cfg.reservedClear arg = true ↔ arg.extractLsb' 2 6 = 0 := by
  revert arg; decide

theorem reservedClear_cwb (arg : Byte) : Opcode.cwb.reservedClear arg = true ↔ arg.extractLsb' 1 7 = 0 := by
  revert arg; decide

/-- Settles O13: each of the words has a defined opcode and a reserved operand bit set. -/
theorem reservedBitRaises31 : Obligations.ReservedBitRaises31 := by
  unfold Obligations.ReservedBitRaises31
  intro s w rest hw
  suffices h : ∃ op : Opcode, Word.op w = op.code ∧ ¬ op.reservedClear (Word.arg w) = true by
    obtain ⟨op, hop, hset⟩ := h
    exact step_faults_of_decode_error (decode_reserved hop (Bool.eq_false_of_not_eq_true hset))
  rcases hw with ⟨hop, harg⟩ | ⟨hop, harg⟩ | ⟨hop, harg⟩
  · have whole (op : Opcode) (hcode : Word.op w = op.code) (hmask : op.reservedMask = BitVec.allOnes 8) :
        ∃ op : Opcode, Word.op w = op.code ∧ ¬ op.reservedClear (Word.arg w) = true :=
      ⟨op, hcode, mt (reservedClear_whole hmask).1 harg⟩
    simp only [List.mem_cons, List.not_mem_nil, or_false] at hop
    rcases hop with hop | hop | hop | hop
    · exact whole .nop hop rfl
    · exact whole .rst hop rfl
    · exact whole .bld hop rfl
    · exact whole .endBody hop rfl
  · refine ⟨.cfg, hop, mt (reservedClear_cfg _).1 ?_⟩
    rwa [Word.arg, BitVec.extractLsb'_extractLsb'_of_le (by decide)]
  · refine ⟨.cwb, hop, mt (reservedClear_cwb _).1 ?_⟩
    rwa [Word.arg, BitVec.extractLsb'_extractLsb'_of_le (by decide)]

/-! ### Phase `FAULT` -/

/-- Settles O15: a word that spells a command spells one other than `RST`, and one that spells none is not rejected. -/
theorem faultPhaseIgnoresEveryOtherWord : Obligations.FaultPhaseIgnoresEveryOtherWord := by
  unfold Obligations.FaultPhaseIgnoresEveryOtherWord
  intro s w rest hf hw hin
  rw [step_word hin]
  cases hdec : decode w with
  | ok i =>
    rw [runWord_ok hdec]
    exact exec_in_fault hf fun hi => hw (decode_eq_rst.1 (hi ▸ hdec))
  | error e => rw [runWord_error hdec, rejectWord, if_pos hf]

/-! ### The legality table (R80) -/

/-- The phase check of R74 and the table of R80 agree, entry by entry. -/
theorem mem_okPhases {i : Instr} {p : Phase} :
    p ∈ okPhases i ↔ legalIn i.opcode p = true ∧ (p = .fault → i = .rst) := by
  cases i <;> cases p <;> simp [okPhases, legalIn, Instr.opcode]

/-- A command with no reserved bit set, in a phase in which it is not legal (R74, R80). -/
theorem command_wrongPhase {op : Opcode} {arg : Byte} {body : State → Result Unit} {s : State} (hf : s.phase ≠ .fault)
    (hr : op.reservedClear arg = true) (hl : legalIn op s.phase = false) :
    command op arg body s = .next (s.enterFault .icWrongPhase) := by
  simp [command, hf, hr, hl]

theorem exec_wrongPhase {i : Instr} {s : State} (hf : s.phase ≠ .fault) (hw : i.wellFormed = true)
    (hl : legalIn i.opcode s.phase = false) : exec i s = .next (s.enterFault .icWrongPhase) := by
  rw [exec_eq_command, command_wrongPhase hf hw hl]

/-- The pseudocode of a command does not ask for the phase: it raises no 0x32. -/
theorem code_ne_wrongPhase {i : Instr} {c : Cause} (h : c ∈ raisedBy i) : c.code ≠ 0x32 := by
  have key : ∀ c ∈ raisedBy i, c.code ≠ 0x32 := by cases i <;> simp only [raisedBy] <;> decide
  exact key c h

/-- Where the table says that a command is executed, it moves to the phase of the table or raises a fault other than
0x32 (R80). -/
theorem exec_ok_phase {i : Instr} {s t : State} (hw : i.wellFormed = true) (hp : s.phase ∈ okPhases i)
    (h : exec i s = .next t) : t.phase = phaseAfter i s.phase ∨ (t.phase = .fault ∧ t.cause ≠ 0x32) := by
  obtain ⟨hlegal, hfault⟩ := mem_okPhases.1 hp
  by_cases hrst : i = .rst
  · subst hrst
    rw [exec_rst] at h
    cases h
    exact .inl rfl
  · rcases exec_next_cases h with ⟨hf, _⟩ | ⟨_, c, u, rfl, hc⟩ | ⟨_, _, hok⟩
    · exact absurd (hfault hf) hrst
    · refine .inr ⟨rfl, ?_⟩
      rcases hc with ⟨_, hres, _⟩ | ⟨_, hill, _⟩ | hraised
      · exact absurd hw (Bool.eq_false_iff.1 hres)
      · exact absurd hlegal (Bool.eq_false_iff.1 hill)
      · exact code_ne_wrongPhase ((pseudocode_within i s).of_raised hraised).1
    · exact .inl (pseudocode_ok_phase hok hrst).1

/-- `CWB` with no entry open (R80, R112). -/
theorem exec_cwb_empty {arg : Byte} {s : State} (hw : (Instr.cwb arg).wellFormed = true) (hp : s.phase = .load)
    (hn : s.nent = 0) : exec (.cwb arg) s = .next (s.enterFault .icNoOpenEntry) := by
  rw [exec_legal (by rw [hp]; decide) hw (by rw [hp]; rfl), pseudocode, cwbBody_empty hn, Result.finish_raised]

/-- Settles O14, clause by clause. -/
theorem legalityTable : Obligations.LegalityTable := by
  unfold Obligations.LegalityTable
  intro i s hw
  refine ⟨fun hf hp => ?_, exec_in_fault, fun t => exec_ok_phase hw, ?_⟩
  · have hl : legalIn i.opcode s.phase = false :=
      Bool.eq_false_iff.2 fun hl => hp (mem_okPhases.2 ⟨hl, fun h => absurd h hf⟩)
    rw [exec_wrongPhase hf hw hl]
    exact enterFault_faultsWith .icWrongPhase s
  · rintro a rfl hp hn
    rw [exec_cwb_empty hw hp hn]
    exact enterFault_faultsWith .icNoOpenEntry s

end Sys2Proof.Machine
end

section
/-! PROOF. Loading one entry (spec/30_encoding.md R86; spec/41_table_build.md R111, R112): `ENT` appends an entry with an
empty codeword, and each `CWB` after it appends one bit to the codeword of the last entry, whatever the table holds. -/

namespace Sys2Proof.Machine

/-- A command that answers a next state hands it to the commands after it. -/
theorem runCommands_cons {i : Instr} {rest : List Instr} {s t : State} (h : exec i s = .next t) :
    runCommands (i :: rest) s = runCommands rest t := by
  simp only [runCommands, h]

/-- `CWB b` (R88): the operand is the bit, and no reserved bit is set. -/
theorem cwb_wellFormed (b : Bool) : (Instr.cwb (if b then 1 else 0)).wellFormed = true := by cases b <;> decide

theorem argBit_cwb (b : Bool) : argBit (if b then 1 else 0) = b := by cases b <;> decide

/-- `ENT` in phase `LOAD` with room (R111). -/
theorem exec_ent_room {sym : Sym} {s : State} (hp : s.phase = .load) (hn : s.nent.toNat < 256) :
    exec (.ent sym) s =
      .next { s with nent := s.nent + 1, ct := Memory.put ctSpace s.ct s.nent.toNat ⟨sym, []⟩ } := by
  have hwf : (Instr.ent sym).wellFormed = true := by
    simp [Instr.wellFormed, Instr.opcode, Opcode.reservedClear, Opcode.reservedMask]
  rw [exec_legal (by rw [hp]; decide) hwf (by rw [hp]; rfl), pseudocode, entBody_room hn, Result.finish_ok]

/-- `CWB` in phase `LOAD` writes the last entry of the table over with its codeword one bit longer (R112). -/
theorem exec_cwb_last {s : State} {table : List CodeEntry} {e : CodeEntry} (b : Bool) (hp : s.phase = .load)
    (hn : s.nent.toNat ≤ 256) (htab : s.table = .ok (table ++ [e])) (hlen : e.code.length < 255) :
    ∃ t, exec (.cwb (if b then 1 else 0)) s = .next t ∧ t = { s with ct := t.ct } ∧
      t.table = .ok (table ++ [⟨e.sym, e.code ++ [b]⟩]) := by
  obtain ⟨hcount, hread⟩ := State.table_eq_ok.1 htab
  rw [List.length_append, List.length_singleton] at hcount
  have hlast : s.nent.toNat - 1 = table.length := by omega
  have hopen : s.nent ≠ 0 := fun h => by simp [h] at hcount
  have he : Memory.read ctSpace s.ct (s.nent.toNat - 1) = .ok e := by
    rw [hlast, hread _ (by simp), List.getElem_concat_length rfl]
  have hshort : ¬ e.len = 255 := Nat.ne_of_lt hlen
  refine ⟨{ s with ct := Memory.put ctSpace s.ct (s.nent.toNat - 1) ⟨e.sym, e.code ++ [b]⟩ }, ?_, rfl, ?_⟩
  · rw [exec_legal (by rw [hp]; decide) (cwb_wellFormed b) (by rw [hp]; rfl), pseudocode, cwbBody_open hopen hn he,
      if_neg hshort, argBit_cwb, Result.finish_ok]
  · have hset := table_set (e := ⟨e.sym, e.code ++ [b]⟩) htab (i := s.nent.toNat - 1) (by omega)
    rw [hlast, List.set_append_right _ _ (Nat.le_refl _), Nat.sub_self, List.set_cons_zero] at hset
    rw [hlast]
    exact hset

/-- One `CWB` per bit appends the bits to the codeword of the last entry, first bit first (R86). -/
theorem run_cwbs {s : State} {table : List CodeEntry} {sym : Sym} (bits code : Bits) (hp : s.phase = .load)
    (hn : s.nent.toNat ≤ 256) (htab : s.table = .ok (table ++ [⟨sym, code⟩])) (hlen : code.length + bits.length ≤ 255) :
    ∃ t, runCommands (bits.map fun b => .cwb (if b then 1 else 0)) s = .next t ∧
      t.table = .ok (table ++ [⟨sym, code ++ bits⟩]) ∧ t = { s with ct := t.ct } := by
  induction bits generalizing s code with
  | nil => exact ⟨s, rfl, by rw [List.append_nil]; exact htab, rfl⟩
  | cons b rest ih =>
    rw [List.length_cons] at hlen
    obtain ⟨t, hexec, ht, htab'⟩ := exec_cwb_last b hp hn htab (by show code.length < 255; omega)
    obtain ⟨u, hrun, htab'', hu⟩ := ih (s := t) (code ++ [b]) (by rw [ht]; exact hp) (by rw [ht]; exact hn) htab'
      (by rw [List.length_append, List.length_singleton]; omega)
    refine ⟨u, ?_, ?_, by rw [hu, ht]⟩
    · rw [List.map_cons, runCommands_cons hexec, hrun]
    · rw [htab'', List.append_assoc, List.singleton_append]

/-- Settles O27: the bits go to the entry that `ENT` has appended. -/
theorem codeCommandsLoadTheEntry : Obligations.CodeCommandsLoadTheEntry := by
  unfold Obligations.CodeCommandsLoadTheEntry
  intro e s table hp hn htab hlen
  obtain ⟨t, hrun, htab', ht⟩ := run_cwbs (sym := e.sym) e.code [] hp
    (s := { s with nent := s.nent + 1, ct := Memory.put ctSpace s.ct s.nent.toNat ⟨e.sym, []⟩ })
    (by rw [toNat_nent_succ hn]; exact hn) (table_append htab hn) (by simpa using hlen)
  exact ⟨t, by rw [runCommands_cons (exec_ent_room hp hn), hrun], htab', by rw [ht]⟩

end Sys2Proof.Machine
end

section
/-! PROOF. The bit packer (spec/48_host_reference.md R212, R213; spec/30_encoding.md R84): a packed byte holds its bits
from the most significant one down, and the data bytes of a body hold eight bits each but the last one. -/

namespace Sys2Proof.Machine

/-- Bit `i` of a codeword, counted from its first one, is that bit of its value counted from the most significant one. -/
theorem testBit_bitsVal (code : Bits) (i : Nat) (h : i < code.length) :
    (bitsVal code).testBit (code.length - 1 - i) = code[i] := by
  induction code using List.reverseRecOn with
  | nil => simp at h
  | append_singleton code b ih =>
    have hval : bitsVal (code ++ [b]) = Nat.bit b (bitsVal code) := by rw [bitsVal_append, Nat.bit_val]
    rw [List.length_append, List.length_singleton] at h
    simp only [hval, List.length_append, List.length_singleton, Nat.add_sub_cancel]
    rcases Nat.lt_or_eq_of_le (Nat.le_of_lt_succ h) with hlt | rfl
    · rw [show code.length - i = (code.length - 1 - i) + 1 by omega, Nat.testBit_bit_succ, ih hlt,
        List.getElem_append_left hlt]
    · rw [Nat.sub_self, Nat.testBit_bit_zero, List.getElem_concat_length rfl]

/-- A packed byte of at most eight bits gives them back as its usable bits (R57, R212). -/
theorem usableBits_packByte {code : Bits} (h : code.length ≤ 8) : usableBits (packByte code) code.length = code := by
  refine List.ext_getElem (by simp [usableBits]) fun i hi hc => ?_
  have hbit : (packByte code).getLsbD (7 - i) = (bitsVal code).testBit (code.length - 1 - i) := by
    rw [packByte, BitVec.getLsbD_ofNat, Nat.testBit_mul_two_pow,
      show 7 - i - (8 - code.length) = code.length - 1 - i by omega]
    simp [show 7 - i < 8 by omega, show 8 - code.length ≤ 7 - i by omega]
  rw [← testBit_bitsVal code i hc, ← hbit]
  simp [usableBits]

/-- The padding count is less than a byte, and 0 exactly for whole bytes (R84). -/
theorem paddingOf_spec (n : Nat) : paddingOf n ≤ 7 ∧ (paddingOf n = 0 ↔ n % 8 = 0) := by
  unfold paddingOf
  omega

/-- A byte that is not full is filled up (R84). -/
theorem paddingOf_partial {n : Nat} (hpos : 0 < n) (h : n ≤ 7) : paddingOf n = 8 - n := by
  unfold paddingOf
  omega

/-- Whole bytes do not change the padding count. -/
theorem paddingOf_add_eight (n : Nat) : paddingOf (n + 8) = paddingOf n := by
  unfold paddingOf
  omega

/-- A byte with others after it is a whole data byte (R148, R152). -/
theorem dataBits_cons {pad : Nat} {B : Byte} {data : List Byte} (h : data ≠ [] ∨ pad = 0) :
    dataBits pad (B :: data) = usableBits B 8 ++ dataBits pad data := by
  cases data with
  | nil => rw [h.resolve_left (by simp)]; rfl
  | cons B' rest => rfl

/-- THE PACKER'S LOOP: from the bits accumulated so far, fewer than eight, the bytes hold these and the bits to come. -/
theorem packFrom_spec (acc bits : Bits) (h : acc.length ≤ 7) :
    acc.length + bits.length + paddingOf (acc.length + bits.length) = 8 * (packFrom acc bits).length ∧
      dataBits (paddingOf (acc.length + bits.length)) (packFrom acc bits) = acc ++ bits := by
  fun_induction packFrom acc bits with
  | case1 => exact ⟨rfl, rfl⟩
  | case2 acc hne =>
    have hpos : 0 < acc.length := List.length_pos_iff.2 fun hnil => hne hnil
    rw [List.length_nil, Nat.add_zero, List.append_nil, paddingOf_partial hpos h]
    refine ⟨?_, ?_⟩
    · rw [List.length_singleton]
      omega
    · rw [dataBits, Nat.sub_sub_self (by omega), usableBits_packByte (by omega)]
  | case3 acc b rest hfull ih =>
    obtain ⟨hcount, hbits⟩ := ih (Nat.zero_le 7)
    rw [List.length_nil, Nat.zero_add] at hcount hbits
    have hn : acc.length + (b :: rest).length = rest.length + 8 := by rw [List.length_cons]; omega
    have hlast : packFrom [] rest ≠ [] ∨ paddingOf rest.length = 0 := by
      by_cases hnil : packFrom [] rest = []
      · rw [hnil, List.length_nil] at hcount
        exact .inr (by omega)
      · exact .inl hnil
    have hbyte : usableBits (packByte (acc ++ [b])) 8 = acc ++ [b] := by
      have hlen : (acc ++ [b]).length = 8 := by rw [List.length_append, hfull, List.length_singleton]
      rw [← hlen, usableBits_packByte hlen.le]
    rw [hn, paddingOf_add_eight]
    refine ⟨?_, ?_⟩
    · rw [List.length_cons]
      omega
    · rw [dataBits_cons hlast, hbyte, hbits, List.nil_append, List.append_assoc, List.singleton_append]
  | case4 acc b rest hroom ih =>
    have hlen : (acc ++ [b]).length = acc.length + 1 := by rw [List.length_append, List.length_singleton]
    have hn : acc.length + (b :: rest).length = (acc ++ [b]).length + rest.length := by
      rw [hlen, List.length_cons]
      omega
    rw [hn, List.append_cons acc b rest]
    exact ih (by omega)

/-- Settles O54: the packer starts with no bit accumulated. -/
theorem binaryBodyHoldsItsBits : Obligations.BinaryBodyHoldsItsBits := by
  unfold Obligations.BinaryBodyHoldsItsBits
  intro bits
  obtain ⟨hle, hzero⟩ := paddingOf_spec bits.length
  obtain ⟨hcount, hbits⟩ := packFrom_spec [] bits (Nat.zero_le 7)
  rw [List.length_nil, Nat.zero_add] at hcount hbits
  have hpad : (BitVec.ofNat 8 (paddingOf bits.length)).toNat = paddingOf bits.length := by
    rw [BitVec.toNat_ofNat]
    omega
  exact ⟨_, _, rfl, by rw [hpad]; exact hle, by rw [hpad]; exact hzero, by rw [hpad]; exact hcount,
    by rw [hpad]; exact hbits⟩

end Sys2Proof.Machine
end

section
/-! PROOF. The control commands `NOP` and `CFG` (spec/40_control.md R101, R103): what each does where it is legal, the
faults of `CFG`, and a word as the sum of its opcode part and its operand. -/

namespace Sys2Proof.Machine

/-- A command with a reserved operand bit set, outside phase `FAULT` (R74, R76): the bit is asked for before the phase
(R245). -/
theorem command_reserved {op : Opcode} {arg : Byte} {body : State → Result Unit} {s : State} (hf : s.phase ≠ .fault)
    (hr : op.reservedClear arg = false) : command op arg body s = .next (s.enterFault .icReservedBits) := by
  simp [command, hf, hr]

theorem exec_reserved {i : Instr} {s : State} (hf : s.phase ≠ .fault) (hw : i.wellFormed = false) :
    exec i s = .next (s.enterFault .icReservedBits) := by
  rw [exec_eq_command, command_reserved hf hw]

/-- `NOP` in every phase: ignored in `FAULT` (R81), no effect in the others. -/
theorem exec_nop (s : State) : exec .nop s = .next s := by
  by_cases hf : s.phase = .fault
  · exact exec_in_fault hf nofun
  · exact exec_legal (i := .nop) hf rfl rfl

/-- Settles O23: a word with opcode 0x00 and a non-zero operand has a reserved bit set (R76). -/
theorem nopChangesNothing : Obligations.NopChangesNothing := by
  unfold Obligations.NopChangesNothing
  refine ⟨by decide, exec_nop, fun s w rest hop harg => reservedBitRaises31 s w rest (.inl ⟨?_, harg⟩)⟩
  rw [hop]
  exact List.mem_cons_self

/-- A word is its opcode in bits 15:8 plus its operand (R71, R88). -/
theorem append_eq_add (op arg : Byte) : op ++ arg = (op ++ 0#8) + arg.setWidth 16 := by
  have hop := op.isLt
  have harg := arg.isLt
  apply BitVec.eq_of_toNat_eq
  rw [BitVec.toNat_append, ← Nat.shiftLeft_add_eq_or_of_lt harg, BitVec.toNat_add, BitVec.toNat_append,
    BitVec.toNat_setWidth, Nat.shiftLeft_eq]
  simp only [BitVec.toNat_ofNat, Nat.zero_mod, Nat.or_zero]
  omega

theorem encode_cfg (arg : Byte) : encode (.cfg arg) = 0x0200 + arg.setWidth 16 := append_eq_add 0x02 arg

/-- `CFG` in phase `IDLE` (R103). -/
theorem exec_cfg {arg : Byte} {s : State} (hw : (Instr.cfg arg).wellFormed = true) (hp : s.phase = .idle) :
    exec (.cfg arg) s = .next { s with mode := argMode arg, phase := .load } :=
  exec_legal (i := .cfg arg) (by rw [hp]; decide) hw (by rw [hp]; rfl)

/-- Settles O24: `CFG arg` is well formed exactly when `arg[7:2]` is 0 (R72), and legal in phase `IDLE` alone (R80). -/
theorem cfgSelectsModeAndOpensTable : Obligations.CfgSelectsModeAndOpensTable := by
  unfold Obligations.CfgSelectsModeAndOpensTable
  intro arg s
  have hwf : (Instr.cfg arg).wellFormed = true ↔ arg.extractLsb' 2 6 = 0 := reservedClear_cfg arg
  refine ⟨fun h => ?_, fun h => exec_cfg (hwf.2 h), fun h hf => ?_, fun h hf hidle => ?_⟩
  · exact decode_eq_ok_iff_encode.2 ⟨hwf.2 h, encode_cfg arg⟩
  · rw [exec_reserved hf (Bool.eq_false_of_not_eq_true (mt hwf.1 h))]
    exact enterFault_faultsWith .icReservedBits s
  · rw [exec_wrongPhase hf (hwf.2 h) (decide_eq_false hidle)]
    exact enterFault_faultsWith .icWrongPhase s

end Sys2Proof.Machine
end

section
/-! PROOF. What `BLD` refuses (spec/41_table_build.md R114 to R121; spec/60_exceptions.md R245): which cause it raises for
which table, and that with `KIND = PREFIX` neither 0x16 nor the trie depends on the order of the table (R120). -/

namespace Sys2Proof.Machine

/-- A raise of `BLD` is a fault entry that keeps the symbols and what the host has presented, however far the build has
gone (R45, R246). -/
theorem exec_bld_faultsWith {s u : State} {c : Cause} (hp : s.phase = .load) (h : bldBody s = .raised c u) :
    FaultsWith (exec .bld s) c.code s.out s := by
  obtain ⟨-, ⟨hframe, -, -⟩, -⟩ := (bldBody_within s).of_raised h
  rw [exec_bld hp, h]
  exact ⟨_, rfl, rfl, rfl, by rw [hframe]; rfl, by rw [hframe]; rfl⟩

/-! ### The table that 0x16 refuses -/

/-- A table is `PrefixFree` unless the codeword of one entry begins with that of an entry at another place (R117). -/
theorem not_prefixFree_iff {table : List CodeEntry} :
    ¬ PrefixFree table ↔
      ∃ (i j : Nat) (a b : CodeEntry), i ≠ j ∧ table[i]? = some a ∧ table[j]? = some b ∧ a.code <+: b.code := by
  unfold PrefixFree
  rw [List.pairwise_iff_getElem]
  constructor
  · intro h
    by_contra hno
    have apart (i j : Nat) (hi : i < table.length) (hj : j < table.length) (hij : i ≠ j) :
        ¬ table[i].code <+: table[j].code := fun hpre =>
      hno ⟨i, j, _, _, hij, List.getElem?_eq_getElem hi, List.getElem?_eq_getElem hj, hpre⟩
    exact h fun i j hi hj hlt => ⟨apart i j hi hj hlt.ne, apart j i hj hi hlt.ne'⟩
  · rintro ⟨i, j, a, b, hij, ha, hb, hpre⟩ h
    obtain ⟨hi, rfl⟩ := List.getElem?_eq_some_iff.1 ha
    obtain ⟨hj, rfl⟩ := List.getElem?_eq_some_iff.1 hb
    rcases Nat.lt_or_gt_of_ne hij with hlt | hgt
    · exact (h i j hi hj hlt).1 hpre
    · exact (h j i hj hi hgt).2 hpre

theorem LoadedTable.coded {s : State} {table : List CodeEntry} (h : LoadedTable s table) : Coded table := by
  obtain ⟨-, -, hne, hlen⟩ := h
  exact ⟨hne, fun e he => (hlen e he).1⟩

/-- With `KIND = PREFIX` a table that common validation passes can raise 0x16 only (R117). -/
theorem bldBody_raises_notPrefixFree {s u : State} {table : List CodeEntry} {c : Cause} (hk : s.kind = .prefixCode)
    (htab : s.table = .ok table) (hc : Coded table) (h : bldBody s = .raised c u) : c = .mhNotPrefixFree := by
  rw [bldBody_prefixCode htab hc hk] at h
  rcases Result.bind_eq_raised.1 h with h | ⟨_, _, _, h⟩
  · exact List.mem_singleton.1 ((buildTrie_within table s).of_raised h).1
  · cases h

/-- `BLD` of a loaded table with `KIND = PREFIX` leaves the trie, or raises 0x16 where the table is not
`PrefixFree` (R117, R118). -/
theorem exec_bld_loaded {s : State} {table : List CodeEntry} (hp : s.phase = .load) (hk : s.kind = .prefixCode)
    (hl : LoadedTable s table) (hwf : Memory.wf nodeSpace s.node = true) :
    (PrefixFree table ∧ ∃ t, exec .bld s = .next t ∧ TrieBuilt table s t) ∨
    (¬ PrefixFree table ∧ FaultsWith (exec .bld s) 0x16 s.out s) := by
  have hc := hl.coded
  obtain ⟨hn, htab, -, hlen⟩ := hl
  rcases bldBody_trie hk hn htab (fun e he => (hlen e he).2) hwf with
    ⟨_, hpf, t, hok, hbuilt⟩ | ⟨hnot, c, u, hraised⟩
  · exact .inl ⟨hpf, t, by rw [exec_bld hp, hok]; rfl, hbuilt⟩
  · obtain rfl := bldBody_raises_notPrefixFree hk htab hc hraised
    exact .inr ⟨fun hpf => hnot ⟨hc, hpf⟩, exec_bld_faultsWith hp hraised⟩

theorem TrieBuilt.phase {table : List CodeEntry} {s t : State} (h : TrieBuilt table s t) : t.phase = .run := by
  obtain ⟨_, _, rfl, _⟩ := h
  rfl

theorem TrieBuilt.trieShape {table : List CodeEntry} {s t : State} (h : TrieBuilt table s t) :
    TrieShape t.node t.nnode.toNat table := by
  obtain ⟨_, _, rfl, _, _, hshape⟩ := h
  exact hshape

/-- Settles O29: `BLD` of a `PrefixFree` table ends in phase `RUN`, and of any other it raises 0x16. -/
theorem bldRefusesExactlyNonPrefixFreeTables : Obligations.BldRefusesExactlyNonPrefixFreeTables := by
  unfold Obligations.BldRefusesExactlyNonPrefixFreeTables
  intro s table hp hk hl hwf
  rw [← not_prefixFree_iff]
  rcases exec_bld_loaded hp hk hl hwf with ⟨hpf, t, hexec, hbuilt⟩ | ⟨hnot, hfault⟩
  · refine iff_of_false ?_ (not_not_intro hpf)
    rintro ⟨t', hexec', hphase, -⟩
    obtain rfl : t = t' := Host.Outcome.next.inj (hexec.symm.trans hexec')
    exact nomatch hbuilt.phase.symm.trans hphase
  · exact iff_of_true hfault hnot

/-! ### The order of the table -/

/-- The shape of R29 asks only which entries the table has. -/
theorem TrieShape.perm {node : List (Nat × TrieNode)} {nnode : Nat} {table table' : List CodeEntry}
    (h : TrieShape node nnode table) (hperm : table.Perm table') : TrieShape node nnode table' where
  paths := by simpa only [hperm.mem_iff] using h.paths
  injective := h.injective
  indices := h.indices
  leaves := by simpa only [hperm.mem_iff] using h.leaves
  distinct := (hperm.map CodeEntry.code).nodup_iff.1 h.distinct
  root := h.root
  leafShape := h.leafShape
  internalShape := h.internalShape

/-- Settles O32: both tables are `PrefixFree` or neither is, and the tries of both hold the abstract trie of one table. -/
theorem trieDoesNotDependOnTableOrder : Obligations.TrieDoesNotDependOnTableOrder := by
  unfold Obligations.TrieDoesNotDependOnTableOrder
  intro s s' table table' hp hk hp' hk' hl hl' hperm hwf hwf'
  rcases exec_bld_loaded hp hk hl hwf with ⟨hpf, t, hexec, hbuilt⟩ | ⟨hnot, hfault⟩ <;>
    rcases exec_bld_loaded hp' hk' hl' hwf' with ⟨hpf', t', hexec', hbuilt'⟩ | ⟨hnot', hfault'⟩
  · refine .inr ⟨t, t', hexec, hexec', hbuilt.phase, hbuilt'.phase, fun path => ?_⟩
    rw [trieIsTheAbstractTrie _ _ _ (hbuilt.trieShape.perm hperm) path,
      trieIsTheAbstractTrie _ _ _ hbuilt'.trieShape path]
  · exact absurd ((prefixFree_perm hperm).1 hpf) hnot'
  · exact absurd ((prefixFree_perm hperm).2 hpf') hnot
  · exact .inl ⟨hfault, hfault'⟩

/-! ### The validations and the array build -/

theorem validateCommon_nil : validateCommon [] = some .mhEmptyTable := rfl

/-- An entry without a codeword (R114). -/
theorem validateCommon_no_codeword {table : List CodeEntry} (h : ∃ e ∈ table, e.len = 0) :
    validateCommon table = some .mhNoCodeword := by
  obtain ⟨e, he, hlen⟩ := h
  have hany : table.any (fun e => e.len = 0) = true := List.any_eq_true.2 ⟨e, he, by simpa using hlen⟩
  rw [validateCommon, if_neg (List.ne_nil_of_mem he), if_pos hany]

/-- What common validation raises, `BLD` raises, whatever the kind (R113). -/
theorem bldBody_validateCommon {s : State} {table : List CodeEntry} {c : Cause} (htab : s.table = .ok table)
    (h : validateCommon table = some c) : bldBody s = .raised c s := by
  simp [bldBody, htab, h]

/-- Two lengths (R115). -/
theorem fixedLength_mismatch {table : List CodeEntry} (h : ∃ a ∈ table, ∃ b ∈ table, a.len ≠ b.len) :
    fixedLength table = .error .mhLenMismatch := by
  obtain ⟨a, ha, b, hb, hab⟩ := h
  cases table with
  | nil => cases ha
  | cons e rest =>
    have hany : rest.any (fun e' => e'.len ≠ e.len) = true := by
      by_contra hnone
      have same : ∀ x ∈ e :: rest, x.len = e.len := by simpa using hnone
      exact hab ((same a ha).trans (same b hb).symm)
    simp only [fixedLength, if_pos hany]

/-- One length above 8 (R115). -/
theorem fixedLength_tooWide {table : List CodeEntry} {len : Nat} (hne : table ≠ [])
    (hlen : ∀ e ∈ table, e.len = len) (h8 : 8 < len) : fixedLength table = .error .mhFixedTooWide := by
  cases table with
  | nil => exact absurd rfl hne
  | cons e rest =>
    obtain ⟨he, hrest⟩ := List.forall_mem_cons.1 hlen
    have hany : ¬ rest.any (fun e' => e'.len ≠ e.len) = true := by simpa [he] using hrest
    have hwide : e.len > Config.lfixMax := by rw [he]; exact h8
    simp only [fixedLength, if_neg hany, if_pos hwide]

/-- What fixed-width validation raises, `BLD` raises with `KIND = FIXED` (R115). -/
theorem bldBody_fixedLength {s : State} {table : List CodeEntry} {c : Cause} (htab : s.table = .ok table)
    (hc : Coded table) (hk : s.kind = .fixedCode) (h : fixedLength table = .error c) : bldBody s = .raised c s := by
  simp [bldBody_fixedCode htab hc hk, buildDemux, h]

/-- A codeword that stands twice in a table of one length up to 8 (R121). -/
theorem bldBody_dupCode {s : State} {table : List CodeEntry} {len : Nat} (htab : s.table = .ok table)
    (hc : Coded table) (hk : s.kind = .fixedCode) (hd : s.demux = []) (hlen : ∀ e ∈ table, e.len = len) (h8 : len ≤ 8)
    (hdup : ¬ (table.map CodeEntry.code).Nodup) : ∃ u, bldBody s = .raised .mhDupCode u := by
  have hval : ∀ e ∈ table, bitsVal e.code < 256 := fun e he =>
    (bitsVal_lt e.code).trans_le (Nat.pow_le_pow_right (j := 8) Nat.two_pos ((hlen e he).trans_le h8))
  rw [bldBody_fixedCode htab hc hk, buildDemux, (fixedLength_eq_ok hc.1).2 ⟨hlen, h8⟩]
  rcases demuxEntries_cases table { s with l := BitVec.ofNat 4 len } hval (by rw [hd]; rfl) with
    ⟨_, _, _, hnodup, _⟩ | ⟨u, hrun, _⟩
  · exact absurd ((nodup_values_iff hlen).1 hnodup) hdup
  · exact ⟨u, by simp only [hrun, Result.bind_raised]⟩

/-- Settles O31, cause by cause in the order of R245. -/
theorem bldFaultsInOrder : Obligations.BldFaultsInOrder := by
  unfold Obligations.BldFaultsInOrder
  intro s table hp _ htab hd
  refine ⟨?_, fun hempty => ?_, fun hpos hk => ⟨fun hmix => ?_,
    fun len hne hlen => ⟨fun hwide => ?_, fun h8 hdup => ?_⟩⟩⟩
  · rintro rfl
    exact exec_bld_faultsWith hp (bldBody_validateCommon htab validateCommon_nil)
  · exact exec_bld_faultsWith hp (bldBody_validateCommon htab (validateCommon_no_codeword hempty))
  · have ⟨a, ha, _⟩ := hmix
    have hc : Coded table := ⟨List.ne_nil_of_mem ha, hpos⟩
    exact exec_bld_faultsWith hp (bldBody_fixedLength htab hc hk (fixedLength_mismatch hmix))
  · exact exec_bld_faultsWith hp (bldBody_fixedLength htab ⟨hne, hpos⟩ hk (fixedLength_tooWide hne hlen hwide))
  · obtain ⟨u, hraised⟩ := bldBody_dupCode htab ⟨hne, hpos⟩ hk hd hlen h8 hdup
    exact exec_bld_faultsWith hp hraised

end Sys2Proof.Machine
end

section
/-! PROOF. The commands `ENT` and `CWB` (spec/41_table_build.md R111, R112): what each writes where it completes, and the
faults of each. -/

namespace Sys2Proof.Machine

/-- A legal command whose pseudocode raises a fault before it has written anything. -/
theorem exec_raises_at_start {i : Instr} {s : State} {c : Cause} (hf : s.phase ≠ .fault) (hw : i.wellFormed = true)
    (hl : legalIn i.opcode s.phase = true) (h : pseudocode i s = .raised c s) :
    FaultsWith (exec i s) c.code s.out s := by
  rw [exec_legal hf hw hl, h]
  exact enterFault_faultsWith c s

/-- A command in a phase in which it is not legal (R80). -/
theorem exec_wrongPhase_faultsWith {i : Instr} {s : State} (hf : s.phase ≠ .fault) (hw : i.wellFormed = true)
    (hl : legalIn i.opcode s.phase = false) : FaultsWith (exec i s) 0x32 s.out s := by
  rw [exec_wrongPhase hf hw hl]
  exact enterFault_faultsWith .icWrongPhase s

/-! ### ENT -/

/-- `ENT` has no reserved operand bit (R72). -/
theorem ent_wellFormed (arg : Byte) : (Instr.ent arg).wellFormed = true := beq_iff_eq.2 BitVec.and_zero

theorem encode_ent (arg : Byte) : encode (.ent arg) = 0x0300 + arg.setWidth 16 := append_eq_add 0x03 arg

/-- Settles O25: where there is room the entry goes behind the last one. -/
theorem entAppendsAnEntry : Obligations.EntAppendsAnEntry := by
  unfold Obligations.EntAppendsAnEntry
  intro arg s
  have hwf := ent_wellFormed arg
  refine ⟨decode_eq_ok_iff_encode.2 ⟨hwf, encode_ent arg⟩, fun hp hn => ?_, fun hp hn => ?_, fun hf hload => ?_⟩
  · exact ⟨_, exec_ent_room hp hn, toNat_nent_succ hn, Memory.read_put_unlisted _ rfl hn,
      fun j hj => Memory.read_put_other _ hj, rfl, fun table htab => table_append htab hn⟩
  · exact exec_raises_at_start (by rw [hp]; decide) hwf (by rw [hp]; rfl) (entBody_full hn)
  · exact exec_wrongPhase_faultsWith hf hwf (decide_eq_false hload)

/-! ### CWB -/

theorem encode_cwb (arg : Byte) : encode (.cwb arg) = 0x0400 + arg.setWidth 16 := append_eq_add 0x04 arg

/-- `CWB` in phase `LOAD` on a table whose last entry is known (R112). -/
theorem exec_cwb_open {arg : Byte} {s : State} {e : CodeEntry} (hw : (Instr.cwb arg).wellFormed = true)
    (hp : s.phase = .load) (hn0 : s.nent ≠ 0) (hn : s.nent.toNat ≤ 256)
    (he : Memory.read ctSpace s.ct (s.nent.toNat - 1) = .ok e) (hlen : e.len ≠ 255) :
    exec (.cwb arg) s =
      .next { s with ct := Memory.put ctSpace s.ct (s.nent.toNat - 1) ⟨e.sym, e.code ++ [argBit arg]⟩ } := by
  rw [exec_legal (by rw [hp]; decide) hw (by rw [hp]; rfl), pseudocode, cwbBody_open hn0 hn he, if_neg hlen,
    Result.finish_ok]

/-- Settles O26: `CWB arg` is well formed exactly when `arg[7:1]` is 0 (R72), and the other faults are tested after
that (R245). -/
theorem cwbAppendsABit : Obligations.CwbAppendsABit := by
  unfold Obligations.CwbAppendsABit
  intro arg s hf
  have hwf : (Instr.cwb arg).wellFormed = true ↔ arg.extractLsb' 1 7 = 0 := reservedClear_cwb arg
  refine ⟨fun h => decode_eq_ok_iff_encode.2 ⟨hwf.2 h, encode_cwb arg⟩, fun h => ?_, fun h hload => ?_,
    fun h hp hn => ?_, fun e h hp hn0 hn he => ⟨fun hfull => ?_, fun hroom => ?_⟩⟩
  · rw [exec_reserved hf (Bool.eq_false_of_not_eq_true (mt hwf.1 h))]
    exact enterFault_faultsWith .icReservedBits s
  · exact exec_wrongPhase_faultsWith hf (hwf.2 h) (decide_eq_false hload)
  · exact exec_raises_at_start hf (hwf.2 h) (by rw [hp]; rfl) (cwbBody_empty hn)
  · have hraised : cwbBody arg s = .raised .mhCodeTooLong s := (cwbBody_open hn0 hn he).trans (if_pos hfull)
    exact exec_raises_at_start hf (hwf.2 h) (by rw [hp]; rfl) hraised
  · have hi : s.nent.toNat - 1 < 256 := by omega
    exact ⟨_, exec_cwb_open (hwf.2 h) hp hn0 hn he hroom, Memory.read_put_unlisted _ rfl hi,
      fun j hj => Memory.read_put_other _ hj, rfl⟩

end Sys2Proof.Machine
end

section
/-! PROOF. The bytes of a body that decode no bit of a code (spec/42_body_stream.md R142, R144, R145, R150): text bytes,
the padding byte, the first data byte, and `END` of a body without data. -/

namespace Sys2Proof.Machine

/-! ### What `DAT` and `END` answer in phase `RUN` -/

/-- `DAT` has no reserved operand bit (R72). -/
theorem dat_wellFormed (arg : Byte) : (Instr.dat arg).wellFormed = true := beq_iff_eq.2 BitVec.and_zero

theorem exec_dat {s : State} (arg : Byte) (h : s.phase = .run) : exec (.dat arg) s = (datBody arg s).finish :=
  exec_legal (i := .dat arg) (by rw [h]; decide) (dat_wellFormed arg) (by rw [h]; rfl)

/-- What the host has presented is no command's to change (R45). -/
theorem MatrixFrame.input_eq {i : Instr} {s t : State} (h : MatrixFrame i s t) : t.input = s.input := by
  cases i with
  | nop => exact congrArg State.input h
  | rst => exact h
  | cfg arg => exact (congrArg State.input h :)
  | ent arg => exact (congrArg State.input h :)
  | cwb arg => exact (congrArg State.input h :)
  | bld => exact (congrArg State.input h.1 :)
  | dat arg => exact (congrArg State.input h.1 :)
  | endBody => exact (congrArg State.input h.1 :)

/-- A legal command whose pseudocode raises a fault, however far it has gone: the symbols emitted so far are kept
(R246, R247). -/
theorem exec_raises {i : Instr} {s u : State} {c : Cause} (hf : s.phase ≠ .fault) (hw : i.wellFormed = true)
    (hl : legalIn i.opcode s.phase = true) (h : pseudocode i s = .raised c u) :
    FaultsWith (exec i s) c.code u.out s := by
  obtain ⟨-, hframe, -⟩ := (pseudocode_within i s).of_raised h
  rw [exec_legal hf hw hl, h]
  exact ⟨_, rfl, rfl, rfl, rfl, hframe.input_eq⟩

theorem exec_dat_raises {s u : State} {c : Cause} {arg : Byte} (hp : s.phase = .run)
    (h : datBody arg s = .raised c u) : FaultsWith (exec (.dat arg) s) c.code u.out s :=
  exec_raises (i := .dat arg) (by rw [hp]; decide) (dat_wellFormed arg) (by rw [hp]; rfl) h

theorem exec_endBody_raises {s u : State} {c : Cause} (hp : s.phase = .run) (h : endBodyBody s = .raised c u) :
    FaultsWith (exec .endBody s) c.code u.out s :=
  exec_raises (i := .endBody) (by rw [hp]; decide) rfl (by rw [hp]; rfl) h

/-! ### Text bytes -/

/-- `DAT` in `TEXT` format (R141, R142). -/
theorem datBody_text {s : State} (arg : Byte) (hf : s.fmt = .text) : datBody arg s = textByte arg s := by
  simp only [datBody, hf]

/-- Settles O39: the byte is a bit character or is skipped, and R45 keeps the padding and lookahead registers. -/
theorem textBytesAreBitsOrSkipped : Obligations.TextBytesAreBitsOrSkipped := by
  unfold Obligations.TextBytesAreBitsOrSkipped
  intro c s hp hf
  have hexec : exec (.dat c) s = (textByte c s).finish := by rw [exec_dat c hp, datBody_text c hf]
  refine ⟨?_, ?_, fun h0 h1 => ?_, fun t ht hphase => ?_⟩
  · rintro rfl; exact hexec
  · rintro rfl; exact hexec
  · have hskip : textBit c = none := by rw [textBit, if_neg h0, if_neg h1]
    rw [hexec, textByte, hskip, Result.finish_ok]
  · obtain ⟨-, htext, -⟩ := commandsWriteOnlyWhatTheMatrixMarks (.dat c) s t ht hphase
    exact htext hf

/-! ### The padding byte and the first data byte -/

/-- The first `DAT` in `BINARY` format (R144). -/
theorem datBody_padding {s : State} (arg : Byte) (hf : s.fmt = .binary) (hv : s.pvalid = false) :
    datBody arg s = if arg.toNat > 7 then .raised .csBadPadding s else .ok () (s.setPadding arg) := by
  simp only [datBody, hf, hv, if_true, paddingByte]

/-- The second `DAT` in `BINARY` format (R145). -/
theorem datBody_firstData {s : State} (arg : Byte) (hf : s.fmt = .binary) (hv : s.pvalid = true)
    (hh : s.holdv = false) : datBody arg s = .ok () (s.holdByte arg) := by
  simp [datBody, hf, hv, hh]

theorem exec_dat_padding {s : State} {arg : Byte} (hp : s.phase = .run) (hf : s.fmt = .binary)
    (hv : s.pvalid = false) (h : arg.toNat ≤ 7) : exec (.dat arg) s = .next (s.setPadding arg) := by
  rw [exec_dat arg hp, datBody_padding arg hf hv, if_neg (Nat.not_lt.2 h), Result.finish_ok]

theorem exec_dat_badPadding {s : State} {arg : Byte} (hp : s.phase = .run) (hf : s.fmt = .binary)
    (hv : s.pvalid = false) (h : 7 < arg.toNat) : FaultsWith (exec (.dat arg) s) 0x20 s.out s :=
  exec_dat_raises (c := .csBadPadding) hp (by rw [datBody_padding arg hf hv, if_pos h])

theorem exec_dat_firstData {s : State} (arg : Byte) (hp : s.phase = .run) (hf : s.fmt = .binary)
    (hv : s.pvalid = true) (hh : s.holdv = false) : exec (.dat arg) s = .next (s.holdByte arg) := by
  rw [exec_dat arg hp, datBody_firstData arg hf hv hh, Result.finish_ok]

/-- Settles O40. -/
theorem firstBinaryByteIsThePaddingCount : Obligations.FirstBinaryByteIsThePaddingCount := by
  unfold Obligations.FirstBinaryByteIsThePaddingCount
  intro v s hp hf hv
  exact ⟨exec_dat_padding hp hf hv, exec_dat_badPadding hp hf hv⟩

/-- Settles O41. -/
theorem firstDataByteIsHeld : Obligations.FirstDataByteIsHeld := by
  unfold Obligations.FirstDataByteIsHeld
  intro v s
  exact exec_dat_firstData v

/-! ### `END` of a body without data -/

/-- The end checks pass a decoder that holds no bit, whatever its kind (R151). -/
theorem endCheck_at_rest {s : State} (hcursor : s.cursor = 0) (hccnt : s.ccnt = 0) : s.endCheck = none := by
  unfold State.endCheck
  cases s.kind <;> simp [hcursor, hccnt]

/-- The two ways the end check goes (R149, R151). -/
theorem endBodyBody_done {s t : State} (hlast : lastByte s = .ok () t) (hcheck : t.endCheck = none) :
    endBodyBody s = .ok () { t with phase := .done } := by
  rw [endBodyBody, hlast, Result.bind_ok, hcheck]

theorem endBodyBody_unfinished {s t : State} {c : Cause} (hlast : lastByte s = .ok () t)
    (hcheck : t.endCheck = some c) : endBodyBody s = .raised c t := by
  rw [endBodyBody, hlast, Result.bind_ok, hcheck]

/-- `END` whose end check passes (R149). -/
theorem exec_endBody_done {s t : State} (hp : s.phase = .run) (hlast : lastByte s = .ok () t)
    (hcheck : t.endCheck = none) : exec .endBody s = .next { t with phase := .done } := by
  rw [exec_endBody hp, endBodyBody_done hlast hcheck, Result.finish_ok]

/-- A raise before the end checks is `END`'s. -/
theorem exec_endBody_lastByte_raises {s u : State} {c : Cause} (hp : s.phase = .run) (h : lastByte s = .raised c u) :
    FaultsWith (exec .endBody s) c.code u.out s :=
  exec_endBody_raises hp (by rw [endBodyBody, h, Result.bind_raised])

theorem lastByte_text {s : State} (hf : s.fmt = .text) : lastByte s = .ok () s := by simp only [lastByte, hf]

/-- A binary body whose padding byte is its only byte (R150). -/
theorem lastByte_noData {s : State} (hf : s.fmt = .binary) (hv : s.pvalid = true) (hh : s.holdv = false) :
    lastByte s = if s.p ≠ 0 then .raised .csPaddingNoData s else .ok () s := by
  simp [lastByte, hf, hv, hh]

/-- A binary body without any byte (R150). -/
theorem lastByte_noPadding {s : State} (hf : s.fmt = .binary) (hv : s.pvalid = false) :
    lastByte s = .raised .csNoPaddingByte s := by
  simp [lastByte, hf, hv]

/-- Settles O46. -/
theorem bodiesWithoutData : Obligations.BodiesWithoutData := by
  unfold Obligations.BodiesWithoutData
  intro s hp hh hcursor hccnt hout
  have hcheck := endCheck_at_rest hcursor hccnt
  rw [← hout]
  refine ⟨fun hf hv hpad => ?_, fun hf hv hpad => ?_, fun hf hv => ?_, fun hf => ?_⟩
  · exact exec_endBody_done hp (by rw [lastByte_noData hf hv hh, if_neg (not_not.2 hpad)]) hcheck
  · exact exec_endBody_lastByte_raises (c := .csPaddingNoData) hp (by rw [lastByte_noData hf hv hh, if_pos hpad])
  · exact exec_endBody_lastByte_raises (c := .csNoPaddingByte) hp (lastByte_noPadding hf hv)
  · exact exec_endBody_done hp (lastByte_text hf) hcheck

end Sys2Proof.Machine
end

section
/-! PROOF. `FBYTE` is its `FSTEP`s (spec/44_fixed_demux.md R181, R182, R184): a run of bits that does not pass the end
of a codeword enters the carry register at once as it does bit by bit, and every turn of the loop is such a run. -/

namespace Sys2Proof.Machine

/-! ### Fields of a byte -/

/-- The `t` bits of `B` that follow the first `pos` (R57): the bits whose value is `bitField B pos t`. -/
def fieldBits (B : Byte) (pos t : Nat) : Bits := (List.range t).map fun i => B.getLsbD (7 - (pos + i))

@[simp] theorem fieldBits_zero (B : Byte) (pos : Nat) : fieldBits B pos 0 = [] := rfl

theorem usableBits_eq_fieldBits (B : Byte) (u : Nat) : usableBits B u = fieldBits B 0 u := by
  simp [usableBits, fieldBits]

theorem fieldBits_add (B : Byte) (pos t t' : Nat) :
    fieldBits B pos (t + t') = fieldBits B pos t ++ fieldBits B (pos + t) t' := by
  simp [fieldBits, List.range_add, Nat.add_assoc]

theorem fieldBits_succ (B : Byte) (pos t : Nat) :
    fieldBits B pos (t + 1) = fieldBits B pos t ++ [B.getLsbD (7 - (pos + t))] := by
  simp [fieldBits, List.range_succ]

/-- One bit more at the end of a field. -/
theorem bitField_succ {B : Byte} {pos t : Nat} (h : pos + t < 8) :
    bitField B pos (t + 1) = (bitField B pos t <<< 1) ||| BitVec.ofNat 8 (B.getLsbD (7 - (pos + t))).toNat := by
  apply BitVec.eq_of_getLsbD_eq
  intro i hi
  rw [BitVec.getLsbD_or, BitVec.getLsbD_shiftLeft, getLsbD_bitField, getLsbD_bitField, BitVec.getLsbD_ofNat]
  cases i with
  | zero =>
    rw [show 8 - pos - (t + 1) + 0 = 7 - (pos + t) by omega]
    cases B.getLsbD (7 - (pos + t)) <;> simp
  | succ i =>
    have hbit : (B.getLsbD (7 - (pos + t))).toNat.testBit (i + 1) = false := by
      cases B.getLsbD (7 - (pos + t)) <;> simp [Nat.testBit_succ]
    simp [hbit, show 8 - pos - (t + 1) + (i + 1) = 8 - pos - t + i by omega, hi, show i < 8 by omega]

/-! ### A run of bits into the carry register -/

/-- The state with `t` bits of `B`, those after the first `pos`, shifted into the carry register (R181). -/
def State.shiftField (B : Byte) (pos t : Nat) (s : State) : State :=
  { s with carry := (s.carry <<< t) ||| bitField B pos t, ccnt := s.ccnt + BitVec.ofNat 4 t }

/-- `FSTEP` of a bit of `B` after a run of them. -/
theorem fstep_shiftField {B : Byte} {pos t : Nat} (h : pos + t < 8) (s : State) :
    fstep (B.getLsbD (7 - (pos + t))) (s.shiftField B pos t) = completeCarry (s.shiftField B pos (t + 1)) := by
  simp only [fstep, State.shiftField, bitField_succ h, BitVec.shiftLeft_or_distrib, BitVec.shiftLeft_add,
    BitVec.or_assoc, BitVec.ofNat_add, BitVec.add_assoc]
  rfl

theorem shiftField_zero (B : Byte) (pos : Nat) (s : State) : s.shiftField B pos 0 = s := by
  simp [State.shiftField, bitField, Nat.mod_one]

/-- The count of carried bits, up to the end of a codeword (R37). -/
theorem toNat_ccnt_add {s : State} {t : Nat} (hl : s.l.toNat ≤ 8) (h : s.ccnt.toNat + t ≤ s.l.toNat) :
    (s.ccnt + BitVec.ofNat 4 t).toNat = s.ccnt.toNat + t := by
  rw [BitVec.toNat_add, BitVec.toNat_ofNat]
  omega

/-- A carry register that has not reached the end of a codeword is left alone (R182). -/
theorem completeCarry_partial {s : State} (h : s.ccnt.toNat ≠ s.l.toNat) : completeCarry s = .ok () s :=
  if_neg fun heq => h (congrArg BitVec.toNat heq)

theorem Result.bind_ok_self (r : Result Unit) : (r.bind fun _ s => .ok () s) = r := by
  cases r <;> rfl

/-- THE KEY: `FSTEP` by `FSTEP`, a run of bits that does not pass the end of a codeword is shifted in as a whole, and
only its last bit can complete the codeword. -/
theorem forEach_fstep_field {B : Byte} {pos t : Nat} {s : State} (hl : s.l.toNat ≤ 8)
    (h : s.ccnt.toNat + (t + 1) ≤ s.l.toNat) (hpos : pos + t < 8) :
    forEach fstep (fieldBits B pos (t + 1)) s = completeCarry (s.shiftField B pos (t + 1)) := by
  induction t with
  | zero =>
    rw [fieldBits_succ, ← fstep_shiftField hpos, shiftField_zero]
    exact Result.bind_ok_self _
  | succ t ih =>
    have hcount : (s.shiftField B pos (t + 1)).ccnt.toNat = s.ccnt.toNat + (t + 1) := toNat_ccnt_add hl (by omega)
    have hpartial : completeCarry (s.shiftField B pos (t + 1)) = .ok () (s.shiftField B pos (t + 1)) :=
      completeCarry_partial (by rw [hcount]; show _ ≠ s.l.toNat; omega)
    rw [fieldBits_succ, forEach_append, ih (by omega) (by omega), hpartial, Result.bind_ok, forEach_cons,
      fstep_shiftField hpos]
    exact Result.bind_ok_self _

/-! ### The loop of `FBYTE` -/

/-- With no carried bit the carry register holds 0 (R37). -/
theorem CarryRests.carry_eq_zero {s : State} (h : CarryRests s) (h0 : s.ccnt = 0) : s.carry = 0 := by
  obtain ⟨-, -, hcarry⟩ := h
  rw [h0] at hcarry
  exact BitVec.eq_of_toNat_eq (by simpa using hcarry)

theorem fbyteLoop_end {B : Byte} {u fuel pos : Nat} (s : State) (h : u ≤ pos) :
    fbyteLoop B u fuel pos s = .ok () s := by
  unfold fbyteLoop
  exact if_neg (Nat.not_lt.2 h)

/-- Every turn of the loop shifts in the bits up to the end of the codeword or of the byte (R181): the codeword that
begins and ends in this byte, and the bits that are left at its end, go through the carry register as well. -/
theorem fbyteLoop_turn {B : Byte} {u fuel pos t : Nat} {s : State} (hs : CarryRests s) (hpos : pos < u)
    (ht : t = min (s.l.toNat - s.ccnt.toNat) (u - pos)) :
    fbyteLoop B u (fuel + 1) pos s =
      (completeCarry (s.shiftField B pos t)).bind fun _ s => fbyteLoop B u fuel (pos + t) s := by
  rw [fbyteLoop, if_pos hpos]
  by_cases h0 : s.ccnt = 0
  · have hcarry := hs.carry_eq_zero h0
    obtain ⟨-, hl, -⟩ := hs
    have hshift : s.shiftField B pos t = { s with carry := bitField B pos t, ccnt := BitVec.ofNat 4 t } := by
      simp [State.shiftField, hcarry, h0]
    have hzero : s.ccnt.toNat = 0 := by rw [h0]; rfl
    rw [hzero, Nat.sub_zero] at ht
    have htn : (BitVec.ofNat 4 t).toNat = t := by
      rw [BitVec.toNat_ofNat]
      have : s.l.toNat ≤ 8 := hl
      omega
    rw [hshift]
    simp only [h0, ne_eq, not_true, if_false]
    by_cases hfull : s.l.toNat ≤ u - pos
    · have htl : t = s.l.toNat := by omega
      have hcomplete : BitVec.ofNat 4 t = s.l := BitVec.eq_of_toNat_eq (by rw [htn, htl])
      rw [if_pos hfull, completeCarry, if_pos hcomplete, ← htl]
      rw [show ({ s with carry := 0, ccnt := 0 } : State) = s by rw [← hcarry, ← h0]]
    · have htu : t = u - pos := by omega
      rw [if_neg hfull, completeCarry_partial (by show (BitVec.ofNat 4 t).toNat ≠ s.l.toNat; omega), Result.bind_ok,
        fbyteLoop_end _ (by omega), htu]
  · simp only [ne_eq, h0, not_false_eq_true, if_true, ← ht]
    rfl

/-- Two continuations that agree wherever the first piece ends make the same sequence. -/
theorem Result.bind_congr {α β : Type} {r : Result α} {f g : α → State → Result β}
    (h : ∀ a t, r = .ok a t → f a t = g a t) : r.bind f = r.bind g := by
  cases r with
  | ok a t => exact h a t rfl
  | raised c t => rfl
  | stop e => rfl

/-- `FSTEP` keeps the carry register at rest (R37). -/
theorem fstep_ok_rests {b : Bool} {s t : State} (hs : CarryRests s) (h : fstep b s = .ok () t) : CarryRests t := by
  have hrest := fstep_rests b s s ⟨hs, s.carry, s.ccnt, s.out, rfl⟩
  rw [h] at hrest
  exact hrest.1

/-- So does a run of them. -/
theorem forEach_fstep_rests {bits : Bits} {s t : State} (hs : CarryRests s) (h : forEach fstep bits s = .ok () t) :
    CarryRests t := by
  have hrest := forEach_completes (fun b u hu => fstep_rests b s u hu) bits s ⟨hs, s.carry, s.ccnt, s.out, rfl⟩
  rw [h] at hrest
  exact hrest.1

theorem fbyteLoop_eq_forEach {B : Byte} {u fuel pos : Nat} {s : State} (hs : CarryRests s) (hu : u ≤ 8)
    (hfuel : u ≤ pos + fuel) : fbyteLoop B u fuel pos s = forEach fstep (fieldBits B pos (u - pos)) s := by
  induction fuel generalizing pos s with
  | zero => rw [fbyteLoop_end s (by omega), Nat.sub_eq_zero_of_le (by omega)]; rfl
  | succ fuel ih =>
    by_cases hpos : pos < u
    · obtain ⟨hcount, hl, -⟩ := id hs
      obtain ⟨t, ht⟩ : ∃ t, t + 1 = min (s.l.toNat - s.ccnt.toNat) (u - pos) := ⟨_, Nat.succ_pred (by omega)⟩
      have hrun := forEach_fstep_field (B := B) (pos := pos) (t := t) hl (by omega) (by omega)
      rw [fbyteLoop_turn hs hpos ht, ← hrun, show u - pos = (t + 1) + (u - (pos + (t + 1))) by omega,
        fieldBits_add B pos (t + 1), forEach_append fstep (fieldBits B pos (t + 1))]
      exact Result.bind_congr fun _ v hv => ih (pos := pos + (t + 1)) (forEach_fstep_rests hs hv) (by omega)
    · rw [fbyteLoop_end s (Nat.not_lt.1 hpos), Nat.sub_eq_zero_of_le (Nat.not_lt.1 hpos)]; rfl

/-- `FBYTE` is its `FSTEP`s (R184). -/
theorem fbyte_eq_forEach {B : Byte} {u : Nat} {s : State} (hs : CarryRests s) (hu : u ≤ 8) :
    fbyte B u s = forEach fstep (usableBits B u) s := by
  rw [fbyte, fbyteLoop_eq_forEach hs hu (by omega), usableBits_eq_fieldBits, Nat.sub_zero]

end Sys2Proof.Machine
end

section
/-! PROOF. The bits of a body against the two functions of R153 (spec/43_prefix_walk.md R171, R173;
spec/44_fixed_demux.md R182, R183): the decoder of either kind stands for the bits of an unfinished codeword, and one
bit more does to it what the function does to these bits. -/

namespace Sys2Proof.Machine

/-! ### One bit through the trie -/

/-- `PSTEP` from the node of a path, in terms of the abstract trie (R171, R173). -/
theorem pstep_follows_trie {s : State} {table : List CodeEntry} {path : Bits} (b : Bool)
    (hT : TrieShape s.node s.nnode.toNat table) (hpath : walkTrie s.node 0 path = some s.cursor.toNat) :
    (trieView table (path ++ [b]) = none ∧ pstep b s = .raised .csDeadEnd s) ∨
    (∃ sym, trieView table (path ++ [b]) = some (.leaf sym) ∧
      pstep b s = .ok () { s with cursor := 0, out := s.out ++ [sym] }) ∨
    (∃ k : BitVec 16, trieView table (path ++ [b]) = some .internal ∧
      walkTrie s.node 0 (path ++ [b]) = some k.toNat ∧ pstep b s = .ok () { s with cursor := k }) := by
  obtain ⟨n, hn, -⟩ := hT.leaves path _ hpath
  have hwalk : walkTrie s.node 0 (path ++ [b]) = (n.child b).map BitVec.toNat := by
    rw [walkTrie_append, hpath, Option.bind_some, walkTrie_cons hn]
    cases n.child b <;> rfl
  rw [← trieIsTheAbstractTrie _ _ _ hT]
  rcases pstep_eq (b := b) hn with ⟨hc, h⟩ | ⟨t, m, hc, hm, hl, h⟩ | ⟨t, m, hc, hm, hl, h⟩ | ⟨t, f, hc, hm, -⟩
  all_goals rw [hc] at hwalk
  · exact .inl ⟨by simp [nodeView, hwalk], h⟩
  · exact .inr (.inl ⟨m.sym, by simp [nodeView, hwalk, hm, hl], h⟩)
  · exact .inr (.inr ⟨t, by simp [nodeView, hwalk, hm, hl], hwalk, h⟩)
  · obtain ⟨m, hm', -⟩ := hT.leaves _ _ hwalk
    rw [hm] at hm'
    cases hm'

/-- The root is an internal node (R29 item 4). -/
theorem TrieShape.nodeView_root {node : List (Nat × TrieNode)} {nnode : Nat} {table : List CodeEntry}
    (hT : TrieShape node nnode table) : nodeView node [] = some .internal := by
  obtain ⟨n, hn, hl⟩ := hT.root
  simp [nodeView, hn, hl]

/-! ### One bit into the carry register -/

/-- The array holds what the table says of a codeword value (R32). -/
theorem DemuxShape.fixedSymbol_eq {demux : List (Nat × DemuxElem)} {len v : Nat} {table : List CodeEntry}
    {d : DemuxElem} (hD : DemuxShape demux len table) (hread : Memory.read demuxSpace demux v = .ok d) :
    fixedSymbol table v = if d.valid then some d.sym else none := by
  obtain ⟨d', hread', hvalid, hsym, -⟩ := hD.elements v (Memory.read_ok_lt hread)
  rw [hread] at hread'
  cases hread'
  unfold fixedSymbol
  cases hfind : table.find? fun e => bitsVal e.code = v with
  | none =>
    have hinvalid : ¬ d.valid = true := fun h => by
      obtain ⟨e, he, hv⟩ := hvalid.1 h
      exact absurd hv (by simpa using List.find?_eq_none.1 hfind e he)
    rw [if_neg hinvalid, Option.map_none]
  | some e =>
    have he := List.mem_of_find?_eq_some hfind
    have hv : bitsVal e.code = v := by simpa using List.find?_some hfind
    rw [if_pos (hvalid.2 ⟨e, he, hv⟩), hsym e he hv, Option.map_some]

/-- A bit shifted into the carry register, where no carried bit is lost (R182). -/
theorem toNat_shift_bit {c : Byte} (b : Bool) (h : c.toNat < 128) :
    ((c <<< 1) ||| BitVec.ofNat 8 b.toNat).toNat = 2 * c.toNat + b.toNat := by
  have hb := Bool.toNat_lt b
  rw [BitVec.toNat_or, BitVec.toNat_shiftLeft, BitVec.toNat_ofNat, Nat.shiftLeft_eq, Nat.mod_eq_of_lt (by omega),
    Nat.mod_eq_of_lt (by omega), Nat.mul_comm, ← Nat.two_pow_add_eq_or_of_lt (i := 1) hb]

/-! ### The decoder of either kind -/

/-- The walker stands at the internal node of a path (R36, R153). -/
def AtPath (table : List CodeEntry) (s : State) (path : Bits) : Prop :=
  TrieShape s.node s.nnode.toNat table ∧ walkTrie s.node 0 path = some s.cursor.toNat ∧
    nodeView s.node path = some .internal

/-- The carry register holds some bits (R37). -/
def Carries (table : List CodeEntry) (s : State) (pending : Bits) : Prop :=
  DemuxShape s.demux s.l.toNat table ∧ CarryRests s ∧ pending.length = s.ccnt.toNat ∧ bitsVal pending = s.carry.toNat

/-- The decoder of the state's kind has taken the bits `pending` of a codeword that they do not finish. -/
def Unfinished (table : List CodeEntry) (s : State) (pending : Bits) : Prop :=
  match s.kind with
  | .prefixCode => AtPath table s pending
  | .fixedCode => Carries table s pending

/-- What the function of R153 for the state's kind does with bits, after the bits `pending` of an unfinished codeword
and the symbols `out`. -/
def State.consume (table : List CodeEntry) (s : State) (pending : Bits) (out : List Sym) (bits : Bits) : Consumed :=
  match s.kind with
  | .prefixCode => walkBits table pending out bits
  | .fixedCode => cutBits table s.l.toNat pending out bits

section

variable {table : List CodeEntry} {s t : State} {pending : Bits}

theorem unfinished_prefixCode (h : s.kind = .prefixCode) : Unfinished table s pending ↔ AtPath table s pending := by
  simp only [Unfinished, h]

theorem unfinished_fixedCode (h : s.kind = .fixedCode) : Unfinished table s pending ↔ Carries table s pending := by
  simp only [Unfinished, h]

theorem AtPath.unfinished (h : AtPath table s pending) (hk : s.kind = .prefixCode) : Unfinished table s pending :=
  (unfinished_prefixCode hk).2 h

theorem Carries.unfinished (h : Carries table s pending) (hk : s.kind = .fixedCode) : Unfinished table s pending :=
  (unfinished_fixedCode hk).2 h

theorem State.consume_prefixCode (h : s.kind = .prefixCode) : s.consume table = walkBits table := by
  funext pending out bits
  simp only [State.consume, h]

theorem State.consume_fixedCode (h : s.kind = .fixedCode) : s.consume table = cutBits table s.l.toNat := by
  funext pending out bits
  simp only [State.consume, h]

/-! ### What the decoders keep -/

/-- The registers that neither decoder writes (R45). -/
theorem Decoding.frame (h : Decoding s t) :
    t = { s with cursor := t.cursor, carry := t.carry, ccnt := t.ccnt, out := t.out } := by
  obtain ⟨hframe, -⟩ := h.registers
  exact hframe

theorem Decoding.kind_eq (h : Decoding s t) : t.kind = s.kind := by rw [h.frame]; rfl

theorem Decoding.fmt_eq (h : Decoding s t) : t.fmt = s.fmt := by rw [h.frame]; rfl

theorem Decoding.trans {u : State} (h : Decoding s t) (h' : Decoding t u) : Decoding s u := by
  unfold Decoding at h' ⊢
  rw [h.kind_eq] at h'
  unfold Decoding at h
  cases hk : s.kind <;> simp only [hk] at h h' ⊢
  · exact Walks.trans s t u h h'
  · exact Cuts.trans s t u h h'

/-- A decoder changes neither the kind nor the width of the code. -/
theorem Decoding.consume_eq (h : Decoding s t) : t.consume table = s.consume table := by rw [h.frame]; rfl

theorem Unfinished.carryRests (h : Unfinished table s pending) (hk : s.kind = .fixedCode) : CarryRests s := by
  obtain ⟨-, hrests, -⟩ := (unfinished_fixedCode hk).1 h
  exact hrests

end

/-! ### Consuming bits -/

/-- Consuming some bits and then more, where the first raise no fault. -/
def Consumed.andThen (w : Consumed) (f : Bits → List Sym → Consumed) : Consumed :=
  match w.fault with
  | none => f w.rest w.out
  | some _ => w

theorem Consumed.andThen_none {w : Consumed} (hw : w.fault = none) (f : Bits → List Sym → Consumed) :
    w.andThen f = f w.rest w.out := by simp only [andThen, hw]

theorem Consumed.andThen_some {w : Consumed} {c : Cause} (hw : w.fault = some c) (f : Bits → List Sym → Consumed) :
    w.andThen f = w := by simp only [andThen, hw]

theorem walkBits_cons (table : List CodeEntry) (path : Bits) (out : List Sym) (b : Bool) (bits : Bits) :
    walkBits table path out (b :: bits) =
      (walkBits table path out [b]).andThen fun path out => walkBits table path out bits := by
  rw [walkBits, walkBits]
  cases trieView table (path ++ [b]) with
  | none => rfl
  | some v => cases v <;> rfl

theorem cutBits_cons (table : List CodeEntry) (len : Nat) (pending : Bits) (out : List Sym) (b : Bool) (bits : Bits) :
    cutBits table len pending out (b :: bits) =
      (cutBits table len pending out [b]).andThen fun pending out => cutBits table len pending out bits := by
  rw [cutBits, cutBits]
  split
  · cases fixedSymbol table (bitsVal (pending ++ [b])) <;> rfl
  · rfl

section

variable {table : List CodeEntry} {s : State} {pending : Bits}

theorem State.consume_nil (out : List Sym) : s.consume table pending out [] = ⟨pending, out, none⟩ := by
  unfold State.consume
  cases s.kind <;> rfl

theorem State.consume_cons (out : List Sym) (b : Bool) (bits : Bits) :
    s.consume table pending out (b :: bits) =
      (s.consume table pending out [b]).andThen fun pending out => s.consume table pending out bits := by
  unfold State.consume
  cases s.kind
  · exact walkBits_cons table pending out b bits
  · exact cutBits_cons table s.l.toNat pending out b bits

/-- The bits of a body may be taken in any groups (R184). -/
theorem State.consume_append (out : List Sym) (bits bits' : Bits) :
    s.consume table pending out (bits ++ bits') =
      (s.consume table pending out bits).andThen fun pending out => s.consume table pending out bits' := by
  induction bits generalizing pending out with
  | nil => rw [State.consume_nil]; rfl
  | cons b bits ih =>
    rw [List.cons_append, State.consume_cons, State.consume_cons (bits := bits)]
    cases hw : (s.consume table pending out [b]).fault with
    | none => rw [Consumed.andThen_none hw, ih, Consumed.andThen_none hw]
    | some c => rw [Consumed.andThen_some hw, Consumed.andThen_some hw, Consumed.andThen_some hw]

end

/-! ### The decoders consume the bits -/

/-- A decoder's answer in a state agrees with what has been consumed: the same symbols, and the same fault or the same
bits left. -/
def Result.Consumes (table : List CodeEntry) (s : State) (w : Consumed) (r : Result Unit) : Prop :=
  match w.fault with
  | none => ∃ t, r = .ok () t ∧ Decoding s t ∧ t.out = w.out ∧ Unfinished table t w.rest
  | some c => ∃ t, r = .raised c t ∧ t.out = w.out

theorem Result.Consumes.of_none {table : List CodeEntry} {s : State} {w : Consumed} {r : Result Unit}
    (h : r.Consumes table s w) (hw : w.fault = none) :
    ∃ t, r = .ok () t ∧ Decoding s t ∧ t.out = w.out ∧ Unfinished table t w.rest := by
  simpa only [Result.Consumes, hw] using h

theorem Result.Consumes.of_some {table : List CodeEntry} {s : State} {w : Consumed} {r : Result Unit} {c : Cause}
    (h : r.Consumes table s w) (hw : w.fault = some c) : ∃ t, r = .raised c t ∧ t.out = w.out := by
  simpa only [Result.Consumes, hw] using h

/-- One piece that consumes bits after another. -/
theorem Result.Consumes.bind {table : List CodeEntry} {s : State} {w : Consumed} {r : Result Unit}
    {f : Unit → State → Result Unit} {g : Bits → List Sym → Consumed} (h : r.Consumes table s w)
    (hf : ∀ t, Decoding s t → Unfinished table t w.rest → t.out = w.out →
      (f () t).Consumes table t (g w.rest w.out)) : (r.bind f).Consumes table s (w.andThen g) := by
  cases hw : w.fault with
  | some c =>
    obtain ⟨t, rfl, hout⟩ := h.of_some hw
    rw [Consumed.andThen_some hw]
    simp only [Result.Consumes, hw]
    exact ⟨t, rfl, hout⟩
  | none =>
    obtain ⟨t, rfl, hdec, hout, hrest⟩ := h.of_none hw
    have hg := hf t hdec hrest hout
    rw [Consumed.andThen_none hw, Result.bind_ok]
    cases hv : (g w.rest w.out).fault with
    | none =>
      obtain ⟨u, hu, hdec', hrest'⟩ := hg.of_none hv
      simp only [Result.Consumes, hv]
      exact ⟨u, hu, hdec.trans hdec', hrest'⟩
    | some c =>
      simp only [Result.Consumes, hv]
      exact hg.of_some hv

section

variable {table : List CodeEntry} {s : State} {pending : Bits}

/-- `PSTEP` does with a bit what `decode_prefix` does with it (R153, R171). -/
theorem pstep_consumes (hk : s.kind = .prefixCode) (h : AtPath table s pending) (b : Bool) :
    (pstep b s).Consumes table s (walkBits table pending s.out [b]) := by
  obtain ⟨hT, hwalk, -⟩ := h
  rcases pstep_follows_trie b hT hwalk with ⟨hv, hb⟩ | ⟨sym, hv, hb⟩ | ⟨k, hv, hk', hb⟩
  all_goals rw [hb, walkBits, hv]
  · exact ⟨s, rfl, rfl⟩
  · refine ⟨_, rfl, ?_, rfl, AtPath.unfinished ⟨hT, rfl, hT.nodeView_root⟩ hk⟩
    simp only [Decoding, hk]
    exact ⟨0, [sym], rfl⟩
  · refine ⟨_, rfl, ?_, rfl, AtPath.unfinished ⟨hT, hk', ?_⟩ hk⟩
    · simp only [Decoding, hk]
      exact ⟨k, [], by simp⟩
    · exact (trieIsTheAbstractTrie _ _ _ hT (pending ++ [b])).trans hv

/-- `FSTEP` does with a bit what `decode_fixed` does with it, taken bit by bit (R153, R182, R183). -/
theorem fstep_consumes (hk : s.kind = .fixedCode) (h : Carries table s pending) (b : Bool) :
    (fstep b s).Consumes table s (cutBits table s.l.toNat pending s.out [b]) := by
  obtain ⟨hD, hrest, hcount, hvalue⟩ := h
  obtain ⟨hlt, hl, hcarry⟩ := id hrest
  have hshift : ((s.carry <<< 1) ||| BitVec.ofNat 8 b.toNat).toNat = bitsVal (pending ++ [b]) := by
    have hfits : s.carry.toNat < 2 ^ 7 :=
      hcarry.trans_le (Nat.pow_le_pow_right (by decide) (by have : s.l.toNat ≤ 8 := hl; omega))
    rw [toNat_shift_bit b hfits, bitsVal_append, hvalue]
  have hone : (s.ccnt + 1).toNat = (pending ++ [b]).length := by
    rw [List.length_append, List.length_singleton, hcount]
    exact toNat_ccnt_add (t := 1) hl hlt
  have hkeeps (t : State) (ht : fstep b s = .ok () t) : Decoding s t ∧ CarryRests t := by
    refine ⟨?_, fstep_ok_rests hrest ht⟩
    simp only [Decoding, hk]
    exact (completeCarry_shifted_within s _ _).of_ok ht
  rw [cutBits]
  by_cases hfull : (pending ++ [b]).length = s.l.toNat
  · have hlookup : fstep b s =
        lookupSymbol ((s.carry <<< 1) ||| BitVec.ofNat 8 b.toNat) { s with carry := 0, ccnt := 0 } :=
      if_pos (BitVec.eq_of_toNat_eq (by rw [← hfull, ← hone]))
    obtain ⟨d, hread, hanswer⟩ := lookupSymbol_eq ((s.carry <<< 1) ||| BitVec.ofNat 8 b.toNat)
      { s with carry := 0, ccnt := 0 }
    rw [hshift] at hread
    rw [if_pos hfull, hD.fixedSymbol_eq hread]
    cases hvalid : d.valid <;> rw [hvalid] at hanswer
    · exact ⟨_, hlookup.trans hanswer, rfl⟩
    · obtain ⟨hdec, hrest'⟩ := hkeeps _ (hlookup.trans hanswer)
      exact ⟨_, hlookup.trans hanswer, hdec, rfl, Carries.unfinished ⟨hD, hrest', rfl, rfl⟩ hk⟩
  · have hpartial := completeCarry_partial
      (s := { s with carry := (s.carry <<< 1) ||| BitVec.ofNat 8 b.toNat, ccnt := s.ccnt + 1 })
      (by rw [← hone] at hfull; exact hfull)
    obtain ⟨hdec, hrest'⟩ := hkeeps _ hpartial
    rw [if_neg hfull]
    exact ⟨_, hpartial, hdec, rfl, Carries.unfinished ⟨hD, hrest', hone.symm, hshift.symm⟩ hk⟩

/-- `BIT` (R143). -/
theorem bitStep_consumes (h : Unfinished table s pending) (b : Bool) :
    (bitStep b s).Consumes table s (s.consume table pending s.out [b]) := by
  unfold bitStep
  cases hk : s.kind with
  | prefixCode => rw [State.consume_prefixCode hk]; exact pstep_consumes hk ((unfinished_prefixCode hk).1 h) b
  | fixedCode => rw [State.consume_fixedCode hk]; exact fstep_consumes hk ((unfinished_fixedCode hk).1 h) b

/-- Bits to the decoder, one after another. -/
theorem forEach_bitStep_consumes (h : Unfinished table s pending) (bits : Bits) :
    (forEach bitStep bits s).Consumes table s (s.consume table pending s.out bits) := by
  induction bits generalizing s pending with
  | nil => rw [State.consume_nil]; exact ⟨s, rfl, Decoding.refl s, rfl, h⟩
  | cons b bits ih =>
    rw [State.consume_cons, forEach_cons]
    refine (bitStep_consumes h b).bind fun t hdec hrest hout => ?_
    have hbits := ih hrest
    rwa [hdec.consume_eq, hout] at hbits

/-- The kind of the code does not change in a loop over bits, so that the loop may ask for it at every bit. -/
theorem forEach_eq_bitStep {f : Bool → State → Result Unit} {kind : Kind}
    (hf : ∀ b s, s.kind = kind → f b s = bitStep b s) (hk : s.kind = kind) (bits : Bits) :
    forEach f bits s = forEach bitStep bits s := by
  induction bits generalizing s with
  | nil => rfl
  | cons b bits ih =>
    rw [forEach_cons, forEach_cons, hf b s hk]
    exact Result.bind_congr fun _ t ht => ih (((bitStep_within b s).of_ok ht).kind_eq.trans hk)

theorem bitStep_prefixCode (b : Bool) (s : State) (hk : s.kind = .prefixCode) : pstep b s = bitStep b s := by
  simp only [bitStep, hk]

theorem bitStep_fixedCode (b : Bool) (s : State) (hk : s.kind = .fixedCode) : fstep b s = bitStep b s := by
  simp only [bitStep, hk]

/-- `BYTE` gives the usable bits of its byte to the decoder (R147, R184). -/
theorem byteStep_eq_forEach (h : Unfinished table s pending) (B : Byte) {u : Nat} (hu : u ≤ 8) :
    byteStep B u s = forEach bitStep (usableBits B u) s := by
  unfold byteStep
  cases hk : s.kind with
  | prefixCode => exact forEach_eq_bitStep bitStep_prefixCode hk _
  | fixedCode => exact (fbyte_eq_forEach (h.carryRests hk) hu).trans (forEach_eq_bitStep bitStep_fixedCode hk _)

end

end Sys2Proof.Machine
end

section
/-! PROOF. `DAT` and `END` (spec/42_body_stream.md R141 to R151), said once for both kinds of code: each gives its bits
to the decoder and then sets the lookahead register, `END` before its end check. -/

namespace Sys2Proof.Machine

/-! ### The lookahead register -/

/-- What `DAT` does to the lookahead register after the padding byte (R145, R146). -/
def State.lookAhead (arg : Byte) (s : State) : State :=
  { s with hold := if s.fmt = .binary then arg else s.hold, holdv := if s.fmt = .binary then true else s.holdv }

/-- What `END` does to it (R149). -/
def State.lookEnd (s : State) : State := { s with holdv := if s.fmt = .binary then false else s.holdv }

theorem afterDat_eq_lookAhead {arg : Byte} {s : State} (hv : s.fmt = .binary → s.pvalid = true) :
    afterDat arg s = s.lookAhead arg := by
  cases hf : s.fmt with
  | text => simp [afterDat, State.lookAhead, hf]
  | binary => simp [afterDat, State.lookAhead, State.holdByte, hf, hv hf]

/-! ### The pseudocode as a loop over bits -/

section

variable {table : List CodeEntry} {s t : State} {pending : Bits}

/-- After a decoder, two continuations that agree on every state a decoder can leave make the same sequence. -/
theorem Result.Consumes.bind_congr {w : Consumed} {r : Result Unit} {f g : Unit → State → Result Unit}
    (h : r.Consumes table s w) (hfg : ∀ t, Decoding s t → f () t = g () t) : r.bind f = r.bind g := by
  refine Result.bind_congr fun _ t ht => hfg t ?_
  cases hw : w.fault with
  | none => obtain ⟨u, hu, hdec, -⟩ := h.of_none hw; rw [ht] at hu; cases hu; exact hdec
  | some c => obtain ⟨u, hu, -⟩ := h.of_some hw; rw [ht] at hu; cases hu

/-- `DAT` after the padding byte (R142, R145, R146). -/
theorem datBody_eq_forEach (h : Unfinished table s pending) (arg : Byte) (hv : s.fmt = .binary → s.pvalid = true) :
    datBody arg s = (forEach bitStep (datBits s arg) s).bind fun _ t => .ok () (t.lookAhead arg) := by
  have hlook : (forEach bitStep (datBits s arg) s).bind (fun _ t => .ok () (t.lookAhead arg)) =
      (forEach bitStep (datBits s arg) s).bind fun _ t => .ok () (if s.fmt = .binary then t.holdByte arg else t) :=
    (forEach_bitStep_consumes h _).bind_congr fun t ht => by rw [State.lookAhead, ht.fmt_eq]; split <;> rfl
  rw [hlook]
  cases hf : s.fmt with
  | text =>
    rw [datBody_text arg hf, textByte]
    cases hb : textBit arg <;> simp [datBits, hf, hb, Result.bind_ok_self]
  | binary =>
    cases hh : s.holdv with
    | false => simp [datBody_firstData arg hf (hv hf) hh, datBits, hf, hv hf, hh]
    | true =>
      have hbits : datBits s arg = usableBits s.hold 8 := by simp [datBits, hf, hv hf, hh]
      rw [hbits, ← byteStep_eq_forEach h s.hold (Nat.le_refl 8)]
      simp [datBody, hf, hv hf, hh]

/-- `END` up to its end check, with a byte held in `BINARY` format (R148, R149). -/
theorem lastByte_eq_forEach (h : Unfinished table s pending)
    (hv : s.fmt = .binary → s.pvalid = true ∧ s.holdv = true) :
    lastByte s = (forEach bitStep (endBits s) s).bind fun _ t => .ok () t.lookEnd := by
  have hlook : (forEach bitStep (endBits s) s).bind (fun _ t => .ok () t.lookEnd) =
      (forEach bitStep (endBits s) s).bind fun _ t => .ok () (if s.fmt = .binary then t.releaseHold else t) :=
    (forEach_bitStep_consumes h _).bind_congr fun t ht => by rw [State.lookEnd, ht.fmt_eq]; split <;> rfl
  rw [hlook]
  cases hf : s.fmt with
  | text => simp [lastByte_text hf, endBits, hf]
  | binary =>
    obtain ⟨hv, hh⟩ := hv hf
    have hbits : endBits s = usableBits s.hold (8 - s.p.toNat) := by simp [endBits, hf, hv, hh]
    rw [hbits, ← byteStep_eq_forEach h s.hold (Nat.sub_le 8 s.p.toNat)]
    simp [lastByte, hf, hv, hh]

/-! ### Both kinds of code -/

/-- `DAT` after the padding byte: it completes exactly where its bits raise no fault, in a state that stands for the
bits left. -/
theorem exec_dat_consumes {arg : Byte} {w : Consumed} (hp : s.phase = .run) (h : Unfinished table s pending)
    (hv : s.fmt = .binary → s.pvalid = true) (hw : w = s.consume table pending s.out (datBits s arg)) :
    (w.fault = none → ∃ t, exec (.dat arg) s = .next (t.lookAhead arg) ∧ Decoding s t ∧ t.out = w.out ∧
      Unfinished table t w.rest) ∧
    (∀ c, w.fault = some c → FaultsWith (exec (.dat arg) s) c.code w.out s) := by
  have hbody := datBody_eq_forEach h arg hv
  have hbits := forEach_bitStep_consumes h (datBits s arg)
  rw [← hw] at hbits
  refine ⟨fun hf => ?_, fun c hf => ?_⟩
  · obtain ⟨t, ht, hdec, hout, hrest⟩ := hbits.of_none hf
    rw [ht, Result.bind_ok] at hbody
    exact ⟨t, by rw [exec_dat arg hp, hbody, Result.finish_ok], hdec, hout, hrest⟩
  · obtain ⟨t, ht, hout⟩ := hbits.of_some hf
    rw [ht, Result.bind_raised] at hbody
    rw [← hout]
    exact exec_dat_raises hp hbody

/-- The cause of a body that ends inside a codeword (R151). -/
def Kind.endCause : Kind → Cause
  | .prefixCode => .csMidCodeword
  | .fixedCode => .csPartialCode

/-- The end check asks whether a codeword is unfinished (R151). -/
theorem Unfinished.endCheck (h : Unfinished table s pending) :
    s.endCheck = if pending = [] then none else some s.kind.endCause := by
  cases hk : s.kind with
  | prefixCode =>
    obtain ⟨hT, hwalk, -⟩ := (unfinished_prefixCode hk).1 h
    have hroot : s.cursor = 0 ↔ pending = [] := by
      refine ⟨fun h0 => hT.injective _ _ _ hwalk (by rw [h0]; rfl), fun hnil => ?_⟩
      rw [hnil, walkTrie_nil, Option.some.injEq] at hwalk
      exact BitVec.eq_of_toNat_eq hwalk.symm
    simp only [State.endCheck, hk, ne_eq, hroot, ite_not, Kind.endCause]
  | fixedCode =>
    obtain ⟨-, -, hcount, -⟩ := (unfinished_fixedCode hk).1 h
    have hempty : s.ccnt = 0 ↔ pending = [] := by
      rw [← List.length_eq_zero_iff, hcount]
      exact ⟨fun h0 => by rw [h0]; rfl, fun h0 => BitVec.eq_of_toNat_eq h0⟩
    simp only [State.endCheck, hk, ne_eq, hempty, ite_not, Kind.endCause]

/-- What the end of the body makes of the consumed bits (R151, R153). -/
def Consumed.ended (w : Consumed) (endCause : Cause) : Decoded :=
  ⟨w.out, match w.fault with
    | some c => some c
    | none => if w.rest = [] then none else some endCause⟩

/-- `END` with a byte held in `BINARY` format: it is done exactly where its bits raise no fault and leave no codeword
unfinished. -/
theorem exec_endBody_consumes {w : Consumed} (hp : s.phase = .run) (h : Unfinished table s pending)
    (hv : s.fmt = .binary → s.pvalid = true ∧ s.holdv = true) (hw : w = s.consume table pending s.out (endBits s)) :
    ((w.ended s.kind.endCause).fault = none → ∃ t, exec .endBody s = .next { t.lookEnd with phase := .done } ∧
      Decoding s t ∧ t.out = w.out ∧ Unfinished table t []) ∧
    (∀ c, (w.ended s.kind.endCause).fault = some c → FaultsWith (exec .endBody s) c.code w.out s) := by
  have hlast := lastByte_eq_forEach h hv
  have hbits := forEach_bitStep_consumes h (endBits s)
  rw [← hw] at hbits
  unfold Consumed.ended
  cases hf : w.fault with
  | some c =>
    obtain ⟨t, ht, hout⟩ := hbits.of_some hf
    rw [ht, Result.bind_raised] at hlast
    refine ⟨nofun, fun c' hc => ?_⟩
    cases hc
    rw [← hout]
    exact exec_endBody_lastByte_raises hp hlast
  | none =>
    obtain ⟨t, ht, hdec, hout, hrest⟩ := hbits.of_none hf
    rw [ht, Result.bind_ok] at hlast
    have hcheck : t.lookEnd.endCheck = if w.rest = [] then none else some s.kind.endCause := by
      rw [← hdec.kind_eq]; exact hrest.endCheck
    by_cases hnil : w.rest = []
    · rw [if_pos hnil] at hcheck
      refine ⟨fun _ => ⟨t, exec_endBody_done hp hlast hcheck, hdec, hout, hnil ▸ hrest⟩, fun c hc => ?_⟩
      simp [hnil] at hc
    · rw [if_neg hnil] at hcheck
      refine ⟨fun hc => by simp [hnil] at hc, fun c hc => ?_⟩
      simp only [hnil, if_false, Option.some.injEq] at hc
      rw [← hc, ← hout]
      exact exec_endBody_raises (u := t.lookEnd) hp (endBodyBody_unfinished hlast hcheck)

end

end Sys2Proof.Machine
end

section
/-! PROOF. `DAT` and `END` for each kind of code (spec/42_body_stream.md R141 to R151; spec/60_exceptions.md R247): the
functions of R153 say which symbols are emitted, which fault is raised, and what the decoder's registers hold. -/

namespace Sys2Proof.Machine

/-! ### The functions of R153 and the symbols emitted before -/

/-- What has been consumed, with more symbols emitted before. -/
def Consumed.after (out : List Sym) (w : Consumed) : Consumed := { w with out := out ++ w.out }

theorem walkBits_after (table : List CodeEntry) (path : Bits) (before out : List Sym) (bits : Bits) :
    walkBits table path (before ++ out) bits = (walkBits table path out bits).after before := by
  fun_induction walkBits table path out bits with
  | case1 path out => rfl
  | case2 path out b bits hv => rw [walkBits, hv]; rfl
  | case3 path out b bits sym hv ih => rw [walkBits, hv, ← ih, ← List.append_assoc]
  | case4 path out b bits hv ih => rw [walkBits, hv, ← ih]

theorem cutBits_after (table : List CodeEntry) (len : Nat) (pending : Bits) (before out : List Sym) (bits : Bits) :
    cutBits table len pending (before ++ out) bits = (cutBits table len pending out bits).after before := by
  fun_induction cutBits table len pending out bits with
  | case1 pending out => rfl
  | case2 pending out b bits hfull hv => rw [cutBits, if_pos hfull, hv]; rfl
  | case3 pending out b bits hfull sym hv ih => rw [cutBits, if_pos hfull, hv, ← ih, ← List.append_assoc]
  | case4 pending out b bits hpartial ih => rw [cutBits, if_neg hpartial, ← ih]

/-- With `KIND = PREFIX` bits raise no cause but 0x21 (R153). -/
theorem walkBits_fault {table : List CodeEntry} {path bits : Bits} {out : List Sym} {c : Cause}
    (h : (walkBits table path out bits).fault = some c) : c = .csDeadEnd := by
  fun_induction walkBits table path out bits with
  | case1 path out => cases h
  | case2 path out b bits hv => exact (Option.some.inj h).symm
  | case3 path out b bits sym hv ih => exact ih h
  | case4 path out b bits hv ih => exact ih h

/-- With `KIND = FIXED` bits raise no cause but 0x22 (R153). -/
theorem cutBits_fault {table : List CodeEntry} {len : Nat} {pending bits : Bits} {out : List Sym} {c : Cause}
    (h : (cutBits table len pending out bits).fault = some c) : c = .csUnmapped := by
  fun_induction cutBits table len pending out bits with
  | case1 pending out => cases h
  | case2 pending out b bits hfull hv => exact (Option.some.inj h).symm
  | case3 pending out b bits hfull sym hv ih => exact ih h
  | case4 pending out b bits hpartial ih => exact ih h

section

variable {table : List CodeEntry} {s t : State} {pending bits rest : Bits} {out : List Sym} {w : Consumed}

theorem State.consume_after_prefixCode (hk : s.kind = .prefixCode) (hw : w = walkBits table pending [] bits) :
    w.after s.out = s.consume table pending s.out bits := by
  rw [State.consume_prefixCode hk, hw, ← walkBits_after, List.append_nil]

theorem State.consume_after_fixedCode (hk : s.kind = .fixedCode) (hw : w = cutBits table s.l.toNat pending [] bits) :
    w.after s.out = s.consume table pending s.out bits := by
  rw [State.consume_fixedCode hk, hw, ← cutBits_after, List.append_nil]

/-! ### The decoder's registers -/

/-- What the walker leaves (R171): its cursor stands at the path of the bits left. -/
theorem Decoding.walked (hk : s.kind = .prefixCode) (hdec : Decoding s t) (hrest : Unfinished table t rest)
    (hout : t.out = out) :
    ∃ k : BitVec 16, walkTrie s.node 0 rest = some k.toNat ∧ t = { s with cursor := k, out := out } := by
  obtain ⟨-, hwalk, -⟩ := (unfinished_prefixCode (hdec.kind_eq.trans hk)).1 hrest
  simp only [Decoding, hk] at hdec
  obtain ⟨k, x, rfl⟩ := hdec
  exact ⟨k, hwalk, by rw [← hout]⟩

/-- What the demultiplexer leaves (R182): its carry register holds the bits left. -/
theorem Decoding.cut (hk : s.kind = .fixedCode) (hdec : Decoding s t) (hrest : Unfinished table t rest)
    (hout : t.out = out) :
    t = { s with carry := BitVec.ofNat 8 (bitsVal rest), ccnt := BitVec.ofNat 4 rest.length, out := out } := by
  obtain ⟨-, -, hcount, hvalue⟩ := (unfinished_fixedCode (hdec.kind_eq.trans hk)).1 hrest
  simp only [Decoding, hk] at hdec
  obtain ⟨c, k, x, rfl⟩ := hdec
  simp [hcount, hvalue, ← hout]

/-! ### The end of the body -/

theorem Consumed.ended_done {c : Cause} (hf : w.fault = none) (hr : w.rest = []) : (w.ended c).fault = none := by
  simp [Consumed.ended, hf, hr]

theorem Consumed.ended_unfinished {c : Cause} (hf : w.fault = none) (hr : w.rest ≠ []) :
    (w.ended c).fault = some c := by
  simp [Consumed.ended, hf, hr]

theorem Consumed.ended_fault {c c' : Cause} (hf : w.fault = some c') : (w.ended c).fault = some c' := by
  simp [Consumed.ended, hf]

end

/-! ### The obligations -/

/-- Settles O42: the bits of the byte walk the trie, and `DAT` keeps what they leave. -/
theorem datWalksThePrefixCode : Obligations.DatWalksThePrefixCode := by
  unfold Obligations.DatWalksThePrefixCode
  intro arg s table path hp hk hv hT hwalk hinternal w hw
  obtain ⟨hok, hraise⟩ :=
    exec_dat_consumes hp (AtPath.unfinished ⟨hT, hwalk, hinternal⟩ hk) hv (State.consume_after_prefixCode hk hw)
  refine ⟨fun hf => ?_, fun c hf => ?_⟩
  · obtain ⟨t, hexec, hdec, hout, hrest⟩ := hok hf
    obtain ⟨k, hwalk', rfl⟩ := hdec.walked hk hrest hout
    exact ⟨k, hwalk', by rw [hexec, afterDat_eq_lookAhead hv]; rfl⟩
  · obtain rfl : c = .csDeadEnd := walkBits_fault (hw ▸ hf)
    exact ⟨rfl, hraise _ hf⟩

/-- Settles O43: the bits of the byte are cut into codewords, and `DAT` keeps the carried bits. -/
theorem datCutsTheFixedCode : Obligations.DatCutsTheFixedCode := by
  unfold Obligations.DatCutsTheFixedCode
  intro arg s table pending hp hk hv hD hrests hcount hvalue w hw
  obtain ⟨hok, hraise⟩ :=
    exec_dat_consumes hp (Carries.unfinished ⟨hD, hrests, hcount, hvalue⟩ hk) hv (State.consume_after_fixedCode hk hw)
  refine ⟨fun hf => ?_, fun c hf => ?_⟩
  · obtain ⟨t, hexec, hdec, hout, hrest⟩ := hok hf
    obtain rfl := hdec.cut hk hrest hout
    rw [hexec, afterDat_eq_lookAhead hv]
    rfl
  · obtain rfl : c = .csUnmapped := cutBits_fault (hw ▸ hf)
    exact ⟨rfl, hraise _ hf⟩

/-- Settles O44: the last bits walk the trie, and no bit is left exactly at the root. -/
theorem endFinishesThePrefixCode : Obligations.EndFinishesThePrefixCode := by
  unfold Obligations.EndFinishesThePrefixCode
  intro s table path hp hk hv hT hwalk hinternal w hw
  obtain ⟨hok, hraise⟩ := exec_endBody_consumes hp (AtPath.unfinished ⟨hT, hwalk, hinternal⟩ hk) hv
    (State.consume_after_prefixCode hk hw)
  rw [hk] at hok hraise
  refine ⟨fun hf hr => ?_, fun hf hr => hraise _ (Consumed.ended_unfinished hf hr), fun hf => ?_⟩
  · obtain ⟨t, hexec, hdec, hout, hrest⟩ := hok (Consumed.ended_done hf hr)
    obtain ⟨k, hwalk', rfl⟩ := hdec.walked hk hrest hout
    rw [walkTrie_nil, Option.some.injEq] at hwalk'
    obtain rfl : 0 = k := BitVec.eq_of_toNat_eq hwalk'
    exact hexec
  · obtain ⟨c, hc⟩ := Option.ne_none_iff_exists'.1 hf
    obtain rfl : c = .csDeadEnd := walkBits_fault (hw ▸ hc)
    exact hraise _ (Consumed.ended_fault hc)

/-- Settles O45: the last bits are cut into codewords, and the body is done exactly when no bit is carried. -/
theorem endFinishesTheFixedCode : Obligations.EndFinishesTheFixedCode := by
  unfold Obligations.EndFinishesTheFixedCode
  intro s table pending hp hk hv hD hrests hcount hvalue w hw
  obtain ⟨hok, hraise⟩ := exec_endBody_consumes hp (Carries.unfinished ⟨hD, hrests, hcount, hvalue⟩ hk) hv
    (State.consume_after_fixedCode hk hw)
  rw [hk] at hok hraise
  refine ⟨fun hf hr => ?_, fun hf hr => hraise _ (Consumed.ended_unfinished hf hr), fun hf => ?_⟩
  · obtain ⟨t, hexec, hdec, hout, hrest⟩ := hok (Consumed.ended_done hf hr)
    obtain rfl := hdec.cut hk hrest hout
    exact hexec
  · obtain ⟨c, hc⟩ := Option.ne_none_iff_exists'.1 hf
    obtain rfl : c = .csUnmapped := cutBits_fault (hw ▸ hc)
    exact hraise _ (Consumed.ended_fault hc)

end Sys2Proof.Machine
end

section
/-! PROOF. `decode_fixed` taken bit by bit (spec/42_body_stream.md R153; spec/44_fixed_demux.md R182 to R184): the whole
groups of a bit stream are the runs of bits that fill the carry register, and the bits left are those it holds at the
end. -/

namespace Sys2Proof.Machine

section

variable {table : List CodeEntry} {len : Nat}

/-! ### `cutBits` by groups -/

/-- Bits that do not fill the carry register are carried. -/
theorem cutBits_carry {pending bits : Bits} (out : List Sym) (rest : Bits) (h : pending.length + bits.length < len) :
    cutBits table len pending out (bits ++ rest) = cutBits table len (pending ++ bits) out rest := by
  induction bits generalizing pending with
  | nil => rw [List.append_nil, List.nil_append]
  | cons b bits ih =>
    rw [List.length_cons] at h
    have hlen : (pending ++ [b]).length = pending.length + 1 := by rw [List.length_append, List.length_singleton]
    rw [List.cons_append, cutBits, if_neg (by omega), ih (by omega), List.append_assoc, List.singleton_append]

/-- The bits of a whole group are carried up to the last one, which completes the codeword. -/
theorem cutBits_group {group : Bits} (out : List Sym) (rest : Bits) (hlen : 0 < len) (hg : group.length = len) :
    ∃ pending b, group = pending ++ [b] ∧
      cutBits table len [] out (group ++ rest) = cutBits table len pending out (b :: rest) := by
  obtain ⟨pending, b, rfl⟩ := (List.eq_nil_or_concat' group).resolve_left (List.ne_nil_of_length_pos (hg ▸ hlen))
  rw [List.length_append, List.length_singleton] at hg
  refine ⟨pending, b, rfl, ?_⟩
  rw [List.append_assoc, List.singleton_append, cutBits_carry out _ (by rw [List.length_nil]; omega), List.nil_append]

theorem cutBits_mapped {group : Bits} {sym : Sym} (out : List Sym) (rest : Bits) (hlen : 0 < len)
    (hg : group.length = len) (hsym : fixedSymbol table (bitsVal group) = some sym) :
    cutBits table len [] out (group ++ rest) = cutBits table len [] (out ++ [sym]) rest := by
  obtain ⟨pending, b, rfl, hcut⟩ := cutBits_group (table := table) out rest hlen hg
  rw [hcut, cutBits, if_pos hg, hsym]

theorem cutBits_unmapped {group : Bits} (out : List Sym) (rest : Bits) (hlen : 0 < len) (hg : group.length = len)
    (hsym : fixedSymbol table (bitsVal group) = none) :
    cutBits table len [] out (group ++ rest) = ⟨[], out, some .csUnmapped⟩ := by
  obtain ⟨pending, b, rfl, hcut⟩ := cutBits_group (table := table) out rest hlen hg
  rw [hcut, cutBits, if_pos hg, hsym]

/-! ### The whole groups of a bit stream -/

theorem wholeGroups_short {bits : Bits} (h : bits.length < len) : wholeGroups len bits = [] := by
  rw [wholeGroups, Nat.div_eq_of_lt h, List.range_zero, List.map_nil]

theorem wholeGroups_append {group : Bits} (rest : Bits) (hlen : 0 < len) (hg : group.length = len) :
    wholeGroups len (group ++ rest) = group :: wholeGroups len rest := by
  have hcount : (group ++ rest).length / len = rest.length / len + 1 := by
    rw [List.length_append, hg, Nat.add_div_left _ hlen]
  have hnext (i : Nat) : (group ++ rest).drop ((i + 1) * len) = rest.drop (i * len) := by
    rw [Nat.succ_mul, Nat.add_comm, ← hg, List.drop_length_add_append]
  have hfirst : ((group ++ rest).drop (0 * len)).take len = group := by
    rw [Nat.zero_mul, List.drop_zero, ← hg, List.take_left]
  rw [wholeGroups, hcount, List.range_succ_eq_map, List.map_cons, hfirst, List.map_map, wholeGroups]
  simp only [Function.comp_def, Nat.succ_eq_add_one, hnext]

/-- `decode_fixed` over the whole groups emits and raises what the carry register does bit by bit, and leaves in it the
bits behind the last whole group. -/
theorem decodeGroups_wholeGroups (hlen : 0 < len) (out : List Sym) (bits : Bits) :
    decodeGroups table out (wholeGroups len bits) =
        ⟨(cutBits table len [] out bits).out, (cutBits table len [] out bits).fault⟩ ∧
      ((cutBits table len [] out bits).fault = none →
        (cutBits table len [] out bits).rest.length = bits.length % len) := by
  by_cases hshort : bits.length < len
  · have hcut : cutBits table len [] out bits = ⟨bits, out, none⟩ := by
      have hcarry := cutBits_carry (table := table) (pending := []) out [] (by simpa using hshort)
      rwa [List.append_nil, List.nil_append] at hcarry
    rw [wholeGroups_short hshort, hcut, Nat.mod_eq_of_lt hshort]
    exact ⟨rfl, fun _ => rfl⟩
  · have hg : (bits.take len).length = len := List.length_take_of_le (Nat.not_lt.1 hshort)
    have hmod : bits.length % len = (bits.drop len).length % len := by
      rw [List.length_drop, Nat.mod_eq_sub_mod (Nat.not_lt.1 hshort)]
    rw [hmod, ← List.take_append_drop len bits, wholeGroups_append _ hlen hg, decodeGroups]
    cases hsym : fixedSymbol table (bitsVal (bits.take len)) with
    | none =>
      rw [cutBits_unmapped out _ hlen hg hsym]
      exact ⟨rfl, nofun⟩
    | some sym =>
      rw [cutBits_mapped out _ hlen hg hsym, List.take_append_drop]
      exact decodeGroups_wholeGroups hlen (out ++ [sym]) (bits.drop len)
termination_by bits.length
decreasing_by rw [List.length_drop]; omega

/-- `decode_fixed` is `cutBits` from an empty carry register, with the end check of R151. -/
theorem decodeFixed_eq_cutBits (hlen : 0 < len) (bits : Bits) :
    decodeFixed table len bits = (cutBits table len [] [] bits).ended .csPartialCode := by
  obtain ⟨hgroups, hrest⟩ := decodeGroups_wholeGroups (table := table) hlen [] bits
  unfold decodeFixed Consumed.ended
  rw [hgroups]
  cases hf : (cutBits table len [] [] bits).fault with
  | some c => simp
  | none =>
    rw [← hrest hf]
    by_cases hnil : (cutBits table len [] [] bits).rest = [] <;> simp [hnil]

end

/-- `decode_prefix` is `walkBits` from the root, with the end check of R151. -/
theorem decodePrefix_eq_walkBits (table : List CodeEntry) (bits : Bits) :
    decodePrefix table bits = (walkBits table [] [] bits).ended .csMidCodeword := by
  unfold decodePrefix Consumed.ended
  cases hf : (walkBits table [] [] bits).fault <;> simp [hf]

end Sys2Proof.Machine
end

section
/-! PROOF. Whole bodies (spec/42_body_stream.md R152, R153): the bits of a body are those that its `DAT`s and its `END`
give to the decoder, so that the commands end in what R153 makes of the bit stream; a binary body begins with its
padding byte and one byte held back. -/

namespace Sys2Proof.Machine

/-! ### Commands after a fault -/

theorem runCommands_in_fault {commands : List Instr} {s : State} (hs : s.phase = .fault)
    (h : ∀ i ∈ commands, i ≠ .rst) : runCommands commands s = .next s := by
  induction commands with
  | nil => rfl
  | cons i rest ih =>
    rw [runCommands_cons (exec_in_fault hs (h i List.mem_cons_self))]
    exact ih fun j hj => h j (List.mem_cons_of_mem i hj)

/-- The commands of a body, from any byte of it on. -/
def streamCommands (body : List Byte) : List Instr := body.map Instr.dat ++ [.endBody]

theorem ne_rst_of_mem_streamCommands {body : List Byte} {i : Instr} (h : i ∈ streamCommands body) : i ≠ .rst := by
  rintro rfl
  simp [streamCommands] at h

theorem streamCommands_cons (B : Byte) (body : List Byte) :
    streamCommands (B :: body) = .dat B :: streamCommands body := rfl

/-- A fault of a command of the body is what the host sees at its end (R81, R246). -/
theorem observed_runCommands_fault {i : Instr} {commands : List Instr} {s : State} {code : BitVec 8} {out : List Sym}
    (hfault : FaultsWith (exec i s) code out s) (h : ∀ j ∈ commands, j ≠ .rst) :
    observed (runCommands (i :: commands) s) = some ⟨out, .fault, code⟩ := by
  obtain ⟨t, hexec, hphase, hcause, hout, -⟩ := hfault
  rw [runCommands_cons hexec, runCommands_in_fault hphase h, observed, State.observe, hphase, hcause, hout]

/-! ### The bit stream of the rest of a body -/

/-- The bits that are still to be given to the decoder: in `BINARY` format those of the byte held come first (R146,
R148, R152). -/
def State.streamBits (s : State) (body : List Byte) : Bits :=
  match s.fmt with
  | .text => textBits body
  | .binary => dataBits s.p.toNat (s.hold :: body)

/-- Phase `RUN` with the bits `pending` of an unfinished codeword taken, and in `BINARY` format a byte held. -/
structure Streaming (table : List CodeEntry) (s : State) (pending : Bits) : Prop where
  run        : s.phase = .run
  noFault    : s.cause = 0
  unfinished : Unfinished table s pending
  held       : s.fmt = .binary → s.pvalid = true ∧ s.holdv = true

section

variable {table : List CodeEntry} {s t : State} {pending rest : Bits}

/-- `END` gives the decoder the bits that are left. -/
theorem Streaming.streamBits_nil (h : Streaming table s pending) : s.streamBits [] = endBits s := by
  unfold State.streamBits
  cases hf : s.fmt with
  | text => simp [endBits, hf, textBits]
  | binary =>
    obtain ⟨hv, hh⟩ := h.held hf
    simp [endBits, hf, hv, hh, dataBits]

/-- `DAT` gives the decoder the next bits, and after it the others are left. -/
theorem Streaming.streamBits_cons (h : Streaming table s pending) (hdec : Decoding s t) (B : Byte) (body : List Byte) :
    s.streamBits (B :: body) = datBits s B ++ (t.lookAhead B).streamBits body := by
  rw [hdec.frame]
  show s.streamBits (B :: body) = datBits s B ++ (s.lookAhead B).streamBits body
  have hfmt : (s.lookAhead B).fmt = s.fmt := rfl
  unfold State.streamBits
  rw [hfmt]
  cases hf : s.fmt with
  | text => cases hb : textBit B <;> simp [datBits, hf, textBits, hb]
  | binary =>
    obtain ⟨hv, hh⟩ := h.held hf
    have hbits : datBits s B = usableBits s.hold 8 := by simp [datBits, hf, hv, hh]
    have hhold : (s.lookAhead B).hold = B := by simp [State.lookAhead, hf]
    have hpad : (s.lookAhead B).p = s.p := rfl
    simp only [hbits, hhold, hpad]
    exact dataBits_cons (.inl (List.cons_ne_nil B body))

theorem Streaming.dat (h : Streaming table s pending) (hdec : Decoding s t) (hrest : Unfinished table t rest)
    (B : Byte) : Streaming table (t.lookAhead B) rest := by
  refine ⟨?_, ?_, hrest, fun hf => ?_⟩
  · rw [hdec.frame]; exact h.run
  · rw [hdec.frame]; exact h.noFault
  · have hf' : t.fmt = .binary := hf
    refine ⟨?_, by simp [State.lookAhead, hf']⟩
    rw [hdec.frame]; exact (h.held (hdec.fmt_eq ▸ hf')).1

/-! ### The body -/

/-- `END` ends in what R153 makes of the bits left. -/
theorem Streaming.observed_endBody (h : Streaming table s pending) :
    observed (runCommands (streamCommands []) s) =
      some ((s.consume table pending s.out (s.streamBits [])).ended s.kind.endCause).observation := by
  obtain ⟨hdone, hfault⟩ := exec_endBody_consumes h.run h.unfinished h.held rfl
  rw [h.streamBits_nil]
  cases hend : ((s.consume table pending s.out (endBits s)).ended s.kind.endCause).fault with
  | some c =>
    rw [Decoded.observation, hend]
    exact observed_runCommands_fault (commands := []) (hfault c hend) nofun
  | none =>
    obtain ⟨t, hexec, hdec, hout, -⟩ := hdone hend
    have hcause : t.cause = 0 := by rw [hdec.frame]; exact h.noFault
    rw [Decoded.observation, hend]
    show observed (runCommands [.endBody] s) = _
    rw [runCommands_cons hexec]
    show some (⟨t.out, .done, t.cause⟩ : Observation) = _
    rw [hout, hcause]
    rfl

/-- The rest of a body ends in what R153 makes of its bits. -/
theorem Streaming.observed_stream (h : Streaming table s pending) (body : List Byte) :
    observed (runCommands (streamCommands body) s) =
      some ((s.consume table pending s.out (s.streamBits body)).ended s.kind.endCause).observation := by
  induction body generalizing s pending with
  | nil => exact h.observed_endBody
  | cons B body ih =>
    have hv (hf : s.fmt = .binary) : s.pvalid = true := (h.held hf).1
    obtain ⟨hok, hfault⟩ := exec_dat_consumes (arg := B) h.run h.unfinished hv rfl
    rw [streamCommands_cons]
    cases hw : (s.consume table pending s.out (datBits s B)).fault with
    | some c =>
      rw [h.streamBits_cons (Decoding.refl s), State.consume_append, Consumed.andThen_some hw, Decoded.observation,
        Consumed.ended_fault hw]
      exact observed_runCommands_fault (hfault c hw) fun i => ne_rst_of_mem_streamCommands
    | none =>
      obtain ⟨t, hexec, hdec, hout, hrest⟩ := hok hw
      have hnext := ih (h.dat hdec hrest B)
      have hconsume : (t.lookAhead B).consume table = s.consume table := hdec.consume_eq
      have hkind : (t.lookAhead B).kind = s.kind := hdec.kind_eq
      have hout' : (t.lookAhead B).out = (s.consume table pending s.out (datBits s B)).out := hout
      rw [hconsume, hkind, hout'] at hnext
      rw [h.streamBits_cons hdec, State.consume_append, Consumed.andThen_none hw, runCommands_cons hexec, hnext]

/-! ### The beginning of the body -/

/-- What R153 makes of a bit stream, from the state that `BLD` leaves. -/
def State.decodeBits (table : List CodeEntry) (s : State) (bits : Bits) : Decoded :=
  (s.consume table [] [] bits).ended s.kind.endCause

/-- A padding count of at most 7 fits into `P` (R34, R144). -/
theorem toNat_padding {pad : Byte} (h : pad.toNat ≤ 7) : (pad.extractLsb' 0 3).toNat = pad.toNat := by
  rw [BitVec.extractLsb'_toNat, Nat.shiftRight_zero]
  omega

/-- `P` holds 0 exactly for the padding count 0. -/
theorem padding_eq_zero {pad : Byte} (h : pad.toNat ≤ 7) : pad.extractLsb' 0 3 = 0 ↔ pad = 0 := by
  rw [← BitVec.toNat_inj, ← BitVec.toNat_inj, toNat_padding h]
  rfl

/-- A binary body whose padding byte is its only byte (R150). -/
theorem observed_noData {pad : Byte} (hp : s.phase = .run) (hcause : s.cause = 0) (hf : s.fmt = .binary)
    (hh : s.holdv = false) (h : Unfinished table s []) (hout : s.out = []) (hpad : pad.toNat ≤ 7) :
    observed (runCommands (streamCommands []) (s.setPadding pad)) =
      some (if pad = 0 then s.decodeBits table [] else ⟨[], some .csPaddingNoData⟩).observation := by
  have hrun : (s.setPadding pad).phase = .run := hp
  have hzero : (s.setPadding pad).p = 0 ↔ pad = 0 := padding_eq_zero hpad
  have hlast := lastByte_noData (s := s.setPadding pad) hf rfl hh
  simp only [ne_eq, hzero] at hlast
  by_cases h0 : pad = 0
  · rw [if_neg (not_not.2 h0)] at hlast
    have hcheck : (s.setPadding pad).endCheck = none := h.endCheck.trans (if_pos rfl)
    have hexec := exec_endBody_done hrun hlast hcheck
    have hempty : s.decodeBits table [] = ⟨[], none⟩ := by rw [State.decodeBits, State.consume_nil]; rfl
    rw [if_pos h0, hempty]
    show observed (runCommands [.endBody] _) = some ⟨[], .done, 0⟩
    rw [runCommands_cons hexec, ← hout, ← hcause]
    rfl
  · rw [if_pos h0] at hlast
    have hfault := exec_endBody_lastByte_raises hrun hlast
    rw [State.setPadding_out, hout] at hfault
    rw [if_neg h0]
    exact observed_runCommands_fault (commands := []) hfault nofun

/-- A text body, from the state that `BLD` leaves (R142, R152). -/
theorem observed_textBody (hp : s.phase = .run) (hcause : s.cause = 0) (hf : s.fmt = .text) (h : Unfinished table s [])
    (hout : s.out = []) (body : List Byte) :
    observed (runCommands (streamCommands body) s) = some (s.decodeBits table (textBits body)).observation := by
  have hs : Streaming table s [] := ⟨hp, hcause, h, fun hb => nomatch hf.symm.trans hb⟩
  have hbits : s.streamBits body = textBits body := by simp only [State.streamBits, hf]
  rw [hs.observed_stream body, hout, hbits]
  rfl

/-- A binary body whose first two bytes have been taken (R144 to R148). -/
theorem observed_binaryData {pad : Byte} (hp : s.phase = .run) (hcause : s.cause = 0) (hf : s.fmt = .binary)
    (h : Unfinished table s []) (hout : s.out = []) (hpad : pad.toNat ≤ 7) (B : Byte) (data : List Byte) :
    observed (runCommands (streamCommands data) ((s.setPadding pad).holdByte B)) =
      some (s.decodeBits table (dataBits pad.toNat (B :: data))).observation := by
  have hs : Streaming table ((s.setPadding pad).holdByte B) [] := ⟨hp, hcause, h, fun _ => ⟨rfl, rfl⟩⟩
  have hbits : ((s.setPadding pad).holdByte B).streamBits data = dataBits pad.toNat (B :: data) := by
    have hf' : ((s.setPadding pad).holdByte B).fmt = .binary := hf
    simp only [State.streamBits, hf', State.holdByte_p, State.holdByte_hold, State.setPadding_p, toNat_padding hpad]
  rw [hs.observed_stream data, hbits, State.holdByte_out, State.setPadding_out, hout]
  rfl

/-- Every body, from the state that `BLD` leaves. -/
theorem observed_body (hp : s.phase = .run) (hcause : s.cause = 0) (h : Unfinished table s []) (hv : s.pvalid = false)
    (hh : s.holdv = false) (hout : s.out = []) (body : List Byte) :
    observed (runCommands (streamCommands body) s) =
      some (decodeBody s.fmt (s.decodeBits table) body).observation := by
  cases hf : s.fmt with
  | text => exact observed_textBody hp hcause hf h hout body
  | binary =>
    cases body with
    | nil =>
      have hfault := exec_endBody_lastByte_raises hp (lastByte_noPadding hf hv)
      rw [hout] at hfault
      exact observed_runCommands_fault (commands := []) hfault nofun
    | cons pad data =>
      rw [decodeBody, streamCommands_cons]
      by_cases hpad : 7 < pad.toNat
      · rw [if_pos hpad, ← hout]
        exact observed_runCommands_fault (exec_dat_badPadding hp hf hv hpad) fun i => ne_rst_of_mem_streamCommands
      · have hle : pad.toNat ≤ 7 := Nat.not_lt.1 hpad
        rw [if_neg hpad, runCommands_cons (exec_dat_padding hp hf hv hle)]
        cases data with
        | nil =>
          rw [if_pos rfl]
          exact observed_noData hp hcause hf hh h hout hle
        | cons B data =>
          have hfirst : exec (.dat B) (s.setPadding pad) = .next ((s.setPadding pad).holdByte B) :=
            exec_dat_firstData B hp hf rfl hh
          rw [if_neg (List.cons_ne_nil B data), streamCommands_cons, runCommands_cons hfirst]
          exact observed_binaryData hp hcause hf h hout hle B data

end

/-! ### The obligations -/

/-- Settles O48: the walker stands at the root after `BLD`, and `decode_prefix` is its walk. -/
theorem prefixSessionIsDecodePrefix : Obligations.PrefixSessionIsDecodePrefix := by
  unfold Obligations.PrefixSessionIsDecodePrefix
  intro s table body hp hcause hk hT hcursor hv hh hout
  have hroot : AtPath table s [] := ⟨hT, by rw [hcursor]; rfl, hT.nodeView_root⟩
  have hdecode : decodePrefix table = s.decodeBits table := by
    funext bits
    rw [decodePrefix_eq_walkBits, State.decodeBits, State.consume_prefixCode hk, hk, Kind.endCause]
  rw [hdecode]
  exact observed_body hp hcause (hroot.unfinished hk) hv hh hout body

/-- Settles O49: the carry register is empty after `BLD`, and `decode_fixed` is the cut of the bits it takes. -/
theorem fixedSessionIsDecodeFixed : Obligations.FixedSessionIsDecodeFixed := by
  unfold Obligations.FixedSessionIsDecodeFixed
  intro s table body hp hcause hk hD hcarry hccnt hv hh hout
  obtain ⟨hlen, hle, -⟩ := hD.lengths
  have hempty : Carries table s [] := by
    refine ⟨hD, ⟨by rw [hccnt]; exact hlen, hle, ?_⟩, by rw [hccnt]; rfl, by rw [hcarry]; rfl⟩
    rw [hcarry, hccnt]
    decide
  have hdecode : decodeFixed table s.l.toNat = s.decodeBits table := by
    funext bits
    rw [decodeFixed_eq_cutBits hlen, State.decodeBits, State.consume_fixedCode hk, hk, Kind.endCause]
  rw [hdecode]
  exact observed_body hp hcause (hempty.unfinished hk) hv hh hout body

end Sys2Proof.Machine
end

section
/-! PROOF. The walker along codewords (spec/43_prefix_walk.md R171, R173): what `PSTEP` does where the abstract
trie is undefined, a leaf, or internal, and that the bits of a codeword lead from the root to its leaf and back. -/

namespace Sys2Proof.Machine

/-! ### Codewords in the abstract trie -/

section

variable {node : List (Nat × TrieNode)} {nnode : Nat} {table : List CodeEntry} {e : CodeEntry}

/-- No path goes on past the end of a codeword: its leaf has no children (R28). -/
theorem TrieShape.walkTrie_past_codeword (hT : TrieShape node nnode table) (he : e ∈ table) (b : Bool) :
    walkTrie node 0 (e.code ++ [b]) = none := by
  obtain ⟨k, hk⟩ := Option.isSome_iff_exists.1 ((hT.paths e.code).2 ⟨e, he, List.prefix_rfl⟩)
  obtain ⟨n, hn, hleaf, -⟩ := hT.leaves _ _ hk
  obtain ⟨h0, -, h1, -⟩ := hT.leafShape k n ((hT.indices k).2 ⟨_, hk⟩) hn (hleaf.2 ⟨e, he, rfl⟩)
  have hchild : n.child b = none := by cases b <;> simp [TrieNode.child, h0, h1]
  rw [walkTrie_append, hk, Option.bind_some, walkTrie_cons hn, hchild, Option.bind_none]

/-- The codeword of an entry ends at a leaf that holds the entry's symbol (R29 item 3, R30). -/
theorem TrieShape.trieView_code (hT : TrieShape node nnode table) (he : e ∈ table) :
    trieView table e.code = some (.leaf e.sym) :=
  trieView_codeword ⟨e, he, rfl⟩ fun _ he' hcode =>
    congrArg CodeEntry.sym (List.inj_on_of_nodup_map hT.distinct he he' hcode.symm)

/-- Before its last bit a codeword passes internal nodes only: no codeword ends there (R29, R30). -/
theorem TrieShape.trieView_within_codeword (hT : TrieShape node nnode table) (he : e ∈ table) {path rest : Bits}
    {b : Bool} (hcode : path ++ b :: rest = e.code) : trieView table path = some .internal := by
  have hno : ¬ ∃ e' ∈ table, e'.code = path := by
    rintro ⟨e', he', rfl⟩
    have hnext := (hT.paths (e'.code ++ [b])).2 ⟨e, he, rest, by rw [List.append_assoc]; exact hcode⟩
    rw [hT.walkTrie_past_codeword he' b] at hnext
    cases hnext
  rw [trieView_no_codeword hno, if_pos ⟨e, he, _, hcode⟩]

/-- The root is internal, so no codeword is empty (R29 item 4). -/
theorem TrieShape.code_ne_nil (hT : TrieShape node nnode table) (he : e ∈ table) : e.code ≠ [] := by
  intro hnil
  have hleaf := hT.trieView_code he
  rw [hnil, ← trieIsTheAbstractTrie _ _ _ hT, hT.nodeView_root] at hleaf
  cases hleaf

end

/-! ### One bit, by what the abstract trie holds there -/

section

variable {s : State} {table : List CodeEntry} {path : Bits} {b : Bool}

theorem pstep_of_undefined (hT : TrieShape s.node s.nnode.toNat table)
    (hpath : walkTrie s.node 0 path = some s.cursor.toNat) (hv : trieView table (path ++ [b]) = none) :
    pstep b s = .raised .csDeadEnd s := by
  rcases pstep_follows_trie b hT hpath with ⟨-, h⟩ | ⟨_, hv', -⟩ | ⟨_, hv', -⟩
  · exact h
  · cases hv.symm.trans hv'
  · cases hv.symm.trans hv'

theorem pstep_of_leaf {sym : Sym} (hT : TrieShape s.node s.nnode.toNat table)
    (hpath : walkTrie s.node 0 path = some s.cursor.toNat) (hv : trieView table (path ++ [b]) = some (.leaf sym)) :
    pstep b s = .ok () { s with out := s.out ++ [sym], cursor := 0 } := by
  rcases pstep_follows_trie b hT hpath with ⟨hv', -⟩ | ⟨_, hv', h⟩ | ⟨_, hv', -⟩
  · cases hv.symm.trans hv'
  · cases hv.symm.trans hv'
    exact h
  · cases hv.symm.trans hv'

theorem pstep_of_internal (hT : TrieShape s.node s.nnode.toNat table)
    (hpath : walkTrie s.node 0 path = some s.cursor.toNat) (hv : trieView table (path ++ [b]) = some .internal) :
    ∃ k : BitVec 16, walkTrie s.node 0 (path ++ [b]) = some k.toNat ∧ pstep b s = .ok () { s with cursor := k } := by
  rcases pstep_follows_trie b hT hpath with ⟨hv', -⟩ | ⟨_, hv', -⟩ | ⟨k, -, hk, h⟩
  · cases hv.symm.trans hv'
  · cases hv.symm.trans hv'
  · exact ⟨k, hk, h⟩

end

/-! ### Codewords -/

/-- The bits left of a codeword, from the node of the bits already taken: they emit its symbol and end at the root. -/
theorem forEach_pstep_rest_of_codeword {s : State} {table : List CodeEntry} {e : CodeEntry} {path rest : Bits}
    (hT : TrieShape s.node s.nnode.toNat table) (he : e ∈ table) (hcode : path ++ rest = e.code) (hne : rest ≠ [])
    (hpath : walkTrie s.node 0 path = some s.cursor.toNat) :
    forEach pstep rest s = .ok () { s with out := s.out ++ [e.sym], cursor := 0 } := by
  induction rest generalizing s path with
  | nil => exact absurd rfl hne
  | cons b bits ih =>
    have htaken : (path ++ [b]) ++ bits = e.code := by rw [List.append_assoc]; exact hcode
    rw [forEach_cons]
    cases bits with
    | nil =>
      have hleaf : trieView table (path ++ [b]) = some (.leaf e.sym) := by rw [hcode]; exact hT.trieView_code he
      rw [pstep_of_leaf hT hpath hleaf]
      rfl
    | cons c bits =>
      obtain ⟨k, hk, hstep⟩ := pstep_of_internal hT hpath (hT.trieView_within_codeword he htaken)
      rw [hstep, Result.bind_ok]
      exact ih (s := { s with cursor := k }) hT htaken (List.cons_ne_nil _ _) hk

/-- The codewords of table entries one after another, from the root (R173). -/
theorem forEach_pstep_codewords {s : State} {table entries : List CodeEntry}
    (hT : TrieShape s.node s.nnode.toNat table) (hroot : s.cursor = 0) (hmem : ∀ e ∈ entries, e ∈ table) :
    forEach pstep (entries.flatMap CodeEntry.code) s = .ok () { s with out := s.out ++ entries.map CodeEntry.sym } := by
  induction entries generalizing s with
  | nil => simp
  | cons e entries ih =>
    obtain ⟨he, hmem⟩ := List.forall_mem_cons.1 hmem
    rw [List.flatMap_cons, forEach_append, forEach_pstep_rest_of_codeword (path := []) hT he rfl (hT.code_ne_nil he)
      (by rw [hroot]; rfl), Result.bind_ok, ih (s := { s with out := s.out ++ [e.sym], cursor := 0 }) hT rfl hmem]
    simp [hroot]

/-- Settles O35: one bit by the three things that the abstract trie can hold, and the codewords by induction over the
entries, each by induction over its bits. -/
theorem pstepFollowsTheAbstractTrie : Obligations.PstepFollowsTheAbstractTrie := by
  unfold Obligations.PstepFollowsTheAbstractTrie
  exact ⟨fun s table path b hT hpath _ => ⟨pstep_of_undefined hT hpath, fun _ => pstep_of_leaf hT hpath,
    pstep_of_internal hT hpath⟩, fun s table entries hT hroot hmem => forEach_pstep_codewords hT hroot hmem⟩

end Sys2Proof.Machine
end

section
/-! PROOF. The demultiplexer (spec/44_fixed_demux.md R181 to R184, R186): what one bit does to the carry register, and
the bytes that are cut where a codeword begins. -/

namespace Sys2Proof.Machine

/-! ### One bit -/

/-- The carry register between two commands has room for one more bit (R37, R185). -/
theorem CarryRests.shifted_carry {s : State} (h : CarryRests s) (b : Bool) :
    (s.carry <<< 1) ||| BitVec.ofNat 8 b.toNat = BitVec.ofNat 8 (2 * s.carry.toNat + b.toNat) := by
  obtain ⟨hcount, hl, hcarry⟩ := h
  have hcount7 : s.ccnt.toNat ≤ 7 := by have : s.l.toNat ≤ 8 := hl; omega
  have hfits : s.carry.toNat < 2 ^ 7 := hcarry.trans_le (Nat.pow_le_pow_right (by decide) hcount7)
  rw [← toNat_shift_bit b hfits, BitVec.ofNat_toNat, BitVec.setWidth_eq]

/-- A bit that leaves the codeword incomplete (R182). -/
theorem fstep_of_incomplete {s : State} (b : Bool) (h : CarryRests s) (hlt : s.ccnt.toNat + 1 < s.l.toNat) :
    fstep b s = .ok () { s with carry := BitVec.ofNat 8 (2 * s.carry.toNat + b.toNat), ccnt := s.ccnt + 1 } := by
  obtain ⟨-, hl, -⟩ := id h
  have hone : (s.ccnt + 1).toNat = s.ccnt.toNat + 1 := toNat_ccnt_add (t := 1) hl hlt.le
  rw [fstep, h.shifted_carry b]
  exact completeCarry_partial (by show (s.ccnt + 1).toNat ≠ s.l.toNat; omega)

/-- A bit that completes the codeword: its value leaves the carry register and is looked up (R182). -/
theorem fstep_of_complete {s : State} (b : Bool) (h : CarryRests s) (hfull : s.ccnt.toNat + 1 = s.l.toNat) :
    fstep b s = lookupSymbol (BitVec.ofNat 8 (2 * s.carry.toNat + b.toNat)) { s with carry := 0, ccnt := 0 } := by
  obtain ⟨-, hl, -⟩ := id h
  have hone : (s.ccnt + 1).toNat = s.ccnt.toNat + 1 := toNat_ccnt_add (t := 1) hl hfull.le
  rw [fstep, h.shifted_carry b]
  exact if_pos (BitVec.eq_of_toNat_eq (hone.trans hfull))

/-- `LOOKUP` of a value whose element is known (R183). -/
theorem lookupSymbol_of_read {s : State} {v : Nat} {d : DemuxElem} (h : Memory.read demuxSpace s.demux v = .ok d) :
    lookupSymbol (BitVec.ofNat 8 v) s = if d.valid then .ok () (s.emit d.sym) else .raised .csUnmapped s := by
  have hv : (BitVec.ofNat 8 v).toNat = v := Nat.mod_eq_of_lt (Memory.read_ok_lt h)
  obtain ⟨d', hd', hanswer⟩ := lookupSymbol_eq (BitVec.ofNat 8 v) s
  rw [hv, h] at hd'
  cases hd'
  exact hanswer

/-- Settles O36: the bit leaves the codeword incomplete or completes it, and then its element is valid or not. -/
theorem fstepTakesOneBit : Obligations.FstepTakesOneBit := by
  unfold Obligations.FstepTakesOneBit
  intro s b d h
  refine ⟨fstep_of_incomplete b h, fun hfull hread => ?_⟩
  rw [fstep_of_complete b h hfull, lookupSymbol_of_read (s := { s with carry := 0, ccnt := 0 }) hread]
  exact ⟨fun hvalid => if_pos hvalid, fun hinvalid => ⟨_, if_neg (by simp [hinvalid]), rfl⟩⟩

/-! ### One byte -/

/-- Settles O37: `fbyte_eq_forEach`, for the bytes with a usable bit. -/
theorem fbyteIsItsFsteps : Obligations.FbyteIsItsFsteps := by
  unfold Obligations.FbyteIsItsFsteps
  intro s B u h _ hu
  exact fbyte_eq_forEach h hu

theorem bitField_whole (B : Byte) : bitField B 0 8 = B := by
  have hmod : B.toNat % 2 ^ 8 = B.toNat := Nat.mod_eq_of_lt B.isLt
  rw [bitField, Nat.sub_zero, Nat.sub_self, Nat.shiftRight_zero, hmod, BitVec.ofNat_toNat, BitVec.setWidth_eq]

/-- A byte whose usable bits are one codeword (R181, R186). -/
theorem fbyte_of_codeword {B : Byte} {u : Nat} {s : State} (hccnt : s.ccnt = 0) (hu : 1 ≤ u) (hl : s.l.toNat = u) :
    fbyte B u s = lookupSymbol (bitField B 0 u) s := by
  obtain ⟨fuel, rfl⟩ : ∃ fuel, u = fuel + 1 := ⟨u - 1, by omega⟩
  rw [fbyte, fbyteLoop, if_pos (by omega)]
  simp only [hccnt, ne_eq, not_true, if_false, Nat.sub_zero, hl, Nat.le_refl, if_true]
  calc (lookupSymbol (bitField B 0 (fuel + 1)) s).bind (fun _ t => fbyteLoop B (fuel + 1) fuel (0 + (fuel + 1)) t)
    _ = (lookupSymbol (bitField B 0 (fuel + 1)) s).bind fun _ t => .ok () t :=
      Result.bind_congr fun _ t _ => fbyteLoop_end t (by omega)
    _ = lookupSymbol (bitField B 0 (fuel + 1)) s := Result.bind_ok_self _

/-- The state with the first `u` bits of `B` in the carry register (R181). -/
def State.carryField (B : Byte) (u : Nat) (s : State) : State :=
  { s with carry := bitField B 0 u, ccnt := BitVec.ofNat 4 u }

theorem State.carryField_ccnt {u : Nat} (B : Byte) (s : State) (hu : u < 8) : (s.carryField B u).ccnt.toNat = u := by
  rw [State.carryField, BitVec.toNat_ofNat]
  omega

/-- A byte with fewer usable bits than a codeword has: all of them are carried (R181, R186). -/
theorem fbyte_of_short {B : Byte} {u : Nat} {s : State} (hccnt : s.ccnt = 0) (hu : 1 ≤ u) (hl : u < s.l.toNat) :
    fbyte B u s = .ok () (s.carryField B u) := by
  obtain ⟨fuel, rfl⟩ : ∃ fuel, u = fuel + 1 := ⟨u - 1, by omega⟩
  rw [fbyte, fbyteLoop, if_pos (by omega)]
  simp only [hccnt, ne_eq, not_true, if_false, Nat.sub_zero, if_neg (Nat.not_le.2 hl), State.carryField]

/-! ### `END` inside a codeword -/

theorem endCheck_of_carried {s : State} (hk : s.kind = .fixedCode) (h : s.ccnt.toNat ≠ 0) :
    s.endCheck = some .csPartialCode := by
  have hcarried : s.ccnt ≠ 0 := fun h0 => h (by rw [h0]; rfl)
  simp only [State.endCheck, hk, if_pos hcarried]

/-- `END` up to its end check, where the held byte has fewer usable bits than a codeword (R148, R149). -/
theorem lastByte_of_short {s : State} (hk : s.kind = .fixedCode) (hf : s.fmt = .binary) (hv : s.pvalid = true)
    (hh : s.holdv = true) (hccnt : s.ccnt = 0) (hl : 8 - s.p.toNat < s.l.toNat) :
    lastByte s = .ok () (s.carryField s.hold (8 - s.p.toNat)).releaseHold := by
  have hu : 1 ≤ 8 - s.p.toNat := by omega
  simp [lastByte, hf, hv, hh, byteStep, hk, fbyte_of_short hccnt hu hl]

/-- Settles O38: a whole byte is one codeword, and the bits of a shorter one are carried, where `END` counts them. -/
theorem eightBitCodesAreBytes : Obligations.EightBitCodesAreBytes := by
  unfold Obligations.EightBitCodesAreBytes
  intro s B hl hccnt
  have hl8 : s.l.toNat = 8 := by rw [hl]; rfl
  refine ⟨?_, fun u hu hu8 => ?_, fun hp hk hf hv hh hpad => ?_⟩
  · rw [fbyte_of_codeword hccnt (by decide) hl8, bitField_whole]
  · exact ⟨_, fbyte_of_short hccnt hu (by omega), rfl, State.carryField_ccnt B s hu8⟩
  · have hp0 : s.p.toNat ≠ 0 := fun h0 => hpad (BitVec.eq_of_toNat_eq h0)
    have hcount := State.carryField_ccnt s.hold s (u := 8 - s.p.toNat) (by omega)
    have hcheck : (s.carryField s.hold (8 - s.p.toNat)).releaseHold.endCheck = some .csPartialCode :=
      endCheck_of_carried hk (by show (s.carryField s.hold _).ccnt.toNat ≠ 0; omega)
    exact exec_endBody_raises hp (endBodyBody_unfinished (lastByte_of_short hk hf hv hh hccnt (by omega)) hcheck)

end Sys2Proof.Machine
end

section
/-! PROOF. The alphabet header text (spec/48_host_reference.md R216 to R220): a number and its decimal digits, a symbol
and its token, an entry and its line, and a header and its lines; where the layout joins them, the body is what stands
behind those lines (R215, R280). -/

namespace Sys2Proof.Machine

/-! ### Decimal numbers -/

/-- The digit of a value below 10. -/
def digit (d : Nat) : Byte := BitVec.ofNat 8 (0x30 + d)

theorem toNat_digit {d : Nat} (h : d < 10) : (digit d).toNat = 0x30 + d := by
  rw [digit, BitVec.toNat_ofNat]
  omega

theorem digitValue_digit {base d : Nat} (hbase : 10 ≤ base) (h : d < 10) : digitValue base (digit d) = some d := by
  have hlow : 0x30 ≤ 0x30 + d ∧ 0x30 + d ≤ 0x39 := by omega
  have hd : d < base := by omega
  simp [digitValue, toNat_digit h, hlow, hd]

/-- The bytes of a decimal number are digits. -/
theorem mem_decimalDigits {fuel n : Nat} {b : Byte} (h : b ∈ decimalDigits fuel n) : ∃ d < 10, b = digit d := by
  fun_induction decimalDigits fuel n with
  | case1 => cases h
  | case2 _ n hlt => exact ⟨n, hlt, List.mem_singleton.1 h⟩
  | case3 _ n _ ih =>
    rcases List.mem_append.1 h with h | h
    · exact ih h
    · exact ⟨n % 10, Nat.mod_lt n (by decide), List.mem_singleton.1 h⟩

theorem decimalDigits_ne_nil {fuel n : Nat} (h : 0 < fuel) : decimalDigits fuel n ≠ [] := by
  fun_cases decimalDigits fuel n with
  | case1 => cases h
  | case2 => simp
  | case3 => simp

theorem decimal_ne_nil (n : Nat) : decimal n ≠ [] := decimalDigits_ne_nil n.succ_pos

/-- A number of two or more digits. -/
theorem decimal_of_ten_le {n : Nat} (h : 10 ≤ n) : ∃ digits b, digits ≠ [] ∧ decimal n = digits ++ [b] := by
  refine ⟨decimalDigits n (n / 10), digit (n % 10), decimalDigits_ne_nil (by omega), ?_⟩
  rw [decimal, decimalDigits, if_neg (by omega), digit]

/-- A byte that is no digit stands in no decimal number. -/
theorem not_mem_decimal {b : Byte} (h : b.toNat < 0x30 ∨ 0x39 < b.toNat) (n : Nat) : b ∉ decimal n := by
  intro hb
  obtain ⟨d, hd, rfl⟩ := mem_decimalDigits hb
  rw [toNat_digit hd] at h
  omega

/-- Another digit at the end. -/
theorem digitsValue_concat {base acc v d : Nat} {digits : List Byte} {b : Byte}
    (hv : digitsValue base acc digits = some v) (hd : digitValue base b = some d) :
    digitsValue base acc (digits ++ [b]) = some (base * v + d) := by
  fun_induction digitsValue base acc digits with
  | case1 acc => cases hv; simp [digitsValue, hd]
  | case2 acc c rest e hc ih => simpa [digitsValue, hc] using ih hv
  | case3 => cases hv

theorem digitsValue_decimalDigits {fuel n : Nat} (h : n < fuel) :
    digitsValue 10 0 (decimalDigits fuel n) = some n := by
  induction fuel generalizing n with
  | zero => cases h
  | succ fuel ih =>
    rw [decimalDigits]
    split
    · next hlt =>
      have hvalue := digitsValue_concat (acc := 0) (digits := []) rfl (digitValue_digit (base := 10) le_rfl hlt)
      rwa [Nat.mul_zero, Nat.zero_add] at hvalue
    · next hge =>
      have hlast := digitValue_digit (base := 10) le_rfl (Nat.mod_lt n (by decide : 10 > 0))
      have hvalue := digitsValue_concat (ih (by omega : n / 10 < fuel)) hlast
      rwa [Nat.div_add_mod] at hvalue

/-- A decimal number is read back (R216, R218). -/
theorem digitsValue_decimal (n : Nat) : digitsValue 10 0 (decimal n) = some n :=
  digitsValue_decimalDigits n.lt_succ_self

/-! ### Symbol tokens -/

/-- The six escapes are read back (R217, R218). -/
theorem escapedByte_of_escapeLetter {v letter : Byte} (h : escapeLetter v = some letter) :
    escapedByte letter = some v := by
  unfold escapeLetter at h
  split at h <;> cases h
  all_goals exact congrArg some (BitVec.eq_of_toNat_eq (Eq.symm ‹_›))

/-- Without an `x` a token is no hexadecimal literal (R218). -/
theorem numericLiteral_decimalDigits {token : List Byte} (hne : token ≠ []) (hx : 0x78 ∉ token) :
    numericLiteral token = digitsValue 10 0 token := by
  match token with
  | [] => exact absurd rfl hne
  | [_] => rfl
  | [b, c] =>
    have hc : ¬ (b = 0x30 ∧ c = 0x78) := by rintro ⟨-, rfl⟩; simp at hx
    exact if_neg hc
  | b :: c :: d :: rest =>
    have hc : ¬ (b = 0x30 ∧ c = 0x78) := by rintro ⟨-, rfl⟩; simp at hx
    exact if_neg hc

/-- Without a quote a token is no quoted symbol (R218). -/
theorem quotedSymbol_of_no_quote {token : List Byte} (h : 0x27 ∉ token) : quotedSymbol token = none := by
  unfold quotedSymbol
  split
  · exact if_neg (by rintro ⟨rfl, -⟩; simp at h)
  · exact if_neg (by rintro ⟨rfl, -⟩; simp at h)
  · rfl

/-- A token of two or more characters is no single character (R218). -/
theorem singleCharacter_concat {token : List Byte} (b : Byte) (h : token ≠ []) :
    singleCharacter (token ++ [b]) = none := by
  obtain ⟨c, rest, rfl⟩ := List.exists_cons_of_ne_nil h
  cases rest <;> rfl

theorem parseToken_quoted {token : List Byte} {v : Byte} (hsingle : singleCharacter token = none)
    (hquoted : quotedSymbol token = some v) : parseToken token = .ok v := by
  simp only [parseToken, hsingle, hquoted]

theorem parseToken_numeric {token : List Byte} {v : Byte} (hsingle : singleCharacter token = none)
    (hquoted : quotedSymbol token = none) (hliteral : numericLiteral token = some v.toNat) :
    parseToken token = .ok v := by
  have hle : v.toNat ≤ 255 := Nat.le_of_lt_succ v.isLt
  have hnumeric : numericSymbol token = some v := by simp [numericSymbol, hliteral, hle]
  simp only [parseToken, hsingle, hquoted, hnumeric]

/-- An unprintable symbol above 8 without an escape is written in decimal (R217, R218). -/
theorem parseToken_decimal {v : Byte} (h : 10 ≤ v.toNat) : parseToken (decimal v.toNat) = .ok v := by
  obtain ⟨digits, b, hne, hdec⟩ := decimal_of_ten_le h
  refine parseToken_numeric (hdec ▸ singleCharacter_concat b hne)
    (quotedSymbol_of_no_quote (not_mem_decimal (by decide) _)) ?_
  rw [numericLiteral_decimalDigits (decimal_ne_nil _) (not_mem_decimal (by decide) _), digitsValue_decimal]

/-- The values 1 to 8 are written in hexadecimal (R217, R218). -/
theorem parseToken_hexadecimal {v : Byte} (h : v.toNat ≤ 8) :
    parseToken [0x30, 0x78, 0x30, digit v.toNat] = .ok v := by
  refine parseToken_numeric rfl rfl ?_
  have hdigit := digitValue_digit (base := 16) (by decide) (Nat.lt_succ_of_le (Nat.le_succ_of_le h))
  have hvalue := digitsValue_concat (acc := 0) (digits := [0x30]) (v := 0) rfl hdigit
  rwa [Nat.mul_zero, Nat.zero_add] at hvalue

/-- The value 9 has an escape (R217). -/
theorem toNat_ne_nine {v : Byte} (h : escapeLetter v = none) : v.toNat ≠ 9 := by
  intro h9
  simp [escapeLetter, h9] at h

/-- The token of a symbol is read back (R217, R218). -/
theorem parseToken_symbolToken (v : Byte) : parseToken (symbolToken v) = .ok v := by
  unfold symbolToken
  split
  · next letter h =>
    exact parseToken_quoted rfl (escapedByte_of_escapeLetter h)
  · next h =>
    have h9 := toNat_ne_nine h
    split
    · next hv => simp [parseToken, singleCharacter, hv]
    · split
      · next hle => exact parseToken_hexadecimal hle
      · exact parseToken_decimal (by omega)

theorem symbolToken_ne_nil (v : Byte) : symbolToken v ≠ [] := by
  unfold symbolToken
  split
  · exact List.cons_ne_nil _ _
  · split
    · exact List.cons_ne_nil _ _
    · split
      · exact List.cons_ne_nil _ _
      · exact decimal_ne_nil _

/-! ### What is no whitespace -/

theorem isWhitespace_of_gt {b : Byte} (h : 0x20 < b.toNat) : isWhitespace b = false := by
  simp only [isWhitespace, Bool.or_eq_false_iff, Bool.and_eq_false_imp, decide_eq_false_iff_not, decide_eq_true_eq]
  omega

theorem decimal_visible {n : Nat} {b : Byte} (h : b ∈ decimal n) : 0x20 < b.toNat := by
  obtain ⟨d, hd, rfl⟩ := mem_decimalDigits h
  rw [toNat_digit hd]
  omega

theorem escapeLetter_visible {v letter : Byte} (h : escapeLetter v = some letter) : 0x20 < letter.toNat := by
  unfold escapeLetter at h
  split at h <;> cases h
  all_goals decide

theorem symbolToken_visible {v b : Byte} (h : b ∈ symbolToken v) : 0x20 < b.toNat := by
  unfold symbolToken at h
  split at h
  · next letter hv =>
    have hletter := escapeLetter_visible hv
    simp only [List.mem_cons, List.not_mem_nil, or_false] at h
    rcases h with rfl | rfl | rfl | rfl
    · decide
    · decide
    · exact hletter
    · decide
  · split at h
    · next hv =>
      rw [List.mem_singleton.1 h]
      simp only [isPrintable, Bool.and_eq_true, decide_eq_true_eq] at hv
      omega
    · split at h
      · next hle =>
        have hdigit := toNat_digit (d := v.toNat) (by omega)
        simp only [List.mem_cons, List.not_mem_nil, or_false] at h
        rcases h with rfl | rfl | rfl | rfl
        · decide
        · decide
        · decide
        · rw [digit] at hdigit; omega
      · exact decimal_visible h

/-- The character of a code bit (R61, R219). -/
theorem textBit_of_bit (b : Bool) : textBit (if b then 0x31 else 0x30) = some b := by cases b <;> rfl

theorem codewordToken_visible {code : Bits} {b : Byte} (h : b ∈ codewordToken code) : 0x20 < b.toNat := by
  obtain ⟨bit, -, rfl⟩ := List.mem_map.1 h
  cases bit <;> decide

theorem codewordToken_ne_nil {code : Bits} (h : code ≠ []) : codewordToken code ≠ [] := mt List.map_eq_nil_iff.1 h

/-! ### Entry lines -/

/-- The codeword token of an entry is read back (R219). -/
theorem parseCodeword_codewordToken (code : Bits) : parseCodeword (codewordToken code) = .ok code := by
  induction code with
  | nil => rfl
  | cons b code ih =>
    have hrest : codewordToken (b :: code) = (if b then 0x31 else 0x30) :: codewordToken code := rfl
    rw [hrest, parseCodeword, textBit_of_bit, ih]

/-- The two tokens of an entry with whitespace between and around them (R219). -/
theorem parseEntry_fields {e : CodeEntry} {before between after : List Byte}
    (hb : ∀ b ∈ before, isWhitespace b = true) (hm : ∀ b ∈ between, isWhitespace b = true)
    (ha : ∀ b ∈ after, isWhitespace b = true) (hmne : between ≠ []) (hcode : e.code ≠ []) :
    parseEntry (before ++ symbolToken e.sym ++ between ++ codewordToken e.code ++ after) = .ok e := by
  have hsplit := splitLine_fields hb hm ha (fun b h => isWhitespace_of_gt (symbolToken_visible (v := e.sym) h))
    (fun b h => isWhitespace_of_gt (codewordToken_visible (code := e.code) h)) (symbolToken_ne_nil e.sym)
    (codewordToken_ne_nil hcode) hmne
  rw [parseEntry, hsplit]
  simp only [parseCodeword_codewordToken, parseToken_symbolToken]

/-- A line of one token is not cut into two (R219). -/
theorem splitLine_one_token {before token after : List Byte} (hb : ∀ b ∈ before, isWhitespace b = true)
    (ha : ∀ b ∈ after, isWhitespace b = true) (ht : ∀ b ∈ token, isWhitespace b = false) (hne : token ≠ []) :
    splitLine (before ++ token ++ after) = none := by
  have hrev : (before ++ token ++ after).reverse.dropWhile isWhitespace = token.reverse ++ before.reverse := by
    rw [List.reverse_append, dropWhile_of_all (by simpa using ha), List.reverse_append,
      dropWhile_of_none (by simpa using ht) (by simpa using hne)]
  have hstop : (before.reverse.takeWhile fun b => !isWhitespace b) = [] := by
    refine List.takeWhile_eq_nil_iff.2 fun hpos => ?_
    have hfirst := hb _ (List.mem_reverse.1 (List.getElem_mem hpos))
    rw [List.get_eq_getElem, hfirst]
    decide
  have htake : ((token.reverse ++ before.reverse).takeWhile fun b => !isWhitespace b) = token.reverse := by
    rw [List.takeWhile_append_of_pos (by simpa using ht), hstop, List.append_nil]
  have htrim : trimmed before = [] := by
    have hall := dropWhile_of_all (r := []) hb
    rw [List.append_nil, List.dropWhile_nil] at hall
    rw [trimmed, hall]
    rfl
  simp only [splitLine, hrev, htake, List.drop_left, List.reverse_reverse, htrim, if_true]

/-- Settles O56: the whitespace around the tokens is cut off, and a line of one token is not cut into two. -/
theorem headerLinesAreWhitespaceDelimited : Obligations.HeaderLinesAreWhitespaceDelimited := by
  unfold Obligations.HeaderLinesAreWhitespaceDelimited
  intro e before between after hw hmne hcode
  simp only [List.mem_append, or_imp, forall_and] at hw
  obtain ⟨⟨hb, hm⟩, ha⟩ := hw
  refine ⟨parseEntry_fields hb hm ha hmne hcode, ?_⟩
  rw [parseEntry, splitLine_one_token hb ha (fun b h => isWhitespace_of_gt (symbolToken_visible h))
    (symbolToken_ne_nil e.sym)]

/-- The line of an entry is read back (R216, R219). -/
theorem parseEntry_entryLine {e : CodeEntry} (h : e.code ≠ []) : parseEntry (entryLine e) = .ok e := by
  have hfields := parseEntry_fields (e := e) (before := []) (between := [0x20]) (after := []) nofun
    (by decide) nofun (List.cons_ne_nil _ _) h
  simpa [entryLine] using hfields

/-! ### Headers -/

/-- The lines of the entries of a table, each with its terminator (R216). -/
def entryLines (table : List CodeEntry) : List Byte := table.flatMap fun e => entryLine e ++ [0x0A]

theorem entryLines_cons (e : CodeEntry) (table : List CodeEntry) :
    entryLines (e :: table) = entryLine e ++ 0x0A :: entryLines table := by
  simp [entryLines]

theorem newline_not_mem_decimal (n : Nat) : 0x0A ∉ decimal n := not_mem_decimal (by decide) n

theorem newline_not_mem_entryLine (e : CodeEntry) : 0x0A ∉ entryLine e := by
  have hnewline : ¬ 0x20 < (0x0A : Byte).toNat := by decide
  simp only [entryLine, List.mem_append, List.mem_cons, not_or]
  exact ⟨fun h => hnewline (symbolToken_visible h), by decide, fun h => hnewline (codewordToken_visible h)⟩

/-- A line is what stands before its terminator (R216). -/
theorem linesFrom_line {line : List Byte} (acc rest : List Byte) (h : 0x0A ∉ line) :
    linesFrom acc (line ++ 0x0A :: rest) = (acc ++ line) :: linesFrom [] rest := by
  induction line generalizing acc with
  | nil => simp [linesFrom]
  | cons b line ih =>
    obtain ⟨hb, hl⟩ := not_or.1 (mt List.mem_cons.2 h)
    rw [List.cons_append, linesFrom, if_neg (Ne.symm hb), ih _ hl, List.append_assoc, List.singleton_append]

theorem linesFrom_entryLines (table : List CodeEntry) : linesFrom [] (entryLines table) = table.map entryLine := by
  induction table with
  | nil => rfl
  | cons e table ih =>
    rw [entryLines_cons, linesFrom_line [] _ (newline_not_mem_entryLine e), ih, List.nil_append, List.map_cons]

/-- The count of line 1 is read back (R216). -/
theorem parseCount_decimal (n : Nat) : parseCount (decimal n) = .ok n := by
  have htrim : trimmed (decimal n) = decimal n := by
    simpa using trimmed_token (before := []) (after := []) nofun nofun
      (fun b h => isWhitespace_of_gt (decimal_visible h)) (decimal_ne_nil n)
  simp [parseCount, htrim, decimal_ne_nil, digitsValue_decimal]

/-- The lines of a table are read back where the count is their number, and refused where it is not (R220, D38). -/
theorem parseEntries_entryLines {table : List CodeEntry} (n : Nat) (h : ∀ e ∈ table, e.code ≠ []) :
    parseEntries n (table.map entryLine) = if n = table.length then .ok table else .error .malformedHeader := by
  induction table generalizing n with
  | nil => cases n <;> rfl
  | cons e table ih =>
    cases n with
    | zero => rfl
    | succ n =>
      obtain ⟨he, htable⟩ := List.forall_mem_cons.1 h
      rw [List.map_cons, parseEntries, parseEntry_entryLine he]
      simp only [ih n htable, List.length_cons, Nat.add_right_cancel_iff]
      by_cases hn : n = table.length
      · simp only [if_pos hn]
      · simp only [if_neg hn]

/-- A header with any count (R216 to R220). -/
theorem parseHeader_entryLines {table : List CodeEntry} (n : Nat) (h : ∀ e ∈ table, e.code ≠ []) :
    parseHeader (decimal n ++ 0x0A :: entryLines table) =
      if n = table.length then .ok table else .error .malformedHeader := by
  rw [parseHeader, linesFrom_line [] _ (newline_not_mem_decimal n), List.nil_append]
  simp only [parseCount_decimal, linesFrom_entryLines, parseEntries_entryLines n h]

/-- Settles O55: the count is the number of the lines. -/
theorem headerRoundTrip : Obligations.HeaderRoundTrip := by
  unfold Obligations.HeaderRoundTrip
  intro table h
  exact (parseHeader_entryLines table.length h).trans (if_pos rfl)

/-- Settles O57: the count is not the number of the lines. -/
theorem headerCountMustMatchTheLines : Obligations.HeaderCountMustMatchTheLines := by
  unfold Obligations.HeaderCountMustMatchTheLines
  intro table n h hn
  exact (parseHeader_entryLines n h).trans (if_neg hn)

/-! ### Where the body lives -/

/-- The lines of a table are cut off, and what stands behind them is kept (R280). -/
theorem cutLines_entryLines (table : List CodeEntry) (body : List Byte) :
    cutLines table.length (entryLines table ++ body) = (entryLines table, body) := by
  induction table with
  | nil => cases body <;> rfl
  | cons e table ih =>
    rw [entryLines_cons, List.append_assoc, List.cons_append, List.length_cons,
      cutLines_line _ (newline_not_mem_entryLine e), ih]

/-- A header is cut off before its body (R215, R280). -/
theorem cutHeader_headerText (table : List CodeEntry) (body : List Byte) :
    cutHeader (headerText table ++ body) = .ok (headerText table, body) := by
  have htext : headerText table = decimal table.length ++ 0x0A :: entryLines table := rfl
  have hfirst : ((headerText table ++ body).takeWhile fun b => b ≠ 0x0A) = decimal table.length := by
    have hstop : (0x0A :: (entryLines table ++ body)).takeWhile (fun b : Byte => b ≠ 0x0A) = [] := by simp
    rw [htext, List.append_assoc, List.cons_append, List.takeWhile_append_of_pos, hstop, List.append_nil]
    rintro b hb
    exact decide_eq_true fun h => newline_not_mem_decimal _ (h ▸ hb)
  rw [cutHeader, hfirst, htext]
  simp only [parseCount_decimal, List.append_assoc, List.cons_append,
    cutLines_line _ (newline_not_mem_decimal table.length), cutLines_entryLines]

/-- Settles O60: a joined stream is cut behind the header's last line. -/
theorem streamsGiveHeaderAndBodyBack : Obligations.StreamsGiveHeaderAndBodyBack := by
  unfold Obligations.StreamsGiveHeaderAndBodyBack
  intro layout fmt table body
  cases hj : layout.joins fmt with
  | true => simp [writeStreams, splitStreams, hj, cutHeader_headerText]
  | false => simp [writeStreams, splitStreams, hj]

end Sys2Proof.Machine
end

section
/-! PROOF. The tables of the reference producer (spec/48_host_reference.md R201 to R214, R231, R232): which entries the
lists of an input have, the codewords that the two builders give them, and the bits that a table gives an input. -/

namespace Sys2Proof.Machine

/-! ### The symbols of an input -/

theorem zipIdx_range (n : Nat) : (List.range n).zipIdx = (List.range n).map fun v => (v, v) :=
  List.ext_getElem (by simp) (by simp)

/-- The symbols of an input are the values with a count above 0, in ascending order (R201, R210). -/
theorem presentSymbols_eq (input : List Byte) :
    presentSymbols input =
      ((List.range 256).filter fun v => input.countP (fun b => b.toNat = v) > 0).map fun v =>
        ⟨BitVec.ofNat 8 v, input.countP fun b => b.toNat = v⟩ := by
  simp only [presentSymbols, frequencyTable, List.zipIdx_map, zipIdx_range, List.map_map, List.filter_map]
  rfl

theorem presentSymbols_values (input : List Byte) :
    (presentSymbols input).map (fun p => p.sym.toNat) =
      (List.range 256).filter fun v => input.countP (fun b => b.toNat = v) > 0 := by
  rw [presentSymbols_eq, List.map_map, List.map_congr_left (g := id), List.map_id]
  intro v hv
  have hlt := List.mem_range.1 (List.mem_of_mem_filter hv)
  exact Nat.mod_eq_of_lt hlt

theorem presentSymbols_ascending (input : List Byte) :
    ((presentSymbols input).map fun p => p.sym.toNat).Pairwise (· < ·) := by
  rw [presentSymbols_values]
  exact List.pairwise_lt_range.sublist List.filter_sublist

/-- A byte has 256 values (R9). -/
theorem length_presentSymbols_le (input : List Byte) : (presentSymbols input).length ≤ 256 := by
  have hlen := List.length_filter_le (fun v => decide (input.countP (fun b => b.toNat = v) > 0)) (List.range 256)
  rw [← presentSymbols_values, List.length_map, List.length_range] at hlen
  exact hlen

/-- Every byte of the input is a symbol of it (R201). -/
theorem mem_presentSymbols {input : List Byte} {b : Byte} (h : b ∈ input) :
    b ∈ (presentSymbols input).map ProbEntry.sym := by
  have hvalue : b.toNat ∈ (presentSymbols input).map fun p => p.sym.toNat := by
    rw [presentSymbols_values, List.mem_filter, List.mem_range]
    refine ⟨b.isLt, decide_eq_true (List.countP_pos_iff.2 ⟨b, h, by simp⟩)⟩
  obtain ⟨p, hp, hval⟩ := List.mem_map.1 hvalue
  exact List.mem_map.2 ⟨p, hp, BitVec.eq_of_toNat_eq hval⟩

theorem presentSymbols_ne_nil {input : List Byte} (h : input ≠ []) : presentSymbols input ≠ [] := by
  obtain ⟨b, hb⟩ := List.exists_mem_of_ne_nil input h
  exact fun hnil => by simpa [hnil] using mem_presentSymbols hb

theorem insertProb_perm (e : ProbEntry) (l : List ProbEntry) : (insertProb e l).Perm (e :: l) := by
  induction l with
  | nil => exact List.Perm.refl _
  | cons x rest ih =>
    rw [insertProb]
    split
    · exact (ih.cons x).trans (List.Perm.swap e x rest)
    · exact List.Perm.refl _

/-- The probability list only reorders (R202). -/
theorem probabilityList_perm (input : List Byte) : (probabilityList input).Perm (presentSymbols input) := by
  unfold probabilityList
  induction presentSymbols input with
  | nil => exact List.Perm.refl _
  | cons e rest ih => exact (insertProb_perm e _).trans (ih.cons e)

/-! ### The Fano code -/

theorem not_prefix_of_diverge {code a b : Bits} {x y : Bool} (hxy : x ≠ y) (ha : code ++ [x] <+: a)
    (hb : code ++ [y] <+: b) : ¬ a <+: b := by
  intro hab
  have heq := (List.prefix_of_prefix_length_le (ha.trans hab) hb (by simp)).eq_of_length (by simp)
  exact hxy (by simpa using heq)

/-- The codewords of a range begin with the bits of its splits so far (R206). -/
theorem prefix_of_mem_fanoAssign {fuel : Nat} {range : List ProbEntry} {code : Bits} {e : CodeEntry}
    (he : e ∈ fanoAssign fuel range code) : code <+: e.code := by
  fun_induction fanoAssign fuel range code with
  | case1 => cases he
  | case2 => rw [List.mem_singleton.1 he]
  | case3 => cases he
  | case4 _ _ _ _ _ ihLeft ihRight =>
    rcases List.mem_append.1 he with hleft | hright
    · exact (List.prefix_append _ _).trans (ihLeft hleft)
    · exact (List.prefix_append _ _).trans (ihRight hright)

/-- The two parts of a split differ in its bit (R206, R231). -/
theorem prefixFree_fanoAssign (fuel : Nat) (range : List ProbEntry) (code : Bits) :
    PrefixFree (fanoAssign fuel range code) := by
  fun_induction fanoAssign fuel range code with
  | case1 => exact List.Pairwise.nil
  | case2 => exact List.pairwise_singleton _ _
  | case3 => exact List.Pairwise.nil
  | case4 _ _ _ _ _ ihLeft ihRight =>
    refine List.pairwise_append.2 ⟨ihLeft, ihRight, fun a ha b hb => ?_⟩
    have hleft := prefix_of_mem_fanoAssign ha
    have hright := prefix_of_mem_fanoAssign hb
    exact ⟨not_prefix_of_diverge Bool.false_ne_true hleft hright,
      not_prefix_of_diverge Bool.false_ne_true.symm hright hleft⟩

/-- A range of two or more entries is split at least once (R206). -/
theorem code_ne_nil_of_mem_fanoAssign {fuel : Nat} {range : List ProbEntry} {code : Bits} {e : CodeEntry}
    (hsplit : ∀ x, range ≠ [x]) (he : e ∈ fanoAssign fuel range code) : e.code ≠ [] := by
  fun_induction fanoAssign fuel range code with
  | case1 => cases he
  | case2 _ x => exact absurd rfl (hsplit x)
  | case3 => cases he
  | case4 =>
    intro hnil
    rcases List.mem_append.1 he with hleft | hright
    · simpa [hnil] using prefix_of_mem_fanoAssign hleft
    · simpa [hnil] using prefix_of_mem_fanoAssign hright

theorem two_le_length {range : List ProbEntry} (hnil : range ≠ []) (hsingle : ∀ x, range ≠ [x]) :
    2 ≤ range.length := by
  match range, hnil, hsingle with
  | [], hnil, _ => exact absurd rfl hnil
  | [x], _, hsingle => exact absurd rfl (hsingle x)
  | _ :: _ :: _, _, _ => exact Nat.le_add_left 2 _

/-- No entry of a range is lost (R206): its length is fuel enough. -/
theorem fanoAssign_symbols {fuel : Nat} {range : List ProbEntry} (code : Bits) (h : range.length ≤ fuel) :
    (fanoAssign fuel range code).map CodeEntry.sym = range.map ProbEntry.sym := by
  fun_induction fanoAssign fuel range code with
  | case1 => rfl
  | case2 => rfl
  | case3 range _ hnil => exact absurd (List.eq_nil_of_length_eq_zero (Nat.le_zero.1 h)) hnil
  | case4 fuel range code hnil hsingle ihLeft ihRight =>
    have hpos := splitSize_pos range
    have hlt := splitSize_lt_length (two_le_length hnil hsingle)
    rw [List.map_append, ihLeft (by rw [List.length_take]; omega), ihRight (by rw [List.length_drop]; omega),
      ← List.map_append, List.take_append_drop]

/-- The Fano code of a list is its one codeword `"0"`, or the assignment from the root (R203, R204). -/
theorem fanoCode_cases (list : List ProbEntry) :
    (∃ x, list = [x] ∧ fanoCode list = [⟨x.sym, [false]⟩]) ∨
    ((∀ x, list ≠ [x]) ∧ fanoCode list = fanoAssign list.length list []) := by
  match list with
  | [] => exact .inr ⟨nofun, rfl⟩
  | [x] => exact .inl ⟨x, rfl, rfl⟩
  | _ :: _ :: _ => exact .inr ⟨nofun, rfl⟩

theorem fanoCode_symbols (list : List ProbEntry) : (fanoCode list).map CodeEntry.sym = list.map ProbEntry.sym := by
  rcases fanoCode_cases list with ⟨x, rfl, hcode⟩ | ⟨-, hcode⟩ <;> rw [hcode]
  · rfl
  · exact fanoAssign_symbols [] le_rfl

/-- Settles O51, for every list of entries. -/
theorem fanoCodeIsPrefixFree : Obligations.FanoCodeIsPrefixFree := by
  unfold Obligations.FanoCodeIsPrefixFree
  intro input
  rcases fanoCode_cases (probabilityList input) with ⟨x, -, hcode⟩ | ⟨hsplit, hcode⟩ <;> rw [hcode]
  · exact ⟨List.pairwise_singleton _ _, fun e he => by rw [List.mem_singleton.1 he]; exact List.cons_ne_nil _ _⟩
  · exact ⟨prefixFree_fanoAssign _ _ _, fun e => code_ne_nil_of_mem_fanoAssign hsplit⟩

/-! ### The fixed-width code -/

/-- The search of R209 finds the logarithm of every number of symbols. -/
theorem ceilLog2_eq_clog {n : Nat} (h : n ≤ 256) : ceilLog2 n = Nat.clog 2 n := by
  have h8 : Nat.clog 2 n ≤ 8 := Nat.clog_le_of_le_pow h
  have hfind : (List.range 9).find? (fun k => decide (n ≤ 2 ^ k)) = some (Nat.clog 2 n) := by
    refine List.find?_range_eq_some.2 ⟨decide_eq_true (Nat.le_pow_clog Nat.one_lt_two n),
      List.mem_range.2 (Nat.lt_succ_of_le h8), fun j hj => ?_⟩
    have hpow := Nat.pow_lt_of_lt_clog hj
    simpa using hpow
  rw [ceilLog2, hfind, Option.getD_some]

theorem fixedLen_eq {n : Nat} (h : n ≤ 256) : fixedLen n = max 1 (Nat.clog 2 n) := by
  rw [fixedLen, ceilLog2_eq_clog h]

/-- Every rank has a codeword of this length (R209). -/
theorem le_two_pow_fixedLen {n : Nat} (h : n ≤ 256) : n ≤ 2 ^ fixedLen n := by
  rw [fixedLen_eq h]
  exact (Nat.le_pow_clog Nat.one_lt_two n).trans (Nat.pow_le_pow_right Nat.two_pos (le_max_right _ _))

theorem length_bitsOf (len v : Nat) : (bitsOf len v).length = len := by
  induction len with
  | zero => rfl
  | succ len ih => rw [bitsOf, List.length_cons, ih]

theorem bitsVal_cons (b : Bool) (code : Bits) : bitsVal (b :: code) = b.toNat * 2 ^ code.length + bitsVal code := by
  induction code using List.reverseRecOn with
  | nil => simp [bitsVal]
  | append_singleton code x ih =>
    rw [← List.cons_append, bitsVal_append, bitsVal_append, ih, List.length_append, List.length_singleton,
      Nat.pow_succ]
    ring

/-- The value of a codeword is the number it was made of (R59, R210). -/
theorem bitsVal_bitsOf (len v : Nat) : bitsVal (bitsOf len v) = v % 2 ^ len := by
  induction len with
  | zero => rw [Nat.pow_zero, Nat.mod_one]; rfl
  | succ len ih =>
    rw [bitsOf, bitsVal_cons, ih, length_bitsOf, Nat.toNat_testBit, Nat.mod_pow_succ, Nat.mul_comm, Nat.add_comm]

theorem fixedCode_symbols (list : List ProbEntry) : (fixedCode list).map CodeEntry.sym = list.map ProbEntry.sym := by
  have hsym : (fixedCode list).map CodeEntry.sym = (list.zipIdx.map Prod.fst).map ProbEntry.sym := by
    rw [fixedCode, List.map_map, List.map_map]
    rfl
  rw [hsym, List.zipIdx_map_fst]

theorem length_code_of_mem_fixedCode {list : List ProbEntry} {e : CodeEntry} (he : e ∈ fixedCode list) :
    e.code.length = fixedLen list.length := by
  obtain ⟨c, -, rfl⟩ := List.mem_map.1 he
  exact length_bitsOf _ _

/-- The value of a codeword is the rank of its entry (R210). -/
theorem fixedCode_values {list : List ProbEntry} (h : list.length ≤ 256) :
    ((fixedCode list).map fun e => bitsVal e.code) = List.range list.length := by
  rw [fixedCode, List.map_map, List.map_congr_left (g := Prod.snd), List.zipIdx_map_snd, List.range_eq_range']
  intro c hc
  have hlt := (List.mem_zipIdx' hc).1
  exact (bitsVal_bitsOf _ _).trans (Nat.mod_eq_of_lt (hlt.trans_le (le_two_pow_fixedLen h)))

/-- Settles O53: the ranks stand in the order of the symbols. -/
theorem fixedCodeIsDense : Obligations.FixedCodeIsDense := by
  unfold Obligations.FixedCodeIsDense
  intro input _
  have hlen := length_presentSymbols_le input
  have h8 : Nat.clog 2 (presentSymbols input).length ≤ 8 := Nat.clog_le_of_le_pow hlen
  refine ⟨fun e he => ?_, max_le (by decide) h8, fixedCode_values hlen, ?_⟩
  · rw [length_code_of_mem_fixedCode he, fixedLen_eq hlen]
  · have hsym := congrArg (List.map BitVec.toNat) (fixedCode_symbols (presentSymbols input))
    rw [List.map_map, List.map_map] at hsym
    exact hsym ▸ presentSymbols_ascending input

end Sys2Proof.Machine
end

section
/-! PROOF. The model's own fields (spec/10_state.md R40; log entries 1 and 5): no pseudocode reads what the host has
presented, or how many free values have been drawn. So a session that is presented on the command channel (R51) runs as
its commands do one after another. -/

namespace Sys2Proof.Machine

/-! ### Pseudocode does not read the model's own fields -/

/-- The state with other values in the model's own fields. -/
def State.mapOwn (F : List HostInput → List HostInput) (G : Nat → Nat) (s : State) : State :=
  { s with input := F s.input, draws := G s.draws }

/-- The same result, with other values in the model's own fields of the state it ends in. -/
def Result.mapOwn {α : Type} (F : List HostInput → List HostInput) (G : Nat → Nat) (r : Result α) : Result α :=
  match r with
  | .ok a s => .ok a (s.mapOwn F G)
  | .raised c s => .raised c (s.mapOwn F G)
  | .stop e => .stop e

section

variable {α β : Type} {F : List HostInput → List HostInput} {G : Nat → Nat}

theorem Result.bind_mapOwn {r r' : Result α} {f f' : α → State → Result β} (hr : r' = r.mapOwn F G)
    (hf : ∀ a t, f' a (t.mapOwn F G) = (f a t).mapOwn F G) :
    r'.bind f' = (r.bind f).mapOwn F G := by
  subst hr
  cases r with
  | ok a t => exact hf a t
  | raised c t => rfl
  | stop g => rfl

theorem Result.ite_mapOwn {c : Prop} [Decidable c] {r r' q q' : Result α} (hr : r' = r.mapOwn F G)
    (hq : q' = q.mapOwn F G) : (if c then r' else q') = (if c then r else q).mapOwn F G := by
  rw [hr, hq, apply_ite (Result.mapOwn F G)]

theorem Result.ofExcept_mapOwn (e : Except Fault α) (s : State) :
    Result.ofExcept e (s.mapOwn F G) = (Result.ofExcept e s).mapOwn F G := by
  cases e <;> rfl

theorem forEach_mapOwn {f : α → State → Result Unit}
    (hf : ∀ a s, f a (s.mapOwn F G) = (f a s).mapOwn F G) (l : List α) (s : State) :
    forEach f l (s.mapOwn F G) = (forEach f l s).mapOwn F G := by
  induction l generalizing s with
  | nil => rfl
  | cons a rest ih => exact Result.bind_mapOwn (hf a s) fun _ t => ih t

end

section

variable (F : List HostInput → List HostInput) (G : Nat → Nat) (s : State)

/-! #### The table commands -/

theorem writeCT_mapOwn (i : Nat) (e : CodeEntry) :
    writeCT i e (s.mapOwn F G) = (writeCT i e s).mapOwn F G := by
  unfold writeCT State.mapOwn
  cases Memory.write ctSpace s.ct i e <;> rfl

theorem writeNode_mapOwn (k : BitVec 16) (n : TrieNode) :
    writeNode k n (s.mapOwn F G) = (writeNode k n s).mapOwn F G := by
  unfold writeNode State.mapOwn
  cases Memory.write nodeSpace s.node k.toNat n <;> rfl

theorem writeDemux_mapOwn (v : Nat) (d : DemuxElem) :
    writeDemux v d (s.mapOwn F G) = (writeDemux v d s).mapOwn F G := by
  unfold writeDemux State.mapOwn
  cases Memory.write demuxSpace s.demux v d <;> rfl

theorem entBody_mapOwn (arg : Byte) :
    entBody arg (s.mapOwn F G) = (entBody arg s).mapOwn F G :=
  Result.ite_mapOwn rfl (Result.bind_mapOwn (writeCT_mapOwn F G s _ _) fun _ _ => rfl)

theorem cwbBody_mapOwn (arg : Byte) :
    cwbBody arg (s.mapOwn F G) = (cwbBody arg s).mapOwn F G :=
  Result.ite_mapOwn rfl (Result.bind_mapOwn (Result.ofExcept_mapOwn _ s) fun _ t =>
    Result.ite_mapOwn rfl (writeCT_mapOwn F G t _ _))

theorem build_mapOwn (fuel : Nat) (list : List CodeEntry) (depth : Nat) :
    build fuel list depth (s.mapOwn F G) = (build fuel list depth s).mapOwn F G := by
  induction fuel generalizing list depth s with
  | zero => rfl
  | succ fuel ih =>
    have child (sub : List CodeEntry) (t : State) :
        build.buildChild (build fuel) sub (depth + 1) (t.mapOwn F G) =
          (build.buildChild (build fuel) sub (depth + 1) t).mapOwn F G :=
      Result.ite_mapOwn rfl (Result.bind_mapOwn (ih t sub (depth + 1)) fun _ _ => rfl)
    unfold build
    have leaf := writeNode_mapOwn F G { s with nnode := s.nnode + 1 }
    refine Result.ite_mapOwn (Result.bind_mapOwn (leaf _ _) fun _ _ => rfl) (Result.ite_mapOwn rfl ?_)
    refine Result.bind_mapOwn (child _ { s with nnode := s.nnode + 1 }) fun c0 t => ?_
    refine Result.bind_mapOwn (child _ t) fun c1 u => ?_
    exact Result.bind_mapOwn (writeNode_mapOwn F G u _ _) fun _ _ => rfl

theorem buildTrie_mapOwn (table : List CodeEntry) :
    buildTrie table (s.mapOwn F G) = (buildTrie table s).mapOwn F G :=
  Result.bind_mapOwn (build_mapOwn F G { s with nnode := 0 } _ _ _) fun _ _ => rfl

theorem demuxEntry_mapOwn (e : CodeEntry) : demuxEntry e (s.mapOwn F G) = (demuxEntry e s).mapOwn F G :=
  Result.bind_mapOwn (Result.ofExcept_mapOwn _ s) fun _ t => Result.ite_mapOwn rfl (writeDemux_mapOwn F G t _ _)

theorem buildDemux_mapOwn (table : List CodeEntry) :
    buildDemux table (s.mapOwn F G) = (buildDemux table s).mapOwn F G := by
  unfold buildDemux
  cases fixedLength table with
  | error c => rfl
  | ok len =>
    exact forEach_mapOwn (fun e t => demuxEntry_mapOwn F G t e) table { s with l := BitVec.ofNat 4 len }

theorem bldBody_mapOwn : bldBody (s.mapOwn F G) = (bldBody s).mapOwn F G := by
  refine Result.bind_mapOwn (Result.ofExcept_mapOwn _ s) fun table t => ?_
  cases validateCommon table with
  | some c => rfl
  | none =>
    refine Result.bind_mapOwn ?_ fun _ _ => rfl
    rw [show (t.mapOwn F G).kind = t.kind from rfl]
    cases t.kind
    · exact buildTrie_mapOwn F G t table
    · exact buildDemux_mapOwn F G t table

/-! #### The decoders -/

theorem pstep_mapOwn (b : Bool) : pstep b (s.mapOwn F G) = (pstep b s).mapOwn F G := by
  refine Result.bind_mapOwn (Result.ofExcept_mapOwn _ s) fun n t => ?_
  cases n.child b with
  | none => rfl
  | some k => exact Result.bind_mapOwn (Result.ofExcept_mapOwn _ t) fun _ _ => Result.ite_mapOwn rfl rfl

theorem lookupSymbol_mapOwn (v : Byte) :
    lookupSymbol v (s.mapOwn F G) = (lookupSymbol v s).mapOwn F G :=
  Result.bind_mapOwn (Result.ofExcept_mapOwn _ s) fun _ _ => Result.ite_mapOwn rfl rfl

theorem completeCarry_mapOwn : completeCarry (s.mapOwn F G) = (completeCarry s).mapOwn F G :=
  Result.ite_mapOwn (lookupSymbol_mapOwn F G { s with carry := 0, ccnt := 0 } s.carry) rfl

theorem fstep_mapOwn (b : Bool) : fstep b (s.mapOwn F G) = (fstep b s).mapOwn F G :=
  completeCarry_mapOwn F G
    { s with carry := (s.carry <<< 1) ||| BitVec.ofNat 8 b.toNat, ccnt := s.ccnt + 1 }

theorem fbyteLoop_mapOwn (B : Byte) (u fuel pos : Nat) :
    fbyteLoop B u fuel pos (s.mapOwn F G) = (fbyteLoop B u fuel pos s).mapOwn F G := by
  induction fuel generalizing pos s with
  | zero =>
    unfold fbyteLoop
    exact Result.ite_mapOwn rfl rfl
  | succ fuel ih =>
    have carried (carry : Byte) (ccnt : BitVec 4) :=
      completeCarry_mapOwn F G { s with carry := carry, ccnt := ccnt }
    unfold fbyteLoop
    refine Result.ite_mapOwn (Result.ite_mapOwn ?_ (Result.ite_mapOwn ?_ rfl)) rfl
    · exact Result.bind_mapOwn (carried _ _) fun _ t => ih t _
    · exact Result.bind_mapOwn (lookupSymbol_mapOwn F G s _) fun _ t => ih t _

theorem bitStep_mapOwn (b : Bool) : bitStep b (s.mapOwn F G) = (bitStep b s).mapOwn F G := by
  unfold bitStep
  rw [show (s.mapOwn F G).kind = s.kind from rfl]
  cases s.kind
  · exact pstep_mapOwn F G s b
  · exact fstep_mapOwn F G s b

theorem byteStep_mapOwn (B : Byte) (u : Nat) :
    byteStep B u (s.mapOwn F G) = (byteStep B u s).mapOwn F G := by
  unfold byteStep
  rw [show (s.mapOwn F G).kind = s.kind from rfl]
  cases s.kind
  · exact forEach_mapOwn (fun b t => pstep_mapOwn F G t b) (usableBits B u) s
  · exact fbyteLoop_mapOwn F G s B u u 0

theorem datBody_mapOwn (arg : Byte) :
    datBody arg (s.mapOwn F G) = (datBody arg s).mapOwn F G := by
  unfold datBody
  rw [show (s.mapOwn F G).fmt = s.fmt from rfl]
  cases s.fmt with
  | text =>
    unfold textByte
    cases textBit arg with
    | none => rfl
    | some b => exact bitStep_mapOwn F G s b
  | binary =>
    exact Result.ite_mapOwn (Result.ite_mapOwn rfl rfl) (Result.ite_mapOwn rfl
      (Result.bind_mapOwn (byteStep_mapOwn F G s s.hold 8) fun _ _ => rfl))

theorem lastByte_mapOwn : lastByte (s.mapOwn F G) = (lastByte s).mapOwn F G := by
  unfold lastByte
  rw [show (s.mapOwn F G).fmt = s.fmt from rfl]
  cases s.fmt with
  | text => rfl
  | binary =>
    exact Result.ite_mapOwn rfl (Result.ite_mapOwn (Result.ite_mapOwn rfl rfl)
      (Result.bind_mapOwn (byteStep_mapOwn F G s s.hold _) fun _ _ => rfl))

theorem endBodyBody_mapOwn : endBodyBody (s.mapOwn F G) = (endBodyBody s).mapOwn F G := by
  refine Result.bind_mapOwn (lastByte_mapOwn F G s) fun _ t => ?_
  rw [show (t.mapOwn F G).endCheck = t.endCheck from rfl]
  cases t.endCheck <;> rfl

/-- THE PSEUDOCODE OF EVERY COMMAND ends in the same way whatever the model's own fields hold. -/
theorem pseudocode_mapOwn (i : Instr) :
    pseudocode i (s.mapOwn F G) = (pseudocode i s).mapOwn F G := by
  cases i with
  | nop => rfl
  | rst => rfl
  | cfg arg => rfl
  | ent arg => exact entBody_mapOwn F G s arg
  | cwb arg => exact cwbBody_mapOwn F G s arg
  | bld => exact bldBody_mapOwn F G s
  | dat arg => exact datBody_mapOwn F G s arg
  | endBody => exact endBodyBody_mapOwn F G s

end

/-! ### A session on the command channel -/

/-- A command does the same whatever else the host has presented (R51), and leaves it waiting. -/
theorem exec_with_input {i : Instr} {s t : State} (input : List HostInput) (h : exec i s = .next t) :
    exec i { s with input := input } = .next { t with input := input } := by
  have hrun : pseudocode i { s with input := input } = (pseudocode i s).mapOwn (fun _ => input) id :=
    pseudocode_mapOwn (fun _ => input) id s i
  rw [exec_eq_command, command] at h ⊢
  rw [hrun]
  split at h
  · next hf => cases h; exact if_pos hf
  · next hf =>
    rw [if_neg hf]
    split at h
    · next hr => cases h; exact if_pos hr
    · next hr =>
      rw [if_neg hr]
      split at h
      · next hl => cases h; exact if_pos hl
      · next hl =>
        rw [if_neg hl]
        rcases Result.finish_eq_next.1 h with hok | ⟨c, u, hraised, rfl⟩
        · rw [hok]; rfl
        · rw [hraised]; rfl

theorem run_succ {n : Nat} {s u : State} (h : step s = .next u) :
    Host.Core.run core (n + 1) s = Host.Core.run core n u := by
  have hstep : core.step s = .next u := h
  simp only [Host.Core.run, hstep]

/-- Commands that run to a next state begin with one that does. -/
theorem exec_of_runCommands_cons {i : Instr} {rest : List Instr} {s t : State}
    (h : runCommands (i :: rest) s = .next t) : ∃ u, exec i s = .next u ∧ runCommands rest u = .next t := by
  cases hexec : exec i s with
  | next u => exact ⟨u, rfl, by rwa [runCommands_cons hexec] at h⟩
  | fault g => simp [runCommands, hexec] at h
  | refused r => simp [runCommands, hexec] at h

/-- A session whose commands run to a next state runs to it on the command channel, one step for each command. -/
theorem run_presented {commands : List Instr} {s t : State} (hwf : ∀ i ∈ commands, i.wellFormed = true)
    (h : runCommands commands s = .next t) : runSession commands s = .next { t with input := [] } := by
  unfold runSession
  induction commands generalizing s with
  | nil => cases h; rfl
  | cons i rest ih =>
    obtain ⟨hi, hrest⟩ := List.forall_mem_cons.1 hwf
    obtain ⟨u, hexec, hrun⟩ := exec_of_runCommands_cons h
    rw [List.length_cons, run_succ (u := { u with input := presented rest })]
    · exact ih hrest hrun
    · rw [step_word (w := encode i) (rest := presented rest) rfl, runWord_ok (decode_eq_ok_iff_encode.2 ⟨hi, rfl⟩)]
      exact exec_with_input (s := s) _ hexec

end Sys2Proof.Machine
end

section
/-! PROOF. The round trip (spec/48_host_reference.md R221, R230): the table the producer makes is one that `BLD` builds,
loaded in any order; the body holds the code bits of the input; and the decoder that `BLD` leaves takes them one codeword
after another, each for the byte it stands for. -/

namespace Sys2Proof.Machine

/-! ### Tables that `BLD` builds -/

/-- What loading and `BLD` ask of a table for a kind (R111, R112, R114 to R121). -/
structure Buildable (kind : Kind) (table : List CodeEntry) : Prop where
  count      : table.length ≤ 256
  lengths    : ∀ e ∈ table, e.code.length ≤ 255
  coded      : Coded table
  prefixFree : kind = .prefixCode → PrefixFree table
  fixedWidth : kind = .fixedCode → ∃ len, FixedWidth table len

/-- The order of the table does not matter (R120, R121). -/
theorem Buildable.perm {kind : Kind} {table loaded : List CodeEntry} (h : Buildable kind table)
    (hperm : loaded.Perm table) : Buildable kind loaded where
  count := hperm.length_eq ▸ h.count
  lengths e he := h.lengths e (hperm.mem_iff.1 he)
  coded := ⟨fun hnil => h.coded.1 (List.nil_perm.1 (hnil ▸ hperm)), fun e he => h.coded.2 e (hperm.mem_iff.1 he)⟩
  prefixFree hk := (prefixFree_perm hperm).2 (h.prefixFree hk)
  fixedWidth hk := by
    obtain ⟨len, hlen, h8, hnodup⟩ := h.fixedWidth hk
    exact ⟨len, fun e he => hlen e (hperm.mem_iff.1 he), h8, (hperm.map CodeEntry.code).nodup_iff.2 hnodup⟩

theorem length_eq_of_symbols {table : List CodeEntry} {list : List ProbEntry}
    (h : table.map CodeEntry.sym = list.map ProbEntry.sym) : table.length = list.length := by
  simpa using congrArg List.length h

theorem ne_nil_of_symbols {table : List CodeEntry} {list : List ProbEntry}
    (h : table.map CodeEntry.sym = list.map ProbEntry.sym) (hne : list ≠ []) : table ≠ [] :=
  List.ne_nil_of_length_pos ((length_eq_of_symbols h).symm ▸ List.length_pos_iff.2 hne)

theorem buildable_fanoCode {input : List Byte} (h : input ≠ []) :
    Buildable .prefixCode (fanoCode (probabilityList input)) := by
  have hperm := probabilityList_perm input
  have hcount : (probabilityList input).length ≤ 256 := hperm.length_eq ▸ length_presentSymbols_le input
  have hne : probabilityList input ≠ [] := fun hnil => presentSymbols_ne_nil h (List.nil_perm.1 (hnil ▸ hperm))
  have hsym := fanoCode_symbols (probabilityList input)
  obtain ⟨hpf, hcode⟩ := fanoCodeIsPrefixFree input
  refine ⟨(length_eq_of_symbols hsym).trans_le hcount, fun e he => ?_, ⟨ne_nil_of_symbols hsym hne, fun e he => ?_⟩,
    fun _ => hpf, nofun⟩
  · exact (fanoCodewordsAreShort _ e he).trans (max_le (by decide) (by omega))
  · exact mt List.eq_nil_of_length_eq_zero (hcode e he)

theorem buildable_fixedCode {input : List Byte} (h : input ≠ []) :
    Buildable .fixedCode (fixedCode (presentSymbols input)) := by
  have hsym := fixedCode_symbols (presentSymbols input)
  obtain ⟨hlen, h8, hvalues, -⟩ := fixedCodeIsDense input h
  have hnodup : ((fixedCode (presentSymbols input)).map fun e => bitsVal e.code).Nodup :=
    hvalues ▸ List.nodup_range
  refine ⟨(length_eq_of_symbols hsym).trans_le (length_presentSymbols_le input), fun e he => ?_,
    ⟨ne_nil_of_symbols hsym (presentSymbols_ne_nil h), fun e he => ?_⟩, nofun,
    fun _ => ⟨_, hlen, h8, (nodup_values_iff hlen).1 hnodup⟩⟩
  · rw [hlen e he]; omega
  · rw [CodeEntry.len, hlen e he]; omega

/-- The producer's table can be built, and has an entry for every byte of the input (R200 to R214). -/
theorem produceTable_buildable (kind : Kind) {input : List Byte} (h : input ≠ []) :
    ∃ table, produceTable kind input = .ok table ∧ Buildable kind table ∧
      ∀ b ∈ input, b ∈ table.map CodeEntry.sym := by
  have htotal : ¬ (frequencyTable input).total = 0 := mt frequencyTable_total_eq_zero.1 h
  cases kind with
  | prefixCode =>
    have hbuild := buildable_fanoCode h
    refine ⟨_, (if_neg htotal).trans (checkConstruction_ok hbuild.lengths), hbuild, fun b hb => ?_⟩
    rw [fanoCode_symbols, ((probabilityList_perm input).map _).mem_iff]
    exact mem_presentSymbols hb
  | fixedCode =>
    refine ⟨_, if_neg htotal, buildable_fixedCode h, fun b hb => ?_⟩
    rw [fixedCode_symbols]
    exact mem_presentSymbols hb

/-! ### The bits of the input -/

/-- A table with an entry for every byte of the input gives bits for it (R214). -/
theorem codeBits_ok {table : List CodeEntry} {input : List Byte} (h : ∀ b ∈ input, b ∈ table.map CodeEntry.sym) :
    ∃ bits, codeBits table input = .ok bits := by
  induction input with
  | nil => exact ⟨[], rfl⟩
  | cons b rest ih =>
    obtain ⟨hb, hrest⟩ := List.forall_mem_cons.1 h
    obtain ⟨bits, hbits⟩ := ih hrest
    cases hfind : table.find? fun e => e.sym = b with
    | none =>
      obtain ⟨e, he, hsym⟩ := List.mem_map.1 hb
      exact absurd (decide_eq_true hsym) (List.find?_eq_none.1 hfind e he)
    | some e => exact ⟨e.code ++ bits, by simp only [codeBits, hfind, hbits]⟩

/-- A decoder that takes each codeword of the table for its symbol takes the code bits of an input for the input. -/
theorem consume_codeBits {table : List CodeEntry} {consume : List Sym → Bits → Consumed}
    (hnil : ∀ out, consume out [] = ⟨[], out, none⟩)
    (hcode : ∀ e ∈ table, ∀ out more, consume out (e.code ++ more) = consume (out ++ [e.sym]) more)
    {input : List Byte} {bits : Bits} (out : List Sym) (h : codeBits table input = .ok bits) :
    consume out bits = ⟨[], out ++ input, none⟩ := by
  induction input generalizing bits out with
  | nil =>
    cases h
    rw [hnil, List.append_nil]
  | cons b rest ih =>
    rw [codeBits] at h
    split at h
    · cases h
    · next e hfind =>
      have hsym : e.sym = b := of_decide_eq_true (List.find?_some hfind :)
      split at h
      · cases h
      · next bits' hbits =>
        cases h
        rw [hcode e (List.mem_of_find?_eq_some hfind), ih _ hbits, hsym, List.append_assoc, List.singleton_append]

theorem textBits_textBody (bits : Bits) : textBits (textBody bits) = bits := by
  induction bits with
  | nil => rfl
  | cons b bits ih =>
    have hcons : textBits (textBody (b :: bits)) = b :: textBits (textBody bits) :=
      List.filterMap_cons_some (textBit_of_bit b)
    rw [hcons, ih]

/-- A body gives its code bits back, in either format (R142, R152, R212, R215). -/
theorem decodeBody_bodyOf (fmt : Fmt) (decodeBits : Bits → Decoded) (bits : Bits) :
    decodeBody fmt decodeBits (bodyOf fmt bits) = decodeBits bits := by
  cases fmt with
  | text => exact congrArg decodeBits (textBits_textBody bits)
  | binary =>
    obtain ⟨pad, data, hbody, hpad, -, hlen, hbits⟩ := binaryBodyHoldsItsBits bits
    show decodeBody .binary decodeBits (binaryBody bits) = _
    rw [hbody, decodeBody, if_neg (Nat.not_lt.2 hpad)]
    split
    · next hnil =>
      subst hnil
      rw [List.length_nil, Nat.mul_zero] at hlen
      have hzero : pad = 0 := BitVec.eq_of_toNat_eq (Nat.eq_zero_of_add_eq_zero_left hlen)
      rw [if_pos hzero, ← hbits]
      rfl
    · rw [hbits]

/-! ### The decoder that `BLD` leaves -/

section

variable {table : List CodeEntry} {e : CodeEntry}

/-- The bits left of a codeword lead to its leaf, which emits its symbol (R153). -/
theorem TrieShape.walkBits_rest {node : List (Nat × TrieNode)} {nnode : Nat} (hT : TrieShape node nnode table)
    (he : e ∈ table) {path rest : Bits} (out : List Sym) (more : Bits) (hcode : path ++ rest = e.code)
    (hne : rest ≠ []) : walkBits table path out (rest ++ more) = walkBits table [] (out ++ [e.sym]) more := by
  induction rest generalizing path with
  | nil => exact absurd rfl hne
  | cons b rest ih =>
    have htaken : (path ++ [b]) ++ rest = e.code := by rw [List.append_assoc]; exact hcode
    rw [List.cons_append, walkBits]
    cases rest with
    | nil => rw [hcode, hT.trieView_code he]; rfl
    | cons c rest =>
      rw [hT.trieView_within_codeword he htaken]
      exact ih htaken (List.cons_ne_nil _ _)

/-- The value of a codeword is mapped to its symbol (R32). -/
theorem DemuxShape.fixedSymbol_code {demux : List (Nat × DemuxElem)} {len : Nat} (hD : DemuxShape demux len table)
    (he : e ∈ table) : fixedSymbol table (bitsVal e.code) = some e.sym := by
  unfold fixedSymbol
  cases hfind : table.find? fun e' => bitsVal e'.code = bitsVal e.code with
  | none => exact absurd (decide_eq_true rfl) (List.find?_eq_none.1 hfind e he)
  | some e' =>
    have hval : bitsVal e'.code = bitsVal e.code := of_decide_eq_true (List.find?_some hfind :)
    rw [List.inj_on_of_nodup_map hD.distinct (List.mem_of_find?_eq_some hfind) he hval]
    rfl

/-- Where a codeword begins, the decoder of either kind takes it for its symbol. -/
theorem Unfinished.consume_code {s : State} (h : Unfinished table s []) (he : e ∈ table) (out : List Sym)
    (more : Bits) : s.consume table [] out (e.code ++ more) = s.consume table [] (out ++ [e.sym]) more := by
  cases hk : s.kind with
  | prefixCode =>
    obtain ⟨hT, -⟩ := (unfinished_prefixCode hk).1 h
    rw [State.consume_prefixCode hk]
    exact hT.walkBits_rest he out more rfl (hT.code_ne_nil he)
  | fixedCode =>
    obtain ⟨hD, -⟩ := (unfinished_fixedCode hk).1 h
    obtain ⟨hpos, -, hlen⟩ := hD.lengths
    rw [State.consume_fixedCode hk]
    exact cutBits_mapped out more hpos (hlen e he) (hD.fixedSymbol_code he)

/-- The decoder takes the code bits of an input for the input, whatever the order of its table (R230). -/
theorem Unfinished.decodeBits_codeBits {s : State} {source : List CodeEntry} {input : List Byte} {bits : Bits}
    (h : Unfinished table s []) (hsub : ∀ e ∈ source, e ∈ table) (hbits : codeBits source input = .ok bits) :
    s.decodeBits table bits = ⟨input, none⟩ := by
  have hconsume := consume_codeBits (consume := s.consume table []) State.consume_nil
    (fun e he => h.consume_code (hsub e he)) [] hbits
  rw [State.decodeBits, hconsume]
  rfl

end

/-! ### Loading and building the table -/

theorem codeCommands_eq (e : CodeEntry) :
    codeCommands e = .ent e.sym :: e.code.map fun b => .cwb (if b then 1 else 0) := by
  have hbit : (fun b : Bool => Instr.cwb (BitVec.ofNat 8 b.toNat)) = fun b => .cwb (if b then 1 else 0) := by
    funext b
    cases b <;> rfl
  rw [codeCommands, hbit]

theorem runCommands_append {commands rest : List Instr} {s t : State} (h : runCommands commands s = .next t) :
    runCommands (commands ++ rest) s = runCommands rest t := by
  induction commands generalizing s with
  | nil => cases h; rfl
  | cons i commands ih =>
    obtain ⟨u, hexec, hrun⟩ := exec_of_runCommands_cons h
    rw [List.cons_append, runCommands_cons hexec, ih hrun]

/-- The entries of a table go behind those loaded before (R86, R89). -/
theorem run_entryCommands {table before : List CodeEntry} {s : State} (hp : s.phase = .load)
    (htab : s.table = .ok before) (hcount : before.length + table.length ≤ 256)
    (hlen : ∀ e ∈ table, e.code.length ≤ 255) :
    ∃ t, runCommands (entryCommands table) s = .next t ∧ t.table = .ok (before ++ table) ∧
      t = { s with nent := t.nent, ct := t.ct } := by
  induction table generalizing before s with
  | nil => exact ⟨s, rfl, by rw [List.append_nil]; exact htab, rfl⟩
  | cons e table ih =>
    obtain ⟨he, hrest⟩ := List.forall_mem_cons.1 hlen
    rw [List.length_cons] at hcount
    have hroom : s.nent.toNat < 256 := by
      have hnent := (State.table_eq_ok.1 htab).1
      omega
    obtain ⟨t, hrun, htab', ht⟩ := codeCommandsLoadTheEntry e s before hp hroom htab he
    rw [← codeCommands_eq] at hrun
    obtain ⟨u, hrun', htab'', hu⟩ := ih (s := t) (before := before ++ [e]) (by rw [ht]; exact hp) htab'
      (by rw [List.length_append, List.length_singleton]; omega) hrest
    refine ⟨u, ?_, by rw [htab'', List.append_assoc, List.singleton_append], by rw [hu, ht]⟩
    rw [entryCommands, List.flatMap_cons, runCommands_append hrun]
    exact hrun'

/-- The state that `CFG` leaves after a reset (R102, R103). -/
def State.opened (kind : Kind) (fmt : Fmt) (s : State) : State :=
  { s.resetSession with mode := argMode (cfgOf kind fmt).arg, phase := .load }

/-- The two mode bits of `CFG` (R24, R88). -/
theorem cfgOf_mode (kind : Kind) (fmt : Fmt) :
    (argMode (cfgOf kind fmt).arg).getLsbD 0 = kind.bit ∧ (argMode (cfgOf kind fmt).arg).getLsbD 1 = fmt.bit := by
  cases kind <;> cases fmt <;> decide

theorem opened_kind (kind : Kind) (fmt : Fmt) (s : State) : (s.opened kind fmt).kind = kind := by
  simp only [State.kind, State.opened, (cfgOf_mode kind fmt).1]
  cases kind <;> rfl

theorem opened_fmt (kind : Kind) (fmt : Fmt) (s : State) : (s.opened kind fmt).fmt = fmt := by
  simp only [State.fmt, State.opened, (cfgOf_mode kind fmt).2]
  cases fmt <;> rfl

theorem cfgOf_wellFormed (kind : Kind) (fmt : Fmt) : (cfgOf kind fmt).wellFormed = true := by
  cases kind <;> cases fmt <;> decide

/-- From any state, a session begins with an empty table of its mode (R102, R103, R230). -/
theorem run_opened (kind : Kind) (fmt : Fmt) (commands : List Instr) (s : State) :
    runCommands (.rst :: cfgOf kind fmt :: commands) s = runCommands commands (s.opened kind fmt) := by
  rw [runCommands_cons (exec_rst s)]
  exact runCommands_cons (exec_cfg (cfgOf_wellFormed kind fmt) rfl)

/-- A state from which the body of a session is decoded: the one `BLD` leaves (R123). -/
structure AtBody (fmt : Fmt) (table : List CodeEntry) (s : State) : Prop where
  phase      : s.phase = .run
  cause      : s.cause = 0
  fmt        : s.fmt = fmt
  unfinished : Unfinished table s []
  pvalid     : s.pvalid = false
  holdv      : s.holdv = false
  out        : s.out = []

/-- `BLD` of a table that can be built, loaded after a reset. -/
theorem exec_bld_atBody {kind : Kind} {fmt : Fmt} {table : List CodeEntry} {s t : State} (h : Buildable kind table)
    (htab : t.table = .ok table) (ht : t = { s.opened kind fmt with nent := t.nent, ct := t.ct }) :
    ∃ u, exec .bld t = .next u ∧ AtBody fmt table u := by
  have hp : t.phase = .load := by rw [ht]; rfl
  have hk : t.kind = kind := by rw [ht]; exact opened_kind kind fmt s
  have hfmt : t.fmt = fmt := by rw [ht]; exact opened_fmt kind fmt s
  have hregs : t.cause = 0 ∧ t.node = [] ∧ t.demux = [] ∧ t.pvalid = false ∧ t.holdv = false ∧ t.out = [] := by
    rw [ht]
    exact ⟨rfl, rfl, rfl, rfl, rfl, rfl⟩
  obtain ⟨hcause, hnode, hdemux, hpvalid, hholdv, hout⟩ := hregs
  rw [exec_bld hp]
  cases kind with
  | prefixCode =>
    have hn : t.nent.toNat ≤ 256 := (State.table_eq_ok.1 htab).1 ▸ h.count
    rcases bldBody_trie hk hn htab h.lengths (by rw [hnode]; rfl) with
      ⟨-, -, u, hok, nnode, node, rfl, -, -, hT⟩ | ⟨hnot, -⟩
    · rw [hok]
      exact ⟨_, rfl, rfl, hcause, hfmt, AtPath.unfinished ⟨hT, rfl, hT.nodeView_root⟩ hk, hpvalid, hholdv, hout⟩
    · exact absurd ⟨h.coded, h.prefixFree rfl⟩ hnot
  | fixedCode =>
    rcases bldBody_array hk htab hdemux with ⟨-, len, hfix, u, hok, demux, rfl, -, hD⟩ | ⟨hnot, -⟩
    · rw [hok]
      have hl := hfix.toNat_length
      have hrests : Carries table
          { t with phase := .run, cursor := 0, carry := 0, ccnt := 0, l := BitVec.ofNat 4 len, demux := demux } [] := by
        refine ⟨?_, ⟨?_, ?_, ?_⟩, rfl, rfl⟩
        · show DemuxShape demux (BitVec.ofNat 4 len).toNat table
          rw [hl]; exact hD
        · show 0 < (BitVec.ofNat 4 len).toNat
          rw [hl]; exact hD.lengths.1
        · show (BitVec.ofNat 4 len).toNat ≤ 8
          rw [hl]; exact hD.lengths.2.1
        · exact Nat.one_pos
      exact ⟨_, rfl, rfl, hcause, hfmt, hrests.unfinished hk, hpvalid, hholdv, hout⟩
    · obtain ⟨len, hfix⟩ := h.fixedWidth rfl
      exact absurd hfix (hnot h.coded len)

/-- A session with a table that can be built comes to its body, from any state. -/
theorem run_to_body {kind : Kind} {table : List CodeEntry} (fmt : Fmt) (body : List Byte) (s : State)
    (h : Buildable kind table) :
    ∃ t, runCommands (sessionCommands kind fmt table body) s = runCommands (streamCommands body) t ∧
      AtBody fmt table t := by
  obtain ⟨t, hrun, htab, ht⟩ := run_entryCommands (s := s.opened kind fmt) (before := []) rfl rfl
    (by rw [List.length_nil, Nat.zero_add]; exact h.count) h.lengths
  obtain ⟨u, hbld, hu⟩ := exec_bld_atBody h htab ht
  refine ⟨u, ?_, hu⟩
  rw [sessionCommands, run_opened, runCommands_append hrun, runCommands_cons hbld]
  rfl

/-! ### The round trip -/

theorem entryCommands_wellFormed {table : List CodeEntry} {i : Instr} (h : i ∈ entryCommands table) :
    i.wellFormed = true := by
  obtain ⟨e, -, hi⟩ := List.mem_flatMap.1 h
  rw [codeCommands_eq, List.mem_cons, List.mem_map] at hi
  rcases hi with rfl | ⟨b, -, rfl⟩
  · exact ent_wellFormed e.sym
  · exact cwb_wellFormed b

/-- No command of a session has a reserved bit set (R76). -/
theorem sessionCommands_wellFormed {kind : Kind} {fmt : Fmt} {table : List CodeEntry} {body : List Byte} :
    ∀ i ∈ sessionCommands kind fmt table body, i.wellFormed = true := by
  intro i hi
  simp only [sessionCommands, bodyCommands, List.mem_cons, List.mem_append, List.mem_map, List.not_mem_nil,
    or_false] at hi
  rcases hi with rfl | rfl | hi | rfl | ⟨B, -, rfl⟩ | rfl
  · rfl
  · exact cfgOf_wellFormed kind fmt
  · exact entryCommands_wellFormed hi
  · rfl
  · exact dat_wellFormed B
  · rfl

/-- What is observed after a session's commands is observed after the session on the command channel. -/
theorem runSession_of_observed {kind : Kind} {fmt : Fmt} {table : List CodeEntry} {body : List Byte} {s : State}
    {o : Observation} (h : observed (runCommands (sessionCommands kind fmt table body) s) = some o) :
    ∃ t, runSession (sessionCommands kind fmt table body) s = .next t ∧ t.observe = o := by
  cases hrun : runCommands (sessionCommands kind fmt table body) s with
  | next t =>
    rw [hrun] at h
    exact ⟨_, run_presented sessionCommands_wellFormed hrun, Option.some.inj h⟩
  | fault g => rw [hrun] at h; cases h
  | refused r => rw [hrun] at h; cases h

/-- The producer's table and body for a non-empty input, and the session that decodes them (R230). -/
theorem encode_decode (kind : Kind) (fmt : Fmt) {input : List Byte} (h : input ≠ []) :
    ∃ table body, produceTable kind input = .ok table ∧ produceBody fmt table input = .ok body ∧ Coded table ∧
      ∀ (loaded : List CodeEntry) (s : State), loaded.Perm table →
        ∃ t, runSession (sessionCommands kind fmt loaded body) s = .next t ∧ t.observe = ⟨input, .done, 0⟩ := by
  obtain ⟨table, htable, hbuild, hsyms⟩ := produceTable_buildable kind h
  obtain ⟨bits, hbits⟩ := codeBits_ok hsyms
  refine ⟨table, bodyOf fmt bits, htable, by rw [produceBody, hbits], hbuild.coded, fun loaded s hperm => ?_⟩
  obtain ⟨t, hrun, ht⟩ := run_to_body fmt (bodyOf fmt bits) s (hbuild.perm hperm)
  refine runSession_of_observed ?_
  rw [hrun, observed_body ht.phase ht.cause ht.unfinished ht.pvalid ht.holdv ht.out, ht.fmt, decodeBody_bodyOf,
    ht.unfinished.decodeBits_codeBits (fun e he => hperm.mem_iff.2 he) hbits]
  rfl

/-- Settles O50. -/
theorem decodeOfEncodeIsTheInput : Obligations.DecodeOfEncodeIsTheInput := by
  unfold Obligations.DecodeOfEncodeIsTheInput
  intro kind fmt input h
  obtain ⟨table, body, htable, hbody, -, hsession⟩ := encode_decode kind fmt h
  exact ⟨table, body, htable, hbody, hsession⟩

/-- Settles O58: the streams give the table and the body back (O55, O60), and the session gives the input (O50). -/
theorem decodeCallReturnsTheInput : Obligations.DecodeCallReturnsTheInput := by
  unfold Obligations.DecodeCallReturnsTheInput
  intro layout kind fmt input s h
  obtain ⟨table, body, htable, hbody, hcoded, hsession⟩ := encode_decode kind fmt h
  obtain ⟨t, hrun, hobs⟩ := hsession table s (List.Perm.refl table)
  obtain ⟨-, hsplit⟩ := streamsGiveHeaderAndBodyBack layout fmt table body
  have hheader := headerRoundTrip table fun e he => mt List.length_eq_zero_iff.2 (hcoded.2 e he)
  have hencode : encodeInput layout kind fmt input = .ok (writeStreams layout fmt (headerText table) body) := by
    simp only [encodeInput, htable, hbody]
  have hread : readStreams layout fmt (writeStreams layout fmt (headerText table) body).alphabet
      (writeStreams layout fmt (headerText table) body).body = .ok (table, body) := by
    simp only [readStreams, hsplit, hheader]
  exact ⟨_, hencode, by rw [decodeCall_run hread hrun, hobs, result_done]⟩

end Sys2Proof.Machine
end

section
/-! PROOF. What a decode call answers (spec/48_host_reference.md R220 to R222): streams that give no table fail with a
host error of the header; otherwise the session runs to its end, which is `DONE` or a fault of the table or of the body:
its commands stand in the order of R273, so that none of them is an illegal command (R241). -/

namespace Sys2Proof.Machine

/-! ### Streams that give no table -/

/-- The errors of a header that cannot be parsed (R218, R219, R220). -/
def HeaderError (e : HostError) : Prop := e = .malformedHeader ∨ e = .invalidToken

theorem parseCodeword_error {word : List Byte} {e : HostError} (h : parseCodeword word = .error e) :
    e = .malformedHeader := by
  fun_induction parseCodeword word with
  | case1 => cases h
  | case2 => cases h; rfl
  | case3 _ _ _ _ _ hrest ih => cases h; exact ih hrest
  | case4 => cases h

theorem parseToken_error {token : List Byte} {e : HostError} (h : parseToken token = .error e) :
    e = .invalidToken := by
  unfold parseToken at h
  split at h
  · cases h
  · split at h
    · cases h
    · split at h <;> cases h
      rfl

theorem parseEntry_error {line : List Byte} {e : HostError} (h : parseEntry line = .error e) : HeaderError e := by
  unfold parseEntry at h
  split at h
  · cases h; exact .inl rfl
  · split at h
    · next hword => cases h; exact .inl (parseCodeword_error hword)
    · split at h
      · next htoken => cases h; exact .inr (parseToken_error htoken)
      · cases h

theorem parseEntries_error {n : Nat} {lines : List (List Byte)} {e : HostError}
    (h : parseEntries n lines = .error e) : HeaderError e := by
  fun_induction parseEntries n lines with
  | case1 => cases h
  | case2 => cases h; exact .inl rfl
  | case3 => cases h; exact .inl rfl
  | case4 _ _ _ _ hline => cases h; exact parseEntry_error hline
  | case5 _ _ _ _ _ _ hrest ih => cases h; exact ih hrest
  | case6 => cases h

theorem parseCount_error {line : List Byte} {e : HostError} (h : parseCount line = .error e) : HeaderError e := by
  unfold parseCount at h
  split at h
  · cases h; exact .inl rfl
  · split at h <;> cases h
    exact .inl rfl

theorem parseHeader_error {text : List Byte} {e : HostError} (h : parseHeader text = .error e) : HeaderError e := by
  unfold parseHeader at h
  split at h
  · cases h; exact .inl rfl
  · split at h
    · next hcount => cases h; exact parseCount_error hcount
    · exact parseEntries_error h

theorem splitStreams_error {layout : FileLayout} {fmt : Fmt} {alphabet body : List Byte} {e : HostError}
    (h : splitStreams layout fmt alphabet body = .error e) : HeaderError e := by
  unfold splitStreams cutHeader at h
  split at h
  · split at h
    · next hcount => cases h; exact parseCount_error hcount
    · cases h
  · cases h

theorem readStreams_error {layout : FileLayout} {fmt : Fmt} {alphabet body : List Byte} {e : HostError}
    (h : readStreams layout fmt alphabet body = .error e) : HeaderError e := by
  unfold readStreams at h
  split at h
  · next hsplit => cases h; exact splitStreams_error hsplit
  · split at h
    · next hheader => cases h; exact parseHeader_error hheader
    · cases h

/-! ### A session that may have faulted -/

/-- A cause of kind 1 or 2: the table or the body is at fault (R241). -/
def CallCause (cause : BitVec 8) : Prop := cause.extractLsb' 4 4 = 1#4 ∨ cause.extractLsb' 4 4 = 2#4

/-- A session has come to phase `p`, or the table or the body has faulted before. -/
structure InSession (p : Phase) (s : State) : Prop where
  invariant : SessionInvariant s
  phase     : s.phase = p ∨ s.phase = .fault ∧ CallCause s.cause

theorem InSession.phase_eq {p : Phase} {s : State} (h : InSession p s) (hf : s.phase ≠ .fault) : s.phase = p :=
  h.phase.resolve_right fun hfault => hf hfault.1

/-- No pseudocode raises a cause of kind 3 but that of `CWB` (R112, R241). -/
theorem callCause_of_raisedBy {i : Instr} {c : Cause} (h : c ∈ raisedBy i) :
    CallCause c.code ∨ c = .icNoOpenEntry ∧ i.opcode = .cwb := by
  have key : ∀ c ∈ raisedBy i, (c.code.extractLsb' 4 4 = 1#4 ∨ c.code.extractLsb' 4 4 = 2#4) ∨
      c = .icNoOpenEntry ∧ i.opcode = .cwb := by
    cases i <;> simp only [raisedBy, Instr.opcode] <;> decide
  exact key c h

/-- Only on an empty table does `CWB` find no open entry (R112). -/
theorem nent_of_raises_noOpenEntry {i : Instr} {s u : State} (hcwb : i.opcode = .cwb)
    (h : pseudocode i s = .raised .icNoOpenEntry u) : s.nent = 0 := by
  cases i with
  | cwb arg =>
    by_contra hn
    have hwithin : (cwbBody arg s).Within [.mhCodeTooLong] fun _ => True := by
      rw [cwbBody, if_neg hn]
      refine Result.ofExcept_bind_within fun e _ => ?_
      split
      · exact ⟨List.mem_cons_self, trivial⟩
      · unfold writeCT
        split <;> trivial
    exact absurd (hwithin.of_raised h).1 (by decide)
  | _ => cases hcwb

/-- A well-formed command in its place: legal in the phase the session has come to, and no `CWB` on an empty table. -/
theorem InSession.exec {i : Instr} {p : Phase} {s : State} (h : InSession p s) (hp : p ≠ .fault) (hrst : i ≠ .rst)
    (hwf : i.wellFormed = true) (hl : legalIn i.opcode p = true)
    (hopen : i.opcode = .cwb → s.phase ≠ .fault → s.nent ≠ 0) :
    ∃ t, exec i s = .next t ∧ InSession (phaseAfter i p) t := by
  obtain ⟨t, hexec, hinv⟩ := exec_keeps_invariant i h.invariant
  refine ⟨t, hexec, hinv, ?_⟩
  rcases exec_next_cases hexec with
    ⟨hf, rfl⟩ | ⟨hf, c, u, rfl, ⟨-, hill, -⟩ | ⟨-, hill, -⟩ | hraised⟩ | ⟨hf, -, hok⟩
  · exact .inr (h.phase.resolve_left fun heq => hp (heq ▸ hf))
  · cases hwf.symm.trans hill
  · rw [h.phase_eq hf] at hill
    cases hl.symm.trans hill
  · have hmem := ((pseudocode_within i s).of_raised hraised).1
    rcases callCause_of_raisedBy hmem with hcause | ⟨rfl, hcwb⟩
    · exact .inr ⟨rfl, hcause⟩
    · exact absurd (nent_of_raises_noOpenEntry hcwb hraised) (hopen hcwb hf)
  · have hphase := (pseudocode_ok_phase hok hrst).1
    rw [h.phase_eq fun hfault => hrst (hf hfault)] at hphase
    exact .inl hphase

/-- Commands that each keep a property of the state. -/
theorem run_of_each {P : State → Prop} {commands : List Instr}
    (h : ∀ i ∈ commands, ∀ s, P s → ∃ t, exec i s = .next t ∧ P t) {s : State} (hs : P s) :
    ∃ t, runCommands commands s = .next t ∧ P t := by
  induction commands generalizing s with
  | nil => exact ⟨s, rfl, hs⟩
  | cons i rest ih =>
    obtain ⟨hi, hrest⟩ := List.forall_mem_cons.1 h
    obtain ⟨t, hexec, ht⟩ := hi s hs
    obtain ⟨u, hrun, hu⟩ := ih hrest ht
    exact ⟨u, by rw [runCommands_cons hexec, hrun], hu⟩

/-! ### The commands of a session -/

/-- A session whose table has an entry to append bits to. -/
def EntryOpen (s : State) : Prop := InSession .load s ∧ (s.phase ≠ .fault → s.nent ≠ 0)

theorem exec_phase_ne_fault {i : Instr} {s t : State} (h : exec i s = .next t) (hrst : i ≠ .rst)
    (ht : t.phase ≠ .fault) : s.phase ≠ .fault := by
  intro hf
  rw [exec_in_fault hf hrst] at h
  cases h
  exact ht hf

/-- `ENT` opens an entry (R111). -/
theorem InSession.exec_ent {s : State} (h : InSession .load s) (sym : Sym) :
    ∃ t, Machine.exec (.ent sym) s = .next t ∧ EntryOpen t := by
  obtain ⟨t, hexec, ht⟩ := h.exec (i := .ent sym) nofun nofun (ent_wellFormed sym) rfl
    nofun
  refine ⟨t, hexec, ht, fun htf => ?_⟩
  have hf := exec_phase_ne_fault hexec nofun htf
  have hload := h.phase_eq hf
  obtain ⟨table, hlive⟩ := h.invariant.live hf
  rcases Nat.lt_or_eq_of_le hlive.entries with hroom | hfull
  · rw [exec_ent_room hload hroom] at hexec
    cases hexec
    intro h0
    have hsucc := toNat_nent_succ hroom
    rw [show s.nent + 1 = 0 from h0] at hsucc
    cases hsucc
  · obtain ⟨-, -, hraise, -⟩ := entAppendsAnEntry sym s
    obtain ⟨u, hu, hphase, -⟩ := hraise hload hfull
    cases hexec.symm.trans hu
    exact absurd hphase htf

/-- `CWB` keeps it open (R112). -/
theorem EntryOpen.exec_cwb {s : State} (h : EntryOpen s) (b : Bool) :
    ∃ t, exec (.cwb (if b then 1 else 0)) s = .next t ∧ EntryOpen t := by
  obtain ⟨hload, hopen⟩ := h
  obtain ⟨t, hexec, ht⟩ := hload.exec (i := .cwb (if b then 1 else 0)) nofun nofun (cwb_wellFormed b) rfl
    fun _ => hopen
  refine ⟨t, hexec, ht, fun htf => ?_⟩
  have hframe := commandsWriteOnlyWhatTheMatrixMarks _ _ _ hexec htf
  rw [show t = { s with ct := t.ct } from hframe]
  exact hopen (exec_phase_ne_fault hexec nofun htf)

theorem run_codeCommands (e : CodeEntry) {s : State} (h : InSession .load s) :
    ∃ t, runCommands (codeCommands e) s = .next t ∧ InSession .load t := by
  obtain ⟨t, hexec, ht⟩ := h.exec_ent e.sym
  have cwbs : ∀ i ∈ e.code.map fun b => Instr.cwb (if b then 1 else 0), ∀ v, EntryOpen v →
      ∃ w, exec i v = .next w ∧ EntryOpen w := by
    intro i hi v hv
    obtain ⟨b, -, rfl⟩ := List.mem_map.1 hi
    exact hv.exec_cwb b
  obtain ⟨u, hrun, hu⟩ := run_of_each cwbs ht
  exact ⟨u, by rw [codeCommands_eq, runCommands_cons hexec, hrun], hu.1⟩

/-- Loading a table, whatever its entries (R89). -/
theorem run_table (table : List CodeEntry) {s : State} (h : InSession .load s) :
    ∃ t, runCommands (entryCommands table) s = .next t ∧ InSession .load t := by
  induction table generalizing s with
  | nil => exact ⟨s, rfl, h⟩
  | cons e table ih =>
    obtain ⟨t, hrun, ht⟩ := run_codeCommands e h
    obtain ⟨u, hrun', hu⟩ := ih ht
    exact ⟨u, by rw [entryCommands, List.flatMap_cons, runCommands_append hrun]; exact hrun', hu⟩

theorem opened_inSession (kind : Kind) (fmt : Fmt) (s : State) : InSession .load (s.opened kind fmt) :=
  ⟨((resetSession_invariant s).loading_cfg rfl _).invariant, .inl rfl⟩

/-- A session runs to its end, whatever the table and the body are (R273). -/
theorem run_session (kind : Kind) (fmt : Fmt) (table : List CodeEntry) (body : List Byte) (s : State) :
    ∃ t, runCommands (sessionCommands kind fmt table body) s = .next t ∧ InSession .done t := by
  obtain ⟨t, hload, ht⟩ := run_table table (opened_inSession kind fmt s)
  obtain ⟨u, hbld, hu⟩ := ht.exec (i := .bld) nofun nofun rfl rfl nofun
  have dats : ∀ i ∈ bodyCommands body, ∀ v, InSession .run v → ∃ w, exec i v = .next w ∧ InSession .run w := by
    intro i hi v hv
    obtain ⟨B, -, rfl⟩ := List.mem_map.1 hi
    exact hv.exec nofun nofun (dat_wellFormed B) rfl nofun
  obtain ⟨v, hdats, hv⟩ := run_of_each dats hu
  obtain ⟨w, hend, hw⟩ := hv.exec (i := .endBody) nofun nofun rfl rfl nofun
  refine ⟨w, ?_, hw⟩
  rw [sessionCommands, run_opened, runCommands_append hload, runCommands_cons hbld, runCommands_append hdats,
    runCommands_cons hend]
  rfl

/-! ### The answer -/

theorem result_malformedHeader {out : List Sym} {cause : BitVec 8} (h : cause.extractLsb' 4 4 = 1#4) :
    Observation.result ⟨out, .fault, cause⟩ = some ⟨out, some .malformedHeader⟩ := by
  simp [Observation.result, causeKind, h, ErrorKind.hostError]

theorem result_corruptStream {out : List Sym} {cause : BitVec 8} (h : cause.extractLsb' 4 4 = 2#4) :
    Observation.result ⟨out, .fault, cause⟩ = some ⟨out, some .corruptStream⟩ := by
  simp [Observation.result, causeKind, h, ErrorKind.hostError]

/-- Settles O59: the session runs to its end, and the call answers the kind of its cause. -/
theorem decodeCallAlwaysAnswers : Obligations.DecodeCallAlwaysAnswers := by
  unfold Obligations.DecodeCallAlwaysAnswers
  intro layout kind fmt alphabet body s
  refine ⟨fun e he => ⟨readStreams_error he, decodeCall_error he⟩, fun table data hread => ?_⟩
  obtain ⟨t, hcommands, -, hphase⟩ := run_session kind fmt table data s
  have hrun := run_presented sessionCommands_wellFormed hcommands
  have hcall := decodeCall_run hread hrun
  have hobs : ({ t with input := [] } : State).observe = ⟨t.out, t.phase, t.cause⟩ := rfl
  refine ⟨_, hrun, ?_⟩
  rw [hcall, hobs]
  rcases hphase with hdone | ⟨hfault, hkind | hkind⟩
  · exact .inl ⟨hdone, by rw [hdone, result_done]⟩
  · exact .inr (.inl ⟨hfault, hkind, by rw [hfault, result_malformedHeader hkind]⟩)
  · exact .inr (.inr ⟨hfault, hkind, by rw [hfault, result_corruptStream hkind]⟩)

end Sys2Proof.Machine
end

section
/-! PROOF. Waiting and phase `FAULT` (spec/60_exceptions.md R246, R248, R249, R255): a step with nothing presented, what
a step can do in phase `FAULT`, and why the values that a fault entry leaves unspecified are never observed: outside
phase `FAULT` two states that the host cannot tell apart differ only in a field of the model's own, and in phase
`FAULT` no command but `RST` is executed. -/

namespace Sys2Proof.Machine

/-- Settles O7: it is the first case of the step. -/
theorem stepWaitsWithNothingPresented : Obligations.StepWaitsWithNothingPresented := by
  unfold Obligations.StepWaitsWithNothingPresented
  exact fun _ => step_waits

/-! ### Phase `FAULT` -/

/-- A step that takes no reset changes nothing in phase `FAULT` but what is presented (R81, R255). -/
theorem step_in_fault {s : State} (hf : s.phase = .fault) (hhard : s.input.head? ≠ some .hardReset)
    (hrst : s.input.head? ≠ some (.word 0x0100)) : step s = .next s.dropInput := by
  rcases hin : s.input with _ | ⟨w | _, rest⟩
  case nil => rw [step_waits hin, State.dropInput, hin, List.tail_nil, ← hin]
  case word =>
    have hw : w ≠ 0x0100 := by simpa [hin] using hrst
    rw [faultPhaseIgnoresEveryOtherWord s w rest hf hw hin, State.dropInput, hin, List.tail_cons]
  case hardReset => simp [hin] at hhard

/-- A step that takes a hardware reset or the word of `RST` leaves the reset state, in every phase (R102, R270). -/
theorem step_of_reset {s : State} (h : s.input.head? = some .hardReset ∨ s.input.head? = some (.word 0x0100)) :
    step s = .next s.dropInput.resetSession := by
  rcases h with h | h <;> obtain ⟨rest, hin⟩ := List.head?_eq_some_iff.1 h
  · rw [step_hardReset hin, State.dropInput, hin, List.tail_cons]
  · rw [step_word hin, runWord_ok (decode_eq_rst.2 rfl), exec_rst, State.dropInput, hin, List.tail_cons]

/-- Settles O16, by induction on the number of steps: each takes one of the presented words and keeps the rest of the
state. -/
theorem faultIsSticky : Obligations.FaultIsSticky := by
  unfold Obligations.FaultIsSticky
  intro n
  induction n with
  | zero => exact fun s hf _ => ⟨s, rfl, hf, rfl, rfl⟩
  | succ n ih =>
    intro s hf hwords
    have hhead : ∀ x, s.input.head? = some x → ∃ w, x = .word w ∧ w ≠ 0x0100 :=
      fun x hx => hwords x (List.mem_of_head? hx)
    have hstep : step s = .next s.dropInput :=
      step_in_fault hf (fun h => by simpa using hhead _ h) (fun h => by simpa using hhead _ h)
    rw [run_succ hstep]
    exact ih s.dropInput hf fun x hx => hwords x (List.mem_of_mem_tail hx)

/-- Settles O17: the step takes a reset or it does not. -/
theorem onlyResetLeavesFault : Obligations.OnlyResetLeavesFault := by
  unfold Obligations.OnlyResetLeavesFault
  intro s t hf hstep
  by_cases hreset : s.input.head? = some .hardReset ∨ s.input.head? = some (.word 0x0100)
  · rw [step_of_reset hreset] at hstep
    cases hstep
    exact .inl ⟨hreset, resetSession_atReset _⟩
  · obtain ⟨hhard, hrst⟩ := not_or.1 hreset
    rw [step_in_fault hf hhard hrst] at hstep
    cases hstep
    exact .inr ⟨hhard, hrst, rfl⟩

/-! ### States that the host cannot tell apart -/

theorem Alike.phase_eq {s s' : State} (h : Alike s s') : s.phase = s'.phase := congrArg Observation.phase h.1

theorem Alike.out_eq {s s' : State} (h : Alike s s') : s.out = s'.out := congrArg Observation.out h.1

theorem Alike.input_eq {s s' : State} (h : Alike s s') : s.input = s'.input := h.2.1

theorem Alike.eq_with_draws {s s' : State} (h : Alike s s') (hf : s.phase ≠ .fault) :
    s' = { s with draws := s'.draws } := h.2.2 hf

/-- Another count of free values drawn makes no difference that the host can see. -/
theorem Alike.with_draws (s : State) (n : Nat) : Alike s { s with draws := n } := ⟨rfl, rfl, fun _ => rfl⟩

theorem Alike.with_input {s s' : State} (h : Alike s s') (input : List HostInput) :
    Alike { s with input := input } { s' with input := input } := by
  obtain ⟨hobs, _, hlive⟩ := h
  refine ⟨hobs, rfl, fun hf => ?_⟩
  rw [hlive hf]

/-- A reset leaves nothing of what a fault left unspecified (R249). -/
theorem Alike.resetSession {s s' : State} (h : Alike s s') : Alike s.resetSession s'.resetSession := by
  refine ⟨rfl, h.input_eq, fun _ => ?_⟩
  unfold State.resetSession
  rw [h.input_eq]

/-- After a fault entry the host sees the cause and the symbols, whatever the free values are (R246). -/
theorem Alike.enterFault {s s' : State} (h : Alike s s') (c : Cause) : Alike (s.enterFault c) (s'.enterFault c) := by
  refine ⟨?_, h.input_eq, fun hf => absurd rfl hf⟩
  unfold State.observe
  rw [State.enterFault_out, State.enterFault_out, h.out_eq]
  rfl

/-- A next state of the first answer has one in the second that the host cannot tell from it. -/
def Follows (o o' : Host.Outcome State Fault Refusal) : Prop :=
  ∀ t, o = .next t → ∃ t', o' = .next t' ∧ Alike t t'

theorem Alike.follows {t t' : State} (h : Alike t t') : Follows (.next t) (.next t') := by
  rintro _ ⟨⟩
  exact ⟨t', rfl, h⟩

/-- Pseudocode ends alike whatever the count of free values drawn is, because it does not read it. -/
theorem finish_follows (i : Instr) (s : State) (n : Nat) :
    Follows (pseudocode i s).finish (pseudocode i { s with draws := n }).finish := by
  have hrun : pseudocode i { s with draws := n } = (pseudocode i s).mapOwn id fun _ => n :=
    pseudocode_mapOwn id (fun _ => n) s i
  rw [hrun]
  cases pseudocode i s with
  | ok _ t => exact (Alike.with_draws t n).follows
  | raised c t => exact ((Alike.with_draws t n).enterFault c).follows
  | stop g => exact nofun

/-- Outside phase `FAULT`, where the two states differ in that count only. -/
theorem exec_follows_live (i : Instr) {s : State} (n : Nat) (hf : s.phase ≠ .fault) :
    Follows (exec i s) (exec i { s with draws := n }) := by
  have faults (c : Cause) : Follows (.next (s.enterFault c)) (.next (State.enterFault c { s with draws := n })) :=
    ((Alike.with_draws s n).enterFault c).follows
  cases hw : i.wellFormed with
  | false =>
    rw [exec_reserved hf hw, exec_reserved (s := { s with draws := n }) hf hw]
    exact faults _
  | true =>
    cases hl : legalIn i.opcode s.phase with
    | false =>
      rw [exec_wrongPhase hf hw hl, exec_wrongPhase (s := { s with draws := n }) hf hw hl]
      exact faults _
    | true =>
      rw [exec_legal hf hw hl, exec_legal (s := { s with draws := n }) hf hw hl]
      exact finish_follows i s n

/-- In phase `FAULT` a command is `RST` or is ignored (R81). -/
theorem exec_follows (i : Instr) {s s' : State} (h : Alike s s') : Follows (exec i s) (exec i s') := by
  by_cases hf : s.phase = .fault
  · by_cases hrst : i = .rst
    · subst hrst
      rw [exec_rst, exec_rst]
      exact h.resetSession.follows
    · rw [exec_in_fault hf hrst, exec_in_fault (h.phase_eq ▸ hf) hrst]
      exact h.follows
  · rw [h.eq_with_draws hf]
    exact exec_follows_live i s'.draws hf

theorem Alike.rejectWord {s s' : State} (h : Alike s s') (e : DecodeError) :
    Alike (rejectWord e s) (rejectWord e s') := by
  unfold Machine.rejectWord
  rw [← h.phase_eq]
  split
  · exact h
  · exact h.enterFault _

theorem step_follows {s s' : State} (h : Alike s s') : Follows (step s) (step s') := by
  have hin' := h.input_eq
  rcases hin : s.input with _ | ⟨w | _, rest⟩ <;> rw [hin] at hin'
  case nil =>
    rw [step_waits hin, step_waits hin'.symm]
    exact h.follows
  case hardReset =>
    rw [step_hardReset hin, step_hardReset hin'.symm]
    exact (h.with_input rest).resetSession.follows
  case word =>
    rw [step_word hin, step_word hin'.symm]
    cases hdec : decode w with
    | ok i =>
      rw [runWord_ok hdec, runWord_ok hdec]
      exact exec_follows i (h.with_input rest)
    | error e =>
      rw [runWord_error hdec, runWord_error hdec]
      exact ((h.with_input rest).rejectWord e).follows

/-- A run that answers a next state begins with a step that does. -/
theorem step_of_run_succ {n : Nat} {s t : State} (h : Host.Core.run core (n + 1) s = .next t) :
    ∃ u, step s = .next u ∧ Host.Core.run core n u = .next t := by
  cases hstep : step s with
  | next u => exact ⟨u, rfl, by rwa [run_succ hstep] at h⟩
  | fault g =>
    simp [Host.Core.run, show core.step s = .fault g from hstep] at h
  | refused r =>
    simp [Host.Core.run, show core.step s = .refused r from hstep] at h

/-- Settles O19: a fault entry is what `FaultsWith` says, and every step of a run keeps its states alike. -/
theorem unspecifiedValuesAreUnobservable : Obligations.UnspecifiedValuesAreUnobservable := by
  unfold Obligations.UnspecifiedValuesAreUnobservable
  refine ⟨enterFault_faultsWith, fun n => ?_⟩
  induction n with
  | zero =>
    rintro s s' _ h ⟨⟩
    exact ⟨s', rfl, h⟩
  | succ n ih =>
    intro s s' t h hrun
    obtain ⟨u, hstep, hrest⟩ := step_of_run_succ hrun
    obtain ⟨u', hstep', hu⟩ := step_follows h u hstep
    rw [run_succ hstep']
    exact ih u u' t hu hrest

end Sys2Proof.Machine
end

section
/-! PROOF. The hardware reset (spec/70_reset_and_hazards.md R270, R272) against the command `RST`. -/

namespace Sys2Proof.Machine

/-- Settles O2: either reset is dropped from the input and leaves `State.resetSession`, and what is left of the input
is the same. -/
theorem hardResetHasTheEffectOfRst : Obligations.HardResetHasTheEffectOfRst := by
  unfold Obligations.HardResetHasTheEffectOfRst
  intro s rest
  have hhard : ({ s with input := .hardReset :: rest } : State).input.head? = some .hardReset := rfl
  have hrst : ({ s with input := .word 0x0100 :: rest } : State).input.head? = some (.word 0x0100) := rfl
  rw [step_of_reset (.inl hhard), step_of_reset (.inr hrst)]
  simp only [State.dropInput, List.tail_cons]

end Sys2Proof.Machine
end
